-- ==== Sys2Proof/Word.lean ====
section
/-! DEFINITION. The value types every rule uses (00_scope R10, R11): words, bytes, symbols and bit lists. -/

namespace Sys2Proof

/-- A register value or bus word: unsigned, 32 bits (R10). -/
abbrev Word := BitVec 32

/-- A buffer byte (R11: `Bytes` are lists of these). -/
abbrev Byte := BitVec 8

/-- A symbol of the alphabet 0..255 (R11). -/
abbrev Sym := BitVec 8

/-- A finite list of bits, first bit first, `false` for bit 0 (R11). -/
abbrev Bits := List Bool

end Sys2Proof
end

