-- ==== Sys2Proof/Syntax.lean ====
section
/-! DEFINITION. The commands of the block: one constructor per row of spec/opcode_table.json (30_encoding R60). -/

namespace Sys2Proof

/-- A command. It has no operand field: every operand is implicit state (30_encoding R59). -/
inductive Instr where
  /-- opcode 0x00, 43_control R91 -/
  | nop
  /-- opcode 0x01, 40_encoder R66 -/
  | count
  /-- opcode 0x02, 40_encoder R68 -/
  | build
  /-- opcode 0x03, 40_encoder R72 -/
  | gen
  /-- opcode 0x04, 40_encoder R75 -/
  | pack
  /-- opcode 0x05, 41_codec R80 -/
  | serialize
  /-- opcode 0x06, 41_codec R82 -/
  | deserialize
  /-- opcode 0x07, 42_decoder R85 -/
  | reconstruct
  /-- opcode 0x08, 42_decoder R88 -/
  | unpack
  /-- opcode 0x0F, 43_control R92 -/
  | clear
deriving DecidableEq, Repr

end Sys2Proof
end

