-- ==== Sys2Proof/Decode.lean ====
section
/-! DEFINITION. Decoding of a command word, total on every 32-bit word (30_encoding R61), the illegal words by the
reason they are illegal (R62), and the encoder from the same opcode map (R60). -/

namespace Sys2Proof

/-- Why a command word is illegal (R62). -/
inductive Illegal where
  /-- bits [31:8] are not all 0 -/
  | reservedBits
  /-- OPCODE is 0x09 to 0x0E or 0x10 to 0xFF -/
  | opcode
deriving DecidableEq, Repr

/-- The field OPCODE, bits [7:0] (R58). -/
def opcodeField (w : Word) : BitVec 8 := w.extractLsb' 0 8

/-- The field RSV, bits [31:8] (R58). -/
def reservedField (w : Word) : BitVec 24 := w.extractLsb' 8 24

/-- The opcode map of R60 read from the opcode. -/
def instrOfOpcode (o : BitVec 8) : Option Instr :=
  match o.toNat with
  | 0x00 => some .nop
  | 0x01 => some .count
  | 0x02 => some .build
  | 0x03 => some .gen
  | 0x04 => some .pack
  | 0x05 => some .serialize
  | 0x06 => some .deserialize
  | 0x07 => some .reconstruct
  | 0x08 => some .unpack
  | 0x0F => some .clear
  | _ => none

/-- `decode(w)` of R61. -/
def decode (w : Word) : Except Illegal Instr :=
  if reservedField w = 0 then
    match instrOfOpcode (opcodeField w) with
    | some i => .ok i
    | none => .error .opcode
  else .error .reservedBits

/-- The opcode of a command (R60). -/
def opcodeOf : Instr → BitVec 8
  | .nop => 0x00
  | .count => 0x01
  | .build => 0x02
  | .gen => 0x03
  | .pack => 0x04
  | .serialize => 0x05
  | .deserialize => 0x06
  | .reconstruct => 0x07
  | .unpack => 0x08
  | .clear => 0x0F

/-- The command word of a command: RSV = 0 above its opcode (R58, R64 `cmd`). -/
def encode (i : Instr) : Word := (opcodeOf i).setWidth 32

/-- The command word made of the low `nbits` bits of `w`, every bit above them 0. -/
def tableWord (nbits w : Nat) : Word := BitVec.ofNat 32 (w % 2 ^ nbits)

/-- What the decoder reads from an opcode-table row's bits. -/
def decodeTableWord (nbits w : Nat) : Option Instr :=
  match decode (tableWord nbits w) with
  | .ok i => some i
  | .error _ => none

end Sys2Proof
end

