-- ==== Sys2Proof/Config.lean ====
section
/-! DEFINITION. What one implementation fixes (the OPEN rows of 00_scope R9) and the free values: the draw BUSY_LEN,
the value of a host read of an unspecified byte, and the value of a host read while busy. None of the `opaque`
constants has a body, so nothing provable depends on which value it is. -/

namespace Sys2Proof

/-- The three buffer capacities with the bounds of 00_scope R9. A value of this type always meets them. -/
structure Caps where
  /-- IN_CAP, bytes of IN_BUF. -/
  inCap : Nat
  /-- OUT_CAP, bytes of OUT_BUF. -/
  outCap : Nat
  /-- TXT_CAP, bytes of TXT_BUF. -/
  txtCap : Nat
  inCap_bounds : 1 ≤ inCap ∧ inCap ≤ 2 ^ 29 - 1
  outCap_bounds : 1 ≤ outCap ∧ outCap ≤ 2 ^ 29 - 1
  txtCap_bounds : 66816 ≤ txtCap ∧ txtCap ≤ 131072
deriving DecidableEq, Repr

/-- IN_CAP − 1 of this instance: OPEN (R9, D5). Log 2. -/
opaque Config.inCapLess1 : Fin 536870911

/-- OUT_CAP − 1 of this instance: OPEN (R9, D5). Log 2. -/
opaque Config.outCapLess1 : Fin 536870911

/-- TXT_CAP − 66816 of this instance: OPEN (R9, D5). Log 2. -/
opaque Config.txtCapSpare : Fin 64257

/-- The capacities of this instance: any three numbers within the bounds of R9. -/
def Config.caps : Caps where
  inCap := Config.inCapLess1.val + 1
  outCap := Config.outCapLess1.val + 1
  txtCap := Config.txtCapSpare.val + 66816
  inCap_bounds := by have := Config.inCapLess1.isLt; omega
  outCap_bounds := by have := Config.outCapLess1.isLt; omega
  txtCap_bounds := by have := Config.txtCapSpare.isLt; omega

/-- BUSY_LEN of the command accepted as host access number `n`: a draw, finite, possibly 0 (R9, D29). Log 1. -/
opaque Config.busyLen : Nat → Nat

/-- The value a host read returns for an unspecified buffer byte: draw number `n` (10_state R38). Log 3. -/
opaque Config.freeByte : Nat → Byte

/-- The value a host read of a non-status address returns while busy: draw number `n` (20_memory R50). Log 4. -/
opaque Config.freeWord : Nat → Word

/-- NSYM, the number of symbols (R9). -/
abbrev Config.nsym : Nat := 256

/-- MAX_CODE_LEN, the longest code in bits (R9, D22). -/
abbrev Config.maxCodeLen : Nat := 255

/-- NODE_CAP, hardware sizing only: the tree is a `PTree` value and the arena is not architectural (R34, D31). -/
abbrev Config.nodeCap : Nat := 65536

end Sys2Proof
end

