-- ==== Sys2Proof/Machine/State.lean ====
section
/-! DEFINITION. The state of the block as 10_state gives it, as plain data, with the model's own fields (the host's
pending operations, the values its reads returned, the draw counter, whether a reset came last), the faults and refusals of a step, and reset. -/

namespace Sys2Proof.Machine

/-- A tree value (00_scope R11): `l` is the child reached by bit 0, `r` the child reached by bit 1. -/
inductive PTree where
  /-- an absent child, or no tree -/
  | empty
  | leaf (s : Sym)
  | node (l r : PTree)
deriving DecidableEq, Repr

/-- The error codes that are ever reported (60_exceptions R94). -/
inductive ErrCode where
  | none
  | emptyInput
  | missingCode
  | malformedEntry
  | truncatedBitstream
  | invalidCodePath
  | prefixConflict
  | outputOverflow
  | lengthOutOfRange
  | illegalCommand
deriving DecidableEq, Repr

/-- The three byte buffers (10_state R37). -/
inductive Buffer where
  | inBuf
  | outBuf
  | txtBuf
deriving DecidableEq, Repr

/-- The contents of one buffer: (index, byte) pairs, indexes strictly rising; an index that is not listed is an
unspecified byte (10_state R38). -/
abbrev Memory := List Host.Cell

/-- A file of 256 entries, one per symbol (10_state R30, R31). -/
abbrev Table (α : Type) := Vector α 256

/-- All that a command can read or write, and that becomes visible to the host at completion as one step (20_memory R51):
registers, tables, tree, buffers, and the STATUS fields that acceptance and completion write. -/
structure Block where
  /-- CTRL.BOUNDED (R19) -/
  bounded : Bool
  /-- STATUS.DONE (R21) -/
  done : Bool
  /-- STATUS.ERROR (R21) -/
  error : Bool
  /-- STATUS.ERR_CODE (R21) -/
  errCode : ErrCode
  /-- ERR_INFO (R22) -/
  errInfo : Word
  /-- IN_LEN (R23) -/
  inLen : Word
  /-- OUT_LEN (R24) -/
  outLen : Word
  /-- SYM_COUNT (R25) -/
  symCount : Word
  /-- BIT_COUNT (R26) -/
  bitCount : Word
  /-- TXT_LEN (R27) -/
  txtLen : Word
  /-- DISTINCT (R28) -/
  distinct : Word
  /-- CODE_NSYM (R29) -/
  codeNsym : Word
  /-- FREQ[0..255], 0 for an absent symbol (R30) -/
  freq : Table Word
  /-- CODE[0..255], `[]` for a symbol with no code (R31) -/
  code : Table Bits
  /-- TREE (R34) -/
  tree : PTree
  /-- IN_BUF (R37) -/
  inBuf : Memory
  /-- OUT_BUF (R37) -/
  outBuf : Memory
  /-- TXT_BUF (R37) -/
  txtBuf : Memory
deriving DecidableEq, Repr

/-- Why a step ends in a fault. A command that faults is busy first, like any other, and the step that would complete it
reports the fault; a reset before that abandons it (70_reset_and_hazards R106). Log 8. -/
inductive Fault where
  /-- A command consumed buffer byte `i` of `b`, which is unspecified (00_scope R13, 60_exceptions R102: never final).
  Raised by COUNT, PACK, DESERIALIZE and UNPACK. SAFE: hardware goes on with some value, the model stops. -/
  | uninitRead (b : Buffer) (i : Nat)
  /-- RECONSTRUCT met a case of `insert` that 42_decoder R85 marks unreachable, inserting `s`. Stuck (93 item 17).
  SAFE: no state with a prefix-free CODE takes it. Log 10. -/
  | insertUnreachable (s : Sym)
deriving DecidableEq, Repr

/-- What a busy command holds until it completes (the `pending` of 10_state section 8): the block as it will stand then,
or the fault the model reports then. -/
inductive Pending where
  | block (b : Block)
  | fault (f : Fault)
deriving DecidableEq, Repr

/-- The sequencer (10_state R36). `busy after p` is BUSY(after + 1): one host access and then `after` more are left
in the window, and `p` is what the last of them reveals. BUSY(0), which is completion itself, is never a state at rest. -/
inductive Sequencer where
  | idle
  | busy (after : Nat) (p : Pending)
deriving DecidableEq, Repr

/-- One operation of the host (30_encoding R63, R64; 70_reset_and_hazards R106, R116). -/
inductive HostOp where
  /-- `MemRead(addr, 4)` -/
  | read (addr : Word)
  /-- `MemWrite(addr, 4, v)` -/
  | write (addr v : Word)
  /-- the pseudo-instruction `wait`: read STATUS until bit 0 of the value read is 0 -/
  | wait
  /-- the reset event -/
  | reset
deriving DecidableEq, Repr

/-- The whole machine: the block (`toBlock`), the rest of its state, its fixed capacities, and the model's own fields. -/
structure State extends Block where
  /-- the sequencer, with the result not yet visible while busy (R36) -/
  seq : Sequencer
  /-- STATUS.VIOL (R21) -/
  viol : Bool
  /-- STATUS.LAST_CMD (R21) -/
  lastCmd : BitVec 8
  /-- IN_CAP, OUT_CAP, TXT_CAP (00_scope R9); no step changes them. Log 2. -/
  caps : Caps
  /-- MODEL: the host operations still to be served, first one first. Log 6. -/
  host : List HostOp
  /-- MODEL: the value each host read returned, in issue order (70_reset_and_hazards R115). Log 7. -/
  reads : List Word
  /-- MODEL: the number of host accesses served so far, the argument of every free value. Log 5. -/
  draws : Nat
  /-- MODEL: the last operation served was a reset, which is not an end of a run (92_eei_decisions D39). Log 24. -/
  resetLast : Bool
deriving DecidableEq, Repr

/-- Why a step is refused. -/
inductive Refusal where
  /-- The instruction has no meaning in `exec` yet. Raised only by an arm of `exec`. SAFE: nothing follows. -/
  | notModelled (mnemonic : String)
deriving DecidableEq, Repr

/-- The block after reset (10_state R40). -/
def Block.reset : Block where
  bounded := true
  done := false
  error := false
  errCode := .none
  errInfo := 0
  inLen := 0
  outLen := 0
  symCount := 0
  bitCount := 0
  txtLen := 0
  distinct := 0
  codeNsym := 0
  freq := Vector.replicate 256 0
  code := Vector.replicate 256 []
  tree := .empty
  inBuf := []
  outBuf := []
  txtBuf := []

/-- The machine right after reset (10_state R40, 70_reset_and_hazards R107): idle, every table empty, every buffer byte
unspecified, no host operation pending. -/
def State.reset : State where
  toBlock := Block.reset
  seq := .idle
  viol := false
  lastCmd := 0
  caps := Config.caps
  host := []
  reads := []
  draws := 0
  resetLast := false

end Sys2Proof.Machine
end

