-- ==== Sys2Proof/Machine/Ops.lean ====
section
/-! DEFINITION. The named operations over buffers, symbol tables and registers; acceptance, successful completion and
completion with an error (60_exceptions R96, R97, R98), which are what this block has in place of taking an exception
and returning from one (R101); the reset event (70_reset_and_hazards R106). -/

namespace Sys2Proof.Machine

/-- Byte `i` of a buffer, `none` when it is unspecified (10_state R38). -/
def Memory.read : Memory → Nat → Option Byte
  | [], _ => none
  | (a, v) :: m, i => if i = a then some v else Memory.read m i

/-- Byte `i` of a buffer becomes `v`, kept at its place in the rising order. -/
def Memory.write : Memory → Nat → Byte → Memory
  | [], i, v => [(i, v)]
  | (a, w) :: m, i, v =>
    if i < a then (i, v) :: (a, w) :: m
    else if i = a then (i, v) :: m
    else (a, w) :: Memory.write m i v

/-- The bytes `bs` written at `start`, `start + 1`, ... -/
def Memory.writeAll (m : Memory) (start : Nat) : List Byte → Memory
  | [] => m
  | b :: bs => Memory.writeAll (Memory.write m start b) (start + 1) bs

/-- Indexes strictly rising, the first at least `lo`, each below the capacity `cap`. -/
def Memory.wfFrom (lo cap : Nat) : Memory → Bool
  | [] => true
  | (a, _) :: m => decide (lo ≤ a) && decide (a < cap) && Memory.wfFrom (a + 1) cap m

/-- The canonical form of the contents of a buffer of capacity `cap`. -/
def Memory.wf (cap : Nat) (m : Memory) : Bool := Memory.wfFrom 0 cap m

/-- Entry `s` of a table. -/
def entry {α : Type} (t : Table α) (s : Sym) : α := t[s.toNat]'s.isLt

/-- Entry `s` of a table becomes `v`. -/
def setEntry {α : Type} (t : Table α) (s : Sym) (v : α) : Table α := t.set s.toNat v s.isLt

/-- The table with the same value in every entry. -/
def filled {α : Type} (v : α) : Table α := Vector.replicate 256 v

/-- The symbols 0, 1, ..., 255 in ascending order. -/
def allSyms : List Sym := (List.range 256).map (BitVec.ofNat 8)

/-- Every symbol with its entry, in ascending symbol order. -/
def entries {α : Type} (t : Table α) : List (Sym × α) := allSyms.zip t.toList

/-- The number of symbols whose entry satisfies `p`. -/
def countEntries {α : Type} (p : α → Bool) (t : Table α) : Nat := t.toList.countP p

/-- The frequency file is written, and DISTINCT with it (10_state R28). -/
def setFreq (f : Table Word) (s : State) : State :=
  { s with freq := f, distinct := BitVec.ofNat 32 (countEntries (· != 0) f) }

/-- FREQ all 0 and DISTINCT 0: the clearing step of a failed COUNT (40_encoder R66). -/
def clearFreq (s : State) : State := { s with freq := filled 0, distinct := 0 }

/-- The code file is written, and CODE_NSYM with it (10_state R29). -/
def setCode (c : Table Bits) (s : State) : State :=
  { s with code := c, codeNsym := BitVec.ofNat 32 (countEntries (!·.isEmpty) c) }

/-- `clearCode()` of 41_codec R82: every code empty and CODE_NSYM 0. -/
def clearCode (s : State) : State := { s with code := filled [], codeNsym := 0 }

/-- `failPack()` of 40_encoder R75: all of OUT_BUF unspecified, OUT_LEN, SYM_COUNT and BIT_COUNT 0. -/
def failPack (s : State) : State := { s with outBuf := [], outLen := 0, symCount := 0, bitCount := 0 }

/-- `failUnpack()` of 42_decoder R88: all of OUT_BUF unspecified, OUT_LEN and BIT_COUNT 0. -/
def failUnpack (s : State) : State := { s with outBuf := [], outLen := 0, bitCount := 0 }

/-- The number of an error code in STATUS.ERR_CODE (60_exceptions R94). -/
def ErrCode.num : ErrCode → BitVec 8
  | .none => 0x00
  | .emptyInput => 0x01
  | .missingCode => 0x02
  | .malformedEntry => 0x03
  | .truncatedBitstream => 0x04
  | .invalidCodePath => 0x05
  | .prefixConflict => 0x06
  | .outputOverflow => 0x07
  | .lengthOutOfRange => 0x08
  | .illegalCommand => 0x09

/-- `finish()`, successful completion (60_exceptions R97). -/
def finish (s : State) : State :=
  { s with seq := .idle, done := true, error := false, errCode := .none, errInfo := 0 }

/-- `raise Err(code, info)`, completion with an error (60_exceptions R98). The clearing steps of the command are already
in `s`. -/
def raiseErr (code : ErrCode) (info : Word) (s : State) : State :=
  { s with seq := .idle, done := true, error := true, errCode := code, errInfo := info }

/-- The STATUS writes of acceptance of the command word `w` (60_exceptions R96). BUSY and the sequencer are set by
`publish`, once the command's result is known. -/
def accept (w : Word) (s : State) : State :=
  { s with done := false, error := false, errCode := .none, viol := false, lastCmd := w.extractLsb' 0 8 }

/-- After acceptance in `s` with BUSY_LEN = `k`, when the command ends in `o`: with `k = 0` completion has already
happened; otherwise the block is BUSY(k) and keeps the result, or the fault, for completion (10_state R36). -/
def publish (k : Nat) (s : State) (o : Host.Outcome State Fault Refusal) : Host.Outcome State Fault Refusal :=
  match o with
  | .next t =>
    .next (match k with
      | 0 => t
      | after + 1 => { s with seq := .busy after (.block t.toBlock) })
  | .fault f =>
    match k with
    | 0 => .fault f
    | after + 1 => .next { s with seq := .busy after (.fault f) }
  | .refused r => .refused r

/-- What every served host access does to the model's own fields: it uses up its draw number, and a reset no longer came
last. -/
def served (s : State) : State := { s with draws := s.draws + 1, resetLast := false }

/-- One host access has been served: a busy window counts down by one, and the command completes, or its fault is
reported, when it reaches BUSY(0) (10_state R36, 20_memory R50). -/
def countDown (s : State) : Host.Outcome State Fault Refusal :=
  match s.seq with
  | .idle => .next (served s)
  | .busy 0 (.block b) => .next { served s with toBlock := b, seq := .idle }
  | .busy 0 (.fault f) => .fault f
  | .busy (after + 1) p => .next { served s with seq := .busy after p }

/-- The reset event: every piece of the block's state takes its reset value, and a busy command is abandoned
(70_reset_and_hazards R106). The capacities are fixed; of the model's own fields only `resetLast` is written. -/
def resetEvent (s : State) : State :=
  { s with toBlock := Block.reset, seq := .idle, viol := false, lastCmd := 0, resetLast := true }

end Sys2Proof.Machine
end

