-- ==== Sys2Proof/Machine/Operands.lean ====
section
/-! DEFINITION. The operands a command reads: bytes of the buffers, each read of an unspecified byte a model fault
(00_scope R12, R13), and the bits of a packed byte sequence, most significant bit first (20_memory R49). -/

namespace Sys2Proof.Machine

/-- Why a command's computation ends before its last step. -/
inductive Stop where
  /-- a model fault (00_scope R13) -/
  | fault (f : Fault)
  /-- `raise Err(code, info)` (00_scope R12) -/
  | err (code : ErrCode) (info : Word)
deriving DecidableEq, Repr

/-- A byte, or the fault of having consumed an unspecified one. -/
abbrev Operand := Except Fault Byte

/-- Byte `i` of the contents `m` of buffer `b`, as a command consumes it. -/
def consumeByte (b : Buffer) (m : Memory) (i : Nat) : Operand :=
  match Memory.read m i with
  | some v => .ok v
  | none => .error (.uninitRead b i)

/-- `InRead(i)` for i = 0 .. n − 1. -/
def inOperands (s : State) (n : Nat) : List Operand := (List.range n).map (consumeByte .inBuf s.inBuf)

/-- `TxtRead(i)` for i = 0 .. n − 1. -/
def txtOperands (s : State) (n : Nat) : List Operand := (List.range n).map (consumeByte .txtBuf s.txtBuf)

/-- All the bytes of a list of operands, consumed in order. -/
def consumeAll : List Operand → Except Fault (List Byte)
  | [] => .ok []
  | .error f :: _ => .error f
  | .ok b :: rest =>
    match consumeAll rest with
    | .ok bs => .ok (b :: bs)
    | .error f => .error f

/-- Bit `i` of a byte counted from the most significant end, which is bit 7 − i (20_memory R49). -/
def msbBit (b : Byte) (i : Nat) : Bool := b.getLsbD (7 - i)

/-- The eight bits of an operand, most significant first; reading any bit consumes the byte. -/
def operandBits (o : Operand) : List (Except Fault Bool) :=
  (List.range 8).map fun i =>
    match o with
    | .ok b => .ok (msbBit b i)
    | .error f => .error f

/-- The bits `bitAt(IN_BUF, j)` for j = 0 .. 8·nb − 1 (20_memory R49, 42_decoder R88). -/
def inBits (s : State) (nb : Nat) : List (Except Fault Bool) := (inOperands s nb).flatMap operandBits

/-- The number whose bit `i` is `f i`, for i < n. -/
def wordOf : (n : Nat) → (Nat → Bool) → BitVec n
  | 0, _ => 0#0
  | n + 1, f => BitVec.cons (f n) (wordOf n f)

/-- Byte `k` of the bit list `p`, first bit at the most significant end: bits 8k to 8k + 7 (20_memory R49). -/
def packedByte (p : Bits) (k : Nat) : Byte := wordOf 8 fun i => p.getD (8 * k + (7 - i)) false

/-- The root a walk starts from (42_decoder R87). -/
def walkRoot : PTree → PTree
  | .empty => .node .empty .empty
  | .leaf s => .node (.leaf s) .empty
  | .node l r => .node l r

/-- The child a bit selects: 0 left, 1 right (00_scope R11). Only a `node` has children. -/
def child (t : PTree) (b : Bool) : PTree :=
  match t with
  | .node l r => if b then r else l
  | .leaf _ => .empty
  | .empty => .empty

end Sys2Proof.Machine
end

