-- ==== Sys2Proof/Machine/Codec.lean ====
section
/-! DEFINITION. SERIALIZE and DESERIALIZE: the text form of the code table (41_codec R79 to R84). -/

namespace Sys2Proof.Machine

/-- LIT of R79: the bytes that stand for themselves as a symbol field. -/
def isLiteral (v : Byte) : Bool := decide (0x21 ≤ v.toNat) && decide (v.toNat ≤ 0x7E) && v != 0x5C

/-- `hexU(d)` of R79, for d < 16. -/
def hexDigit (d : Nat) : Byte := BitVec.ofNat 8 (if d ≤ 9 then 0x30 + d else 0x41 + (d - 10))

/-- `symField(s)` of R79. -/
def symField (s : Sym) : List Byte :=
  if isLiteral s then [s] else [0x5C, 0x78, hexDigit (s.toNat / 16), hexDigit (s.toNat % 16)]

/-- DIGIT of R79. -/
def digitByte (b : Bool) : Byte := if b then 0x31 else 0x30

/-- The line of symbol `s` with code `c` (R79, R80). -/
def tableLine (s : Sym) (c : Bits) : List Byte := symField s ++ [0x20] ++ c.map digitByte ++ [0x0A]

/-- The text of a code table: the lines of the symbols that have a code, ascending (R80). -/
def tableText (c : Table Bits) : List Byte :=
  (entries c).flatMap fun e => if e.2 = [] then [] else tableLine e.1 e.2

/-- SERIALIZE (R80). -/
def execSerialize (s : State) : Host.Outcome State Fault Refusal :=
  .next (finish { s with
    txtBuf := Memory.writeAll s.txtBuf 0 (tableText s.code)
    txtLen := BitVec.ofNat 32 (tableText s.code).length })

/-- What parsing a piece of text gives: a value and the text after it, no parse, or the fault of having consumed an
unspecified byte. -/
inductive Parse (α : Type) where
  | ok (a : α) (rest : List Operand)
  | bad
  | fault (f : Fault)
deriving Repr

/-- HEX of R79: '0'-'9' and 'A'-'F'. -/
def isHex (b : Byte) : Bool :=
  (decide (0x30 ≤ b.toNat) && decide (b.toNat ≤ 0x39)) || (decide (0x41 ≤ b.toNat) && decide (b.toNat ≤ 0x46))

/-- `hexval` of R82 on a HEX byte. -/
def hexVal (b : Byte) : Nat := if b.toNat ≤ 0x39 then b.toNat - 0x30 else b.toNat - 0x41 + 10

/-- One byte that must be `x`: a position at the end of the text, or any other byte, does not parse. -/
def parseByte (x : Byte) : List Operand → Parse Unit
  | [] => .bad
  | .error f :: _ => .fault f
  | .ok b :: rest => if b = x then .ok () rest else .bad

/-- One byte in HEX. -/
def parseHex : List Operand → Parse Byte
  | [] => .bad
  | .error f :: _ => .fault f
  | .ok b :: rest => if isHex b then .ok b rest else .bad

/-- The rest of ESC after its backslash: `p + 3 < L` asks for three more bytes before any of them is read, and the
escape must be the symbol field of the symbol it names (R82 `parseSym`). -/
def parseEscape (text : List Operand) : Parse Sym :=
  if text.length < 3 then .bad
  else
    match parseByte 0x78 text with
    | .bad => .bad
    | .fault f => .fault f
    | .ok _ text =>
      match parseHex text with
      | .bad => .bad
      | .fault f => .fault f
      | .ok h text =>
        match parseHex text with
        | .bad => .bad
        | .fault f => .fault f
        | .ok l text =>
          let v : Sym := BitVec.ofNat 8 (16 * hexVal h + hexVal l)
          if symField v = [0x5C, 0x78, h, l] then .ok v text else .bad

/-- `parseSym` of R82. -/
def parseSym : List Operand → Parse Sym
  | [] => .bad
  | .error f :: _ => .fault f
  | .ok c :: rest => if isLiteral c then .ok c rest else if c = 0x5C then parseEscape rest else .bad

/-- The longest run of code digits (R82): it never fails to parse. -/
def parseDigits : List Operand → Parse Bits
  | [] => .ok [] []
  | .error f :: _ => .fault f
  | .ok b :: rest =>
    if b = 0x30 ∨ b = 0x31 then
      match parseDigits rest with
      | .ok bits rest => .ok ((b == 0x31) :: bits) rest
      | .bad => .bad
      | .fault f => .fault f
    else .ok [] (.ok b :: rest)

/-- One line of R79: a symbol field, a space, 1 to 255 code digits, a line feed (R82). -/
def parseLine (text : List Operand) : Parse (Sym × Bits) :=
  match parseSym text with
  | .bad => .bad
  | .fault f => .fault f
  | .ok v text =>
    match parseByte 0x20 text with
    | .bad => .bad
    | .fault f => .fault f
    | .ok _ text =>
      match parseDigits text with
      | .bad => .bad
      | .fault f => .fault f
      | .ok bits text =>
        if 1 ≤ bits.length ∧ bits.length ≤ 255 then
          match parseByte 0x0A text with
          | .bad => .bad
          | .fault f => .fault f
          | .ok _ text => .ok (v, bits) text
        else .bad

/-- The while loop of R82 from the table `c` and the line index `line`: the table and the number of lines. A line takes
at least one byte, so `fuel`, the length of the text, never runs out before the text does (log 18). -/
def parseLines : (fuel : Nat) → (line : Nat) → Table Bits → List Operand → Except Stop (Table Bits × Nat)
  | _, line, c, [] => .ok (c, line)
  | 0, line, _, _ :: _ => .error (.err .malformedEntry (BitVec.ofNat 32 line))
  | fuel + 1, line, c, o :: text =>
    match parseLine (o :: text) with
    | .bad => .error (.err .malformedEntry (BitVec.ofNat 32 line))
    | .fault f => .error (.fault f)
    | .ok (v, bits) rest =>
      if entry c v = [] then parseLines fuel (line + 1) (setEntry c v bits) rest
      else .error (.err .malformedEntry (BitVec.ofNat 32 line))

/-- One of the codes `a` and `b` is a prefix of the other (R83). -/
def codesConflict (a b : Bits) : Bool := a.isPrefixOf b || b.isPrefixOf a

/-- Among the symbols that have a code, the least whose code conflicts with another symbol's code (R83). -/
def prefixConflict (c : Table Bits) : Option Sym :=
  let coded := (entries c).filter fun e => !e.2.isEmpty
  (coded.find? fun e => coded.any fun e' => e'.1 != e.1 && codesConflict e.2 e'.2).map (·.1)

/-- DESERIALIZE (R82). On success CODE_NSYM is the number of lines, which is the number of symbols with a code. -/
def execDeserialize (s : State) : Host.Outcome State Fault Refusal :=
  if s.caps.txtCap < s.txtLen.toNat then .next (raiseErr .lengthOutOfRange s.txtLen (clearCode s))
  else
    match parseLines s.txtLen.toNat 0 (filled []) (txtOperands s s.txtLen.toNat) with
    | .error (.fault f) => .fault f
    | .error (.err code info) => .next (raiseErr code info (clearCode s))
    | .ok (c, lines) =>
      match prefixConflict c with
      | some v => .next (raiseErr .prefixConflict (v.setWidth 32) (clearCode s))
      | none => .next (finish { s with code := c, codeNsym := BitVec.ofNat 32 lines })

end Sys2Proof.Machine
end

