-- ==== Sys2Proof/Machine/Control.lean ====
section
/-! DEFINITION. NOP, CLEAR and the illegal command words (43_control R91 to R93). -/

namespace Sys2Proof.Machine

/-- NOP (R91). -/
def execNop (s : State) : Host.Outcome State Fault Refusal := .next (finish s)

/-- CLEAR (R92): every table empty, every length and count register 0; CTRL and the buffers are kept. -/
def execClear (s : State) : Host.Outcome State Fault Refusal :=
  .next (finish { s with
    freq := filled 0
    code := filled []
    tree := .empty
    inLen := 0
    outLen := 0
    symCount := 0
    bitCount := 0
    txtLen := 0
    distinct := 0
    codeNsym := 0 })

/-- `ILLEGAL(w)` (R93): completion with ILLEGAL_COMMAND and the word in ERR_INFO. No constructor of `Instr` stands for
an illegal word; the sequencer runs this where decoding refuses the word. -/
def execIllegal (w : Word) (s : State) : Host.Outcome State Fault Refusal := .next (raiseErr .illegalCommand w s)

end Sys2Proof.Machine
end

