-- ==== Sys2Proof/Machine/Decoder.lean ====
section
/-! DEFINITION. RECONSTRUCT and UNPACK (42_decoder R85 to R90). -/

namespace Sys2Proof.Machine

/-- `insert(t, path, s)` of R85; `none` in the two cases the rule marks unreachable. -/
def insertLeaf : PTree → Bits → Sym → Option PTree
  | .empty, [], s => some (.leaf s)
  | .empty, false :: bs, s => (insertLeaf .empty bs s).map fun l => .node l .empty
  | .empty, true :: bs, s => (insertLeaf .empty bs s).map fun r => .node .empty r
  | .node l r, false :: bs, s => (insertLeaf l bs s).map fun l => .node l r
  | .node l r, true :: bs, s => (insertLeaf r bs s).map fun r => .node l r
  | .leaf _, _, _ => none
  | .node _ _, [], _ => none

/-- The loop of R85 over the given symbols and their codes: the tree, or the symbol whose insertion is unreachable. -/
def insertCodes : PTree → List (Sym × Bits) → Except Sym PTree
  | t, [] => .ok t
  | t, (s, c) :: rest =>
    if c = [] then insertCodes t rest
    else
      match insertLeaf t c s with
      | some t => insertCodes t rest
      | none => .error s

/-- RECONSTRUCT (R85). The unreachable cases end in a fault that no state with a prefix-free CODE takes. -/
def execReconstruct (s : State) : Host.Outcome State Fault Refusal :=
  match insertCodes .empty (entries s.code) with
  | .ok t => .next (finish { s with tree := t })
  | .error v => .fault (.insertUnreachable v)

/-- The loop of R88 over the bits not yet read, from position `pos`, with `j` bits read, `k` symbols emitted and `last`
the end of the last symbol. `limit` is `some N` in bounded mode. The answer is the symbols still emitted and the final
`last`. -/
def walkBits (limit : Option Nat) (outCap : Nat) (root : PTree) :
    PTree → (j k last : Nat) → List (Except Fault Bool) → Except Stop (List Sym × Nat)
  | _, j, k, last, [] =>
    if limit = some k then .ok ([], last)
    else if limit.isSome then .error (.err .truncatedBitstream (BitVec.ofNat 32 j))
    else .ok ([], last)
  | pos, j, k, last, bit :: bits =>
    if limit = some k then .ok ([], last)
    else
      match bit with
      | .error f => .error (.fault f)
      | .ok b =>
        match child pos b with
        | .empty => .error (.err .invalidCodePath (BitVec.ofNat 32 j))
        | .leaf s =>
          if k = outCap then .error (.err .outputOverflow (BitVec.ofNat 32 j))
          else
            match walkBits limit outCap root root (j + 1) (k + 1) (j + 1) bits with
            | .ok (syms, last) => .ok (s :: syms, last)
            | .error e => .error e
        | .node l r => walkBits limit outCap root (.node l r) (j + 1) k last bits

/-- The end of a successful UNPACK that emitted `syms` (R88). -/
def writeUnpacked (syms : List Sym) (last : Nat) (s : State) : State :=
  finish { s with
    outBuf := Memory.writeAll s.outBuf 0 syms
    outLen := BitVec.ofNat 32 syms.length
    bitCount := BitVec.ofNat 32 last }

/-- UNPACK (R88, and R89 with BOUNDED = 0). -/
def execUnpack (s : State) : Host.Outcome State Fault Refusal :=
  if s.caps.inCap < s.inLen.toNat then .next (raiseErr .lengthOutOfRange s.inLen (failUnpack s))
  else if s.bounded ∧ s.caps.outCap < s.symCount.toNat then .next (raiseErr .outputOverflow s.symCount (failUnpack s))
  else
    let limit := if s.bounded then some s.symCount.toNat else none
    let root := walkRoot s.tree
    match walkBits limit s.caps.outCap root root 0 0 0 (inBits s s.inLen.toNat) with
    | .ok (syms, last) => .next (writeUnpacked syms last s)
    | .error (.err code info) => .next (raiseErr code info (failUnpack s))
    | .error (.fault f) => .fault f

end Sys2Proof.Machine
end

