-- ==== Sys2Proof/Machine/Encoder.lean ====
section
/-! DEFINITION. COUNT, BUILD, GEN and PACK (40_encoder R65 to R78). Numbers are exact naturals narrowed to 32 bits where a
register is written (R65). -/

namespace Sys2Proof.Machine

/-- `F[b] <- F[b] + 1` for every byte in order, from the all-zero table (R66). -/
def tally (bs : List Byte) : Table Word := bs.foldl (fun f b => setEntry f b (entry f b + 1)) (filled 0)

/-- COUNT (R66). -/
def execCount (s : State) : Host.Outcome State Fault Refusal :=
  if s.caps.inCap < s.inLen.toNat then .next (raiseErr .lengthOutOfRange s.inLen (clearFreq s))
  else if s.inLen = 0 then .next (raiseErr .emptyInput 0 (clearFreq s))
  else
    match consumeAll (inOperands s s.inLen.toNat) with
    | .ok bs => .next (finish (setFreq (tally bs) s))
    | .error f => .fault f

/-- A queue element of the tree builder: weight, sequence number, subtree (R67). -/
structure QElem where
  w : Nat
  q : Nat
  t : PTree
deriving DecidableEq, Repr

/-- The order of the queue: least weight first, then least sequence number (R67). -/
def QElem.before (x y : QElem) : Bool := decide (x.w < y.w) || (x.w == y.w && decide (x.q < y.q))

/-- `extractMin` on the queue that holds `e` and the elements of the list: the least element, and the others (R67). -/
def extractMin : QElem → List QElem → QElem × List QElem
  | e, [] => (e, [])
  | e, x :: xs =>
    if x.before e then
      let m := extractMin x xs
      (m.1, e :: m.2)
    else
      let m := extractMin e xs
      (m.1, x :: m.2)

/-- The merge loop of R68 on the queue that holds `e` and the elements of the list, `q` the next sequence number. The
first element extracted becomes the left child (D8). `fuel` is the number of merges left, which is the length of the
list; the two arms that answer without merging a queue of two or more are never reached (log 18). -/
def mergeLoop : (fuel : Nat) → (q : Nat) → QElem → List QElem → PTree
  | _, _, e, [] => e.t
  | 0, _, e, _ :: _ => e.t
  | fuel + 1, q, e, x :: xs =>
    let a := extractMin e (x :: xs)
    match a.2 with
    | [] => a.1.t
    | y :: ys =>
      let b := extractMin y ys
      mergeLoop fuel (q + 1) ⟨a.1.w + b.1.w, q, .node a.1.t b.1.t⟩ b.2

/-- The symbols with FREQ[s] ≠ 0 and their counts, ascending (R68). -/
def presentSyms (f : Table Word) : List (Sym × Word) := (entries f).filter fun e => e.2 != 0

/-- The leaves inserted first: `(FREQ[s], q, Leaf(s))`, numbered from `q` in the order of the list (R67, R68). -/
def leafQueue : (q : Nat) → List (Sym × Word) → List QElem
  | _, [] => []
  | q, (s, n) :: rest => ⟨n.toNat, q, .leaf s⟩ :: leafQueue (q + 1) rest

/-- The tree of a frequency file, `none` when every count is 0 (R68). -/
def buildTree (f : Table Word) : Option PTree :=
  match leafQueue 0 (presentSyms f) with
  | [] => none
  | e :: es => some (mergeLoop es.length (es.length + 1) e es)

/-- BUILD (R68). -/
def execBuild (s : State) : Host.Outcome State Fault Refusal :=
  match buildTree s.freq with
  | none => .next (raiseErr .emptyInput 0 { s with tree := .empty })
  | some t => .next (finish { s with tree := t })

/-- `walk(t, p)` of R72: every leaf of `t` with its path, `p` the path to `t` itself. -/
def leafPaths : PTree → Bits → List (Sym × Bits)
  | .empty, _ => []
  | .leaf s, p => [(s, p)]
  | .node l r, p => leafPaths l (p ++ [false]) ++ leafPaths r (p ++ [true])

/-- The codes GEN assigns, in traversal order; a root leaf gets the code [0] (R70, R72). -/
def assignedCodes : PTree → List (Sym × Bits)
  | .empty => []
  | .leaf s => [(s, [false])]
  | .node l r => leafPaths l [false] ++ leafPaths r [true]

/-- The code table GEN writes (R72). -/
def genTable (t : PTree) : Table Bits := (assignedCodes t).foldl (fun c e => setEntry c e.1 e.2) (filled [])

/-- GEN (R72). -/
def execGen (s : State) : Host.Outcome State Fault Refusal := .next (finish (setCode (genTable s.tree) s))

/-- The bits S of R75, or the first byte that has no code, or the first unspecified one; `i` is the index of the first
operand. -/
def encodeBits (c : Table Bits) (i : Nat) : List Operand → Except Stop Bits
  | [] => .ok []
  | .error f :: _ => .error (.fault f)
  | .ok b :: rest =>
    if entry c b = [] then .error (.err .missingCode (BitVec.ofNat 32 i))
    else
      match encodeBits c (i + 1) rest with
      | .ok bits => .ok (entry c b ++ bits)
      | .error e => .error e

/-- ⌈t / 8⌉. -/
def bytesFor (t : Nat) : Nat := (t + 7) / 8

/-- The packed bytes of the bit list S, padded with 0 to 7 zero bits (R75). -/
def packBits (bits : Bits) : List Byte :=
  let m := bytesFor bits.length
  let p := bits ++ List.replicate (8 * m - bits.length) false
  (List.range m).map (packedByte p)

/-- The end of PACK for the bit list S of `n` symbols (R75). -/
def writePacked (n : Word) (bits : Bits) (s : State) : State :=
  let m := bytesFor bits.length
  if s.caps.outCap < m then raiseErr .outputOverflow (BitVec.ofNat 32 (min m 0xFFFFFFFF)) (failPack s)
  else
    finish { s with
      outBuf := Memory.writeAll s.outBuf 0 (packBits bits)
      outLen := BitVec.ofNat 32 m
      symCount := n
      bitCount := BitVec.ofNat 32 bits.length }

/-- PACK (R75). -/
def execPack (s : State) : Host.Outcome State Fault Refusal :=
  if s.caps.inCap < s.inLen.toNat then .next (raiseErr .lengthOutOfRange s.inLen (failPack s))
  else if s.inLen = 0 then .next (raiseErr .emptyInput 0 (failPack s))
  else
    match encodeBits s.code 0 (inOperands s s.inLen.toNat) with
    | .ok bits => .next (writePacked s.inLen bits s)
    | .error (.err code info) => .next (raiseErr code info (failPack s))
    | .error (.fault f) => .fault f

end Sys2Proof.Machine
end

