-- ==== Sys2Proof/Machine/Flags.lean ====
section
/-! DEFINITION. The STATUS word from its fields (10_state R21) and the CTRL word from BOUNDED (R19). -/

namespace Sys2Proof.Machine

/-- STATUS.BUSY: 1 exactly in BUSY(k) with k > 0 (10_state R36). -/
def isBusy (s : State) : Bool :=
  match s.seq with
  | .idle => false
  | .busy _ _ => true

/-- STATUS: [0] BUSY, [1] DONE, [2] ERROR, [3] VIOL, [7:4] 0, [15:8] LAST_CMD, [23:16] ERR_CODE, [31:24] 0 (R21). -/
def statusWord (s : State) : Word :=
  0#8 ++ s.errCode.num ++ s.lastCmd ++ 0#4 ++ BitVec.ofBool s.viol ++ BitVec.ofBool s.error ++ BitVec.ofBool s.done ++
    BitVec.ofBool (isBusy s)

/-- CTRL: [0] BOUNDED, [31:1] 0 (R19). -/
def ctrlWord (s : State) : Word := 0#31 ++ BitVec.ofBool s.bounded

/-- A host write of `v` to CTRL stores bit 0 and ignores the others (R19, 20_memory R45). -/
def setCtrl (v : Word) (s : State) : State := { s with bounded := v.getLsbD 0 }

/-- A dropped host write while busy sets STATUS.VIOL (R21, 20_memory R50). -/
def setViol (s : State) : State := { s with viol := true }

end Sys2Proof.Machine
end

