-- ==== Sys2Proof/Machine/Port.lean ====
section
/-! DEFINITION. The host port: the address map, what a read of each place returns, what a write does when the block is
idle, and what both do while it is busy (20_memory R41 to R52). Addresses are the spec's offsets (log 19). -/

namespace Sys2Proof.Machine

/-- The registers of 10_state section 2. -/
inductive Reg where
  | id
  | version
  | ctrl
  | cmd
  | status
  | errInfo
  | inLen
  | outLen
  | symCount
  | bitCount
  | txtLen
  | distinct
  | codeNsym
deriving DecidableEq, Repr

/-- The register at a word offset (10_state section 2). -/
def regAt : Nat → Option Reg
  | 0 => some .id
  | 1 => some .version
  | 2 => some .ctrl
  | 3 => some .cmd
  | 4 => some .status
  | 5 => some .errInfo
  | 6 => some .inLen
  | 7 => some .outLen
  | 8 => some .symCount
  | 9 => some .bitCount
  | 10 => some .txtLen
  | 11 => some .distinct
  | 12 => some .codeNsym
  | _ => none

/-- What a word address names (R43). A buffer place holds the index of its lane 0. -/
inductive Place where
  | reg (r : Reg)
  /-- FREQ window entry (R46) -/
  | freq (s : Sym)
  /-- CODE window, word `w` ≤ 8 of entry `s` (R47) -/
  | code (s : Sym) (w : Nat)
  /-- TXT, IN and OUT windows (R48), a word with at least one lane below the capacity -/
  | buf (b : Buffer) (i : Nat)
  /-- a reserved word, an unused word of a CODE entry, or a window word wholly beyond the capacity (R44). Log 11. -/
  | reserved
deriving DecidableEq, Repr

/-- The capacity of a buffer (00_scope R9). -/
def capOf (c : Caps) : Buffer → Nat
  | .inBuf => c.inCap
  | .outBuf => c.outCap
  | .txtBuf => c.txtCap

/-- The place at byte offset `i` of a buffer window (R44, R48). -/
def windowPlace (c : Caps) (b : Buffer) (i : Nat) : Place := if i < capOf c b then .buf b i else .reserved

/-- The place at word offset `k` of the register range: a register, or a reserved word (R43, R44). -/
def regPlace (k : Nat) : Place :=
  match regAt k with
  | some r => .reg r
  | none => .reserved

/-- The address map of R43; bits [1:0] of the address are ignored (R42). -/
def placeOf (c : Caps) (addr : Word) : Place :=
  let a := 4 * (addr.toNat / 4)
  if a < 0x400 then regPlace (a / 4)
  else if a < 0x800 then .freq (BitVec.ofNat 8 ((a - 0x400) / 4))
  else if a < 0x4000 then .reserved
  else if a < 0x8000 then
    let k := (a - 0x4000) / 4
    if k % 16 ≤ 8 then .code (BitVec.ofNat 8 (k / 16)) (k % 16) else .reserved
  else if a < 0x20000 then .reserved
  else if a < 0x40000 then windowPlace c .txtBuf (a - 0x20000)
  else if a < 0x40000000 then .reserved
  else if a < 0x60000000 then windowPlace c .inBuf (a - 0x40000000)
  else if a < 0x80000000 then .reserved
  else if a < 0xA0000000 then windowPlace c .outBuf (a - 0x80000000)
  else .reserved

/-- The contents of a buffer. -/
def bufOf (s : State) : Buffer → Memory
  | .inBuf => s.inBuf
  | .outBuf => s.outBuf
  | .txtBuf => s.txtBuf

/-- The value a read of a register returns while idle (10_state section 2, R45). -/
def readReg (s : State) : Reg → Word
  | .id => 0x48554646
  | .version => 0x00000001
  | .ctrl => ctrlWord s
  | .cmd => 0
  | .status => statusWord s
  | .errInfo => s.errInfo
  | .inLen => s.inLen
  | .outLen => s.outLen
  | .symCount => s.symCount
  | .bitCount => s.bitCount
  | .txtLen => s.txtLen
  | .distinct => s.distinct
  | .codeNsym => s.codeNsym

/-- Word `w` ≤ 8 of the CODE window entry of the code `c` (R47). -/
def codeWord (c : Bits) (w : Nat) : Word :=
  match w with
  | 0 => (BitVec.ofNat 8 c.length).setWidth 32
  | w + 1 => wordOf 32 fun i => c.getD (32 * w + (31 - i)) false

/-- Lane `lane` of a read of buffer bytes from index `i`: the byte, a free value where it is unspecified, 0 beyond the
capacity (R48, 10_state R38). Log 3. -/
def readLane (s : State) (b : Buffer) (i lane : Nat) : Byte :=
  if i + lane < capOf s.caps b then
    match Memory.read (bufOf s b) (i + lane) with
    | some v => v
    | none => Config.freeByte (4 * s.draws + lane)
  else 0

/-- A read of the four lanes from index `i` of a buffer, lane 0 in bits [7:0] (R48). -/
def readBuf (s : State) (b : Buffer) (i : Nat) : Word :=
  readLane s b i 3 ++ readLane s b i 2 ++ readLane s b i 1 ++ readLane s b i 0

/-- The value a host read returns while idle (R43 to R48). -/
def readIdle (s : State) : Place → Word
  | .reg r => readReg s r
  | .freq v => entry s.freq v
  | .code v w => codeWord (entry s.code v) w
  | .buf b i => readBuf s b i
  | .reserved => 0

/-- The value a host read returns while busy: ID, VERSION, CTRL and STATUS are valid, any other address returns a free
value (R50). Log 4. -/
def readBusy (s : State) : Place → Word
  | .reg .id => readReg s .id
  | .reg .version => readReg s .version
  | .reg .ctrl => readReg s .ctrl
  | .reg .status => readReg s .status
  | _ => Config.freeWord s.draws

/-- The value a host read of `addr` returns. -/
def readValue (s : State) (addr : Word) : Word :=
  if isBusy s then readBusy s (placeOf s.caps addr) else readIdle s (placeOf s.caps addr)

/-- A host read: the value goes to the host, and the access counts (R50, R52). -/
def hostRead (addr : Word) (s : State) : Host.Outcome State Fault Refusal :=
  countDown { s with reads := s.reads ++ [readValue s addr] }

/-- Lanes 0 to 3 of `v` into a buffer from index `i`; lanes at or beyond `cap` are ignored (R48). -/
def writeLanes (cap : Nat) (m : Memory) (i : Nat) (v : Word) : Memory :=
  [0, 1, 2, 3].foldl
    (fun m lane => if i + lane < cap then Memory.write m (i + lane) (v.extractLsb' (8 * lane) 8) else m) m

/-- A host write while idle to any place but CMD (R44, R45, R48, 10_state section 2): the read-write registers and the
TXT and IN windows store it, every other place ignores it. -/
def writeIdle (s : State) (p : Place) (v : Word) : State :=
  match p with
  | .reg .ctrl => setCtrl v s
  | .reg .inLen => { s with inLen := v }
  | .reg .symCount => { s with symCount := v }
  | .reg .txtLen => { s with txtLen := v }
  | .buf .inBuf i => { s with inBuf := writeLanes s.caps.inCap s.inBuf i v }
  | .buf .txtBuf i => { s with txtBuf := writeLanes s.caps.txtCap s.txtBuf i v }
  | .buf .outBuf _ => s
  | .reg _ => s
  | .freq _ => s
  | .code _ _ => s
  | .reserved => s

/-- A host write while busy: dropped, and VIOL is set unless the address is reserved (R50). Log 12. -/
def writeBusy (s : State) (p : Place) : State :=
  match p with
  | .reserved => s
  | _ => setViol s

end Sys2Proof.Machine
end

