-- ==== Sys2Proof/Machine/Sequencer.lean ====
section
/-! DEFINITION. The sequencer: a CMD write is decoded, run and published (30_encoding R58, R61; 60_exceptions R96), and the
host's next operation is served (20_memory R41, R50; 30_encoding R64; 70_reset_and_hazards R106). -/

namespace Sys2Proof.Machine

/-- `run decode(w)` on the accepted state `s` (R61, R96): the command's whole effect and its completion. -/
def runWord (w : Word) (s : State) : Host.Outcome State Fault Refusal :=
  match decode w with
  | .ok i => exec i s
  | .error _ => execIllegal w s

/-- Acceptance of the command word `w` with BUSY_LEN = `k` (R96): its effect is computed now and becomes visible at
completion (10_state R36; log 8). -/
def acceptCommand (k : Nat) (w : Word) (s : State) : Host.Outcome State Fault Refusal :=
  publish k (accept w s) (runWord w (accept w s))

/-- A host write of `v` to `addr`. While idle, a write to CMD is a command request (R58) with a fresh draw of BUSY_LEN,
and the access that requests it is not part of the busy window (10_state R36). -/
def hostWrite (addr v : Word) (s : State) : Host.Outcome State Fault Refusal :=
  let p := placeOf s.caps addr
  if isBusy s then countDown (writeBusy s p)
  else
    match p with
    | .reg .cmd => acceptCommand (Config.busyLen s.draws) v (served s)
    | p => .next (served (writeIdle s p v))

/-- The address of STATUS (20_memory R43). -/
def statusAddr : Word := 0x00000010

/-- The address of CMD (20_memory R43). -/
def cmdAddr : Word := 0x0000000C

/-- One turn of the `wait` loop (30_encoding R64): a read of STATUS, and again while bit 0 of the value read is 1. -/
def hostWait (s : State) : Host.Outcome State Fault Refusal :=
  if (readValue s statusAddr).getLsbD 0 then hostRead statusAddr { s with host := .wait :: s.host }
  else hostRead statusAddr s

/-- One host operation, already taken off the list of pending ones. -/
def serve (op : HostOp) (s : State) : Host.Outcome State Fault Refusal :=
  match op with
  | .read addr => hostRead addr s
  | .write addr v => hostWrite addr v s
  | .wait => hostWait s
  | .reset => .next (resetEvent s)

/-- The next pending host operation is served; with none pending the block waits (10_state R17). -/
def serveNext (s : State) : Host.Outcome State Fault Refusal :=
  match s.host with
  | [] => .next s
  | op :: rest => serve op { s with host := rest }

/-- `s` with a CMD write of `w` as the host's next operation and the sequencer idle, so that the write is accepted. -/
def withCommand (w : Word) (s : State) : State :=
  { s with seq := .idle, host := .write cmdAddr w :: s.host }

end Sys2Proof.Machine
end

