-- ==== Sys2Proof/Machine/Step.lean ====
section
/-! DEFINITION. One step: the host's next operation is served. The block fetches nothing (10_state R17): the "program" of
the block is the sequence of CMD writes (20_memory R56), so the place a command comes from is the host's next write. -/

namespace Sys2Proof.Machine

/-- One step of the machine. -/
def step (s : State) : Host.Outcome State Fault Refusal := Sys2Proof.Machine.serveNext s

/-- `s` with the command word of the low `nbits` bits of `w` as the host's next CMD write. -/
def State.withFetchWord (s : State) (nbits w : Nat) : State := Sys2Proof.Machine.withCommand (tableWord nbits w) s

end Sys2Proof.Machine
end

