-- ==== Sys2Proof/Machine/Assembly.lean ====
section
/-! DEFINITION. Host assembly and pseudo-instructions, as the host operations they stand for (30_encoding R63, R64). -/

namespace Sys2Proof.Machine

/-- A name or address of R63. -/
inductive Loc where
  | addr (a : Word)
  | reg (r : Reg)
  /-- `FREQ[s]` -/
  | freq (s : Nat)
  /-- `CODE[s].w` -/
  | code (s w : Nat)
  /-- `IN+k`, `OUT+k`, `TXT+k` -/
  | win (b : Buffer) (k : Nat)
deriving DecidableEq, Repr

/-- A line of host assembly (R63) or a pseudo-instruction (R64). -/
inductive Asm where
  | wr (l : Loc) (v : Word)
  | rd (l : Loc)
  | cmd (i : Instr)
  | wait
  | wrbytes (b : Buffer) (k : Nat) (bytes : List Byte)
  | wrtext (k : Nat) (text : List Char)
  /-- the read, with the program's claim about its value (not a transaction of its own) -/
  | expect (l : Loc) (v : Word)
  | compress
  | decompress
deriving DecidableEq, Repr

/-- The offset of a register (10_state section 2). -/
def regOffset : Reg → Nat
  | .id => 0x000
  | .version => 0x004
  | .ctrl => 0x008
  | .cmd => 0x00C
  | .status => 0x010
  | .errInfo => 0x014
  | .inLen => 0x018
  | .outLen => 0x01C
  | .symCount => 0x020
  | .bitCount => 0x024
  | .txtLen => 0x028
  | .distinct => 0x02C
  | .codeNsym => 0x030

/-- The base of a buffer window (20_memory R43). -/
def windowBase : Buffer → Nat
  | .inBuf => 0x40000000
  | .outBuf => 0x80000000
  | .txtBuf => 0x00020000

/-- The address a name denotes (20_memory R43). -/
def locAddr : Loc → Word
  | .addr a => a
  | .reg r => BitVec.ofNat 32 (regOffset r)
  | .freq s => BitVec.ofNat 32 (0x400 + 4 * s)
  | .code s w => BitVec.ofNat 32 (0x4000 + 0x40 * s + 4 * w)
  | .win b k => BitVec.ofNat 32 (windowBase b + k)

/-- The word of four bytes, the first in bits [7:0] (R64 `wrbytes`). -/
def laneWord (b0 b1 b2 b3 : Byte) : Word := b3 ++ b2 ++ b1 ++ b0

/-- `wrbytes` (R64): one write for each four bytes, a missing byte 0x00. -/
def byteWrites (b : Buffer) : (k : Nat) → List Byte → List HostOp
  | _, [] => []
  | k, [b0] => [.write (locAddr (.win b k)) (laneWord b0 0 0 0)]
  | k, [b0, b1] => [.write (locAddr (.win b k)) (laneWord b0 b1 0 0)]
  | k, [b0, b1, b2] => [.write (locAddr (.win b k)) (laneWord b0 b1 b2 0)]
  | k, b0 :: b1 :: b2 :: b3 :: bs => .write (locAddr (.win b k)) (laneWord b0 b1 b2 b3) :: byteWrites b (k + 4) bs

/-- `cmd` then `wait` for each command. -/
def runAll (is : List Instr) : List HostOp :=
  is.flatMap fun i => [.write (locAddr (.reg .cmd)) (encode i), .wait]

/-- The host operations of a line (R63, R64). -/
def expand : Asm → List HostOp
  | .wr l v => [.write (locAddr l) v]
  | .rd l => [.read (locAddr l)]
  | .cmd i => [.write (locAddr (.reg .cmd)) (encode i)]
  | .wait => [.wait]
  | .wrbytes b k bytes => byteWrites b k bytes
  | .wrtext k text => byteWrites .txtBuf k (text.map fun c => BitVec.ofNat 8 c.toNat)
  | .expect l _ => [.read (locAddr l)]
  | .compress => runAll [.count, .build, .gen, .pack, .serialize]
  | .decompress => runAll [.deserialize, .reconstruct, .unpack]

/-- A host program is a sequence of such lines (R63). -/
def assemble (p : List Asm) : List HostOp := p.flatMap expand

end Sys2Proof.Machine
end

