-- ==== Sys2Proof/Safety.lean ====
section
/-! DEFINITION. The terms claims are stated in: paths of a tree, prefix codes, what stands in a buffer, the queue order of
the tree builder as a relation, the reserved addresses, and the invariant every step keeps. -/

namespace Sys2Proof.Machine

/-- The subtree at a path, bit 0 left and bit 1 right; `empty` where the path leaves the tree (00_scope R11). -/
def subtreeAt : PTree → Bits → PTree
  | t, [] => t
  | .node l r, b :: p => subtreeAt (if b then r else l) p
  | .leaf _, _ :: _ => .empty
  | .empty, _ :: _ => .empty

/-- The symbols at the leaves, from left to right. -/
def leafSyms : PTree → List Sym
  | .empty => []
  | .leaf s => [s]
  | .node l r => leafSyms l ++ leafSyms r

/-- The number of `Node`s. -/
def nodeCount : PTree → Nat
  | .empty => 0
  | .leaf _ => 0
  | .node l r => nodeCount l + nodeCount r + 1

/-- The depth of the deepest leaf or absent child. -/
def height : PTree → Nat
  | .empty => 0
  | .leaf _ => 0
  | .node l r => max (height l) (height r) + 1

/-- A full binary tree: `Empty` does not occur (40_encoder R69 (a)). -/
def isFull : PTree → Bool
  | .empty => false
  | .leaf _ => true
  | .node l r => isFull l && isFull r

/-- Every `Node` has at least one leaf below it (10_state R35). -/
def isTrimmed : PTree → Bool
  | .empty => true
  | .leaf _ => true
  | .node l r => isTrimmed l && isTrimmed r && !(leafSyms l ++ leafSyms r).isEmpty

/-- The non-empty entries form a prefix code (10_state R32). -/
def PrefixFree (c : Table Bits) : Prop :=
  ∀ s t : Sym, s ≠ t → entry c s ≠ [] → entry c t ≠ [] → ¬ entry c s <+: entry c t

/-- The bytes `bs` stand in a buffer from index 0 on. -/
def BytesAt (m : Memory) (bs : List Byte) : Prop := ∀ i, i < bs.length → Memory.read m i = bs[i]?

/-- `bitAt(B, j)` of 20_memory R49, `none` when its byte is unspecified. -/
def bitAt (m : Memory) (j : Nat) : Option Bool := (Memory.read m (j / 8)).map fun b => b.getLsbD (7 - j % 8)

/-- The bits `p` stand in a packed buffer from bit 0 on. -/
def BitsAt (m : Memory) (p : Bits) : Prop := ∀ j, j < p.length → bitAt m j = p[j]?

/-- The queue of 40_encoder R68 before the first merge: the leaves of the present symbols, numbered in ascending symbol
order. -/
def startQueue (f : Table Word) : List QElem :=
  ((allSyms.filter fun s => entry f s ≠ 0).zipIdx).map fun e => ⟨(entry f e.1).toNat, e.2, .leaf e.1⟩

/-- `Merges Q q t`: the merge loop of 40_encoder R68 takes the queue `Q` with next sequence number `q` to the tree `t`. Each
merge removes the two least elements, in the order of R67, and inserts their sum. -/
inductive Merges : List QElem → Nat → PTree → Prop where
  | done (e : QElem) (q : Nat) : Merges [e] q e.t
  | merge (Q : List QElem) (a b : QElem) (R : List QElem) (q : Nat) (t : PTree) (h : Q.Perm (a :: b :: R))
      (ha : ∀ x ∈ b :: R, a.before x = true) (hb : ∀ x ∈ R, b.before x = true)
      (ht : Merges (⟨a.w + b.w, q, .node a.t b.t⟩ :: R) (q + 1) t) : Merges Q q t

/-- `MergesAnyPolicy Q t`: a merge loop that takes the queue `Q` to the tree `t` under some tie policy (40_encoder R67): each
merge removes two elements of least weight, whatever their sequence numbers are. -/
inductive MergesAnyPolicy : List QElem → PTree → Prop where
  | done (e : QElem) : MergesAnyPolicy [e] e.t
  | merge (Q : List QElem) (a b : QElem) (R : List QElem) (q : Nat) (t : PTree) (h : Q.Perm (a :: b :: R))
      (ha : ∀ x ∈ b :: R, a.w ≤ x.w) (hb : ∀ x ∈ R, b.w ≤ x.w)
      (ht : MergesAnyPolicy (⟨a.w + b.w, q, .node a.t b.t⟩ :: R) t) : MergesAnyPolicy Q t

/-- Σ FREQ[s] · depth(s) over the leaves of a tree whose root stands at depth `d` (40_encoder R71). -/
def weightedDepth (f : Table Word) : PTree → (d : Nat) → Nat
  | .empty, _ => 0
  | .leaf s, d => (entry f s).toNat * d
  | .node l r, d => weightedDepth f l (d + 1) + weightedDepth f r (d + 1)

/-- The number whose bits are the list, the first bit the most significant. -/
def bitsValue (acc : Bits) : Nat := acc.foldl (fun n b => 2 * n + if b then 1 else 0) 0

/-- The bits of `bits` go into the accumulator one by one; at 8 bits it is emitted as a byte and reset. The emitted bytes
and the accumulator left (40_encoder R76). -/
def feedBits : (acc bits : Bits) → List Byte × Bits
  | acc, [] => ([], acc)
  | acc, b :: bits =>
    if acc.length = 7 then
      let r := feedBits [] bits
      (BitVec.ofNat 8 (bitsValue (acc ++ [b])) :: r.1, r.2)
    else feedBits (acc ++ [b]) bits

/-- The accumulator formulation of PACK (40_encoder R76): each input byte's code goes into the accumulator; at the end the
bits left are shifted left to fill a byte. -/
def accumulate (c : Table Bits) : (acc : Bits) → List Byte → List Byte
  | acc, [] => if acc = [] then [] else [BitVec.ofNat 8 (bitsValue acc) <<< (8 - acc.length)]
  | acc, b :: bs =>
    let r := feedBits acc (entry c b)
    r.1 ++ accumulate c r.2 bs

/-- The bytes `seen` of a line do not yet decide that it is malformed or complete, so the parser of 41_codec R82 consumes the
next byte: none of the line has been seen, or a part of an escape that has room (`p + 3 < L`: the text has more than three
bytes from the line's start on, `room` in all), or a whole symbol field, or that, the separator and some digits. -/
def Unfinished (room : Nat) (seen : List Byte) : Prop :=
  seen = [] ∨ (3 < room ∧ (seen = [0x5C] ∨ seen = [0x5C, 0x78] ∨ ∃ h, isHex h = true ∧ seen = [0x5C, 0x78, h])) ∨
  ∃ v, seen = symField v ∨ ∃ ds : Bits, seen = symField v ++ [0x20] ++ ds.map digitByte

/-- The byte offset of the word an address names (20_memory R42). -/
def wordOffset (addr : Word) : Nat := 4 * (addr.toNat / 4)

/-- The reserved words of 20_memory R43 and R44: the reserved ranges, the unused words of each CODE entry, and the parts of
the buffer windows beyond the capacity. -/
def IsReserved (c : Caps) (addr : Word) : Prop :=
  let a := wordOffset addr
  (0x34 ≤ a ∧ a < 0x400) ∨ (0x800 ≤ a ∧ a < 0x4000) ∨
  (0x4000 ≤ a ∧ a < 0x8000 ∧ 9 ≤ (a - 0x4000) / 4 % 16) ∨ (0x8000 ≤ a ∧ a < 0x20000) ∨
  (0x20000 ≤ a ∧ a < 0x40000 ∧ c.txtCap ≤ a - 0x20000) ∨ (0x40000 ≤ a ∧ a < 0x40000000) ∨
  (0x40000000 ≤ a ∧ a < 0x60000000 ∧ c.inCap ≤ a - 0x40000000) ∨ (0x60000000 ≤ a ∧ a < 0x80000000) ∨
  (0x80000000 ≤ a ∧ a < 0xA0000000 ∧ c.outCap ≤ a - 0x80000000) ∨ 0xA0000000 ≤ a

/-- The read-only registers and windows of 20_memory R45. -/
def IsReadOnly (c : Caps) (addr : Word) : Prop :=
  let a := wordOffset addr
  a = 0x000 ∨ a = 0x004 ∨ a = 0x010 ∨ a = 0x014 ∨ a = 0x01C ∨ a = 0x024 ∨ a = 0x02C ∨ a = 0x030 ∨
  (0x400 ≤ a ∧ a < 0x800) ∨ (0x4000 ≤ a ∧ a < 0x8000 ∧ (a - 0x4000) / 4 % 16 ≤ 8) ∨
  (0x80000000 ≤ a ∧ a < 0xA0000000 ∧ a - 0x80000000 < c.outCap)

/-- The commands one after another, each accepted and run to completion at once; `none` when one does not complete. -/
def runCommands : List Instr → State → Option State
  | [], s => some s
  | i :: is, s =>
    match exec i (accept (encode i) s) with
    | .next t => runCommands is t
    | .fault _ => none
    | .refused _ => none

/-- The run has ended: the host has issued its last transaction and the sequencer is idle (70_reset_and_hazards R115). A
pending command or fault is no end, and a reset is none either (92_eei_decisions D39). Log 24. -/
def RunEnded (s : State) : Prop := s.host = [] ∧ s.seq = .idle ∧ s.resetLast = false

/-- What one host access leaves of `t`, its own effect, when it is served in BUSY(n + 1) with `p` pending: one access less
is left, and after the last one the command's result is visible, or its fault is reported (10_state R36, 20_memory R50). -/
def busyNext : (n : Nat) → Pending → (t : State) → Host.Outcome State Fault Refusal
  | 0, .block b, t => .next { t with toBlock := b, seq := .idle, draws := t.draws + 1, resetLast := false }
  | 0, .fault f, _ => .fault f
  | m + 1, p, t => .next { t with seq := .busy m p, draws := t.draws + 1, resetLast := false }

/-- An idle block answers a host read of `addr` with `v` and changes nothing else (20_memory R52): the read is logged, it
takes its draw number, and a reset no longer came last. -/
def IdleReads (s : State) (addr v : Word) : Prop :=
  ∀ rest, step { s with seq := .idle, host := .read addr :: rest } =
    .next { s with seq := .idle, host := rest, reads := s.reads ++ [v], draws := s.draws + 1, resetLast := false }

/-- An idle block serves a host write of `v` to `addr` by going from `s` to `t`; the write takes its draw number, and a reset
no longer came last. -/
def IdleWrites (s : State) (addr v : Word) (t : State) : Prop :=
  ∀ rest, step { s with seq := .idle, host := .write addr v :: rest } =
    .next { t with seq := .idle, host := rest, draws := s.draws + 1, resetLast := false }

/-- What holds of the block's visible state, and of the result of a busy command, in every reachable state. -/
structure BlockSound (c : Caps) (b : Block) : Prop where
  inBuf_wf : Memory.wf c.inCap b.inBuf = true
  outBuf_wf : Memory.wf c.outCap b.outBuf = true
  txtBuf_wf : Memory.wf c.txtCap b.txtBuf = true
  /-- every byte below OUT_LEN is specified -/
  out_specified : ∀ i, i < b.outLen.toNat → (Memory.read b.outBuf i).isSome = true
  /-- every count is at most IN_CAP (10_state R30) -/
  freq_le : ∀ s, (entry b.freq s).toNat ≤ c.inCap
  /-- DISTINCT is the number of present symbols (10_state R28) -/
  distinct_eq : b.distinct.toNat = countEntries (· != 0) b.freq
  /-- CODE is a prefix code (10_state R32) -/
  code_prefix : PrefixFree b.code
  /-- a code has at most 255 bits (10_state R31) -/
  code_len : ∀ s, (entry b.code s).length ≤ 255
  /-- CODE_NSYM is the number of symbols with a code (10_state R29) -/
  codeNsym_eq : b.codeNsym.toNat = countEntries (!·.isEmpty) b.code
  /-- each symbol occurs at most once in TREE (10_state R35) -/
  tree_nodup : (leafSyms b.tree).Nodup
  /-- every Node has a leaf below it (10_state R35) -/
  tree_trimmed : isTrimmed b.tree = true
  /-- every leaf is at depth at most 255 (10_state R35) -/
  tree_height : height b.tree ≤ 255
  /-- ERROR is 1 exactly when ERR_CODE is not NONE (60_exceptions R97, R98) -/
  error_iff : b.error = true ↔ b.errCode ≠ .none
  /-- ERROR is reported of a completed command only (10_state R21) -/
  error_done : b.error = true → b.done = true
  /-- ERR_INFO is 0 after a success (10_state R22) -/
  info_zero : b.done = true → b.error = false → b.errInfo = 0

/-- What holds of what is pending over the visible block `b`: it is a completed block over the same IN_BUF and CTRL (20_memory
R50), or the fault of consuming an unspecified byte (60_exceptions R102). -/
def PendingSound (c : Caps) (b : Block) : Pending → Prop
  | .block r => r.done = true ∧ r.inBuf = b.inBuf ∧ r.bounded = b.bounded ∧ BlockSound c r
  | .fault f => ∃ buf i, f = .uninitRead buf i

/-- What holds of the sequencer: while busy, DONE reads 0 (60_exceptions R96); while idle, VIOL is 1 only after a completed
command (10_state R21). -/
def SeqSound (s : State) : Prop :=
  match s.seq with
  | .idle => s.viol = true → s.done = true
  | .busy _ p => s.done = false ∧ PendingSound s.caps s.toBlock p

/-- The invariant of the machine. -/
def Sound (s : State) : Prop := BlockSound s.caps s.toBlock ∧ SeqSound s

end Sys2Proof.Machine
end

