-- ==== Sys2Proof/Certificates/Slice0/Obligations.lean ====
section
/-! DEFINITION. The statements for the provers, from the numbered rules of spec/. -/

open Sys2Proof Sys2Proof.Machine

/-! ## Encoding -/

/-- R61, R60: a word decodes to a command exactly when it is that command's encoding. -/
def Obligations.DecodeMatchesEncode : Prop :=
  ∀ (w : Word) (i : Instr), decode w = .ok i ↔ w = encode i

/-- R60: the opcode table, word by word; every other word is illegal. -/
def Obligations.DecodesTheOpcodeTable : Prop :=
  decode 0x00000000 = .ok .nop ∧ decode 0x00000001 = .ok .count ∧ decode 0x00000002 = .ok .build ∧
  decode 0x00000003 = .ok .gen ∧ decode 0x00000004 = .ok .pack ∧ decode 0x00000005 = .ok .serialize ∧
  decode 0x00000006 = .ok .deserialize ∧ decode 0x00000007 = .ok .reconstruct ∧ decode 0x00000008 = .ok .unpack ∧
  decode 0x0000000F = .ok .clear ∧
  ∀ w : Word, 0x08 < w.toNat → w ≠ 0x0000000F → ∃ r, decode w = .error r

/-- R62, R93: exactly the words with a non-zero RSV field or an unassigned OPCODE are illegal, and such a word completes
with ILLEGAL_COMMAND, ERR_INFO the word and LAST_CMD its low byte, for every BUSY_LEN, changing nothing else but what
acceptance changes. -/
def Obligations.IllegalWordsComplete : Prop :=
  ∀ w : Word,
    let illegal := w.extractLsb' 8 24 ≠ 0 ∨ (0x09 ≤ (w.extractLsb' 0 8).toNat ∧ (w.extractLsb' 0 8).toNat ≤ 0x0E) ∨
      0x10 ≤ (w.extractLsb' 0 8).toNat
    (illegal → ∀ (k : Nat) (s : State), acceptCommand k w s =
      publish k (accept w s) (.next { s with
        seq := .idle, viol := false, lastCmd := w.extractLsb' 0 8, done := true, error := true,
        errCode := .illegalCommand, errInfo := w })) ∧
    (¬ illegal → ∃ i, decode w = .ok i)

/-! ## The sequencer -/

/-- R58, R61, R93, R96: an idle block that is written a word at an address of the word of CMD accepts it, legal or not, with a
fresh draw of BUSY_LEN; when the word decodes to `i`, what it publishes is `exec i` of the accepted state. What acceptance
of an illegal word is, IllegalWordsComplete says. -/
def Obligations.StepRunsDecodedCommand : Prop :=
  ∀ (s : State) (a w : Word) (rest : List HostOp),
    s.seq = .idle → s.host = .write a w :: rest → a.toNat / 4 = 3 →
    let u := { s with host := rest, draws := s.draws + 1, resetLast := false }
    step s = acceptCommand (Config.busyLen s.draws) w u ∧
    ∀ i, decode w = .ok i → step s = publish (Config.busyLen s.draws) (accept w u) (exec i (accept w u))

/-- R96: acceptance clears DONE, ERROR, VIOL and ERR_CODE and stores LAST_CMD; with BUSY_LEN 0 the completed state `t` is
the next state, otherwise the block is busy and keeps `t`'s block for completion; ERR_INFO and every other field keep
their values. A command that faults is accepted and busy in the same way, its fault pending (log 8). -/
def Obligations.AcceptanceWritesStatus : Prop :=
  ∀ (k : Nat) (w : Word) (s : State),
    let u := { s with done := false, error := false, errCode := .none, viol := false, lastCmd := w.extractLsb' 0 8 }
    (∀ t, runWord w u = .next t → acceptCommand 0 w s = .next t ∧
      acceptCommand (k + 1) w s = .next { u with seq := .busy k (.block t.toBlock) }) ∧
    ∀ f, runWord w u = .fault f → acceptCommand 0 w s = .fault f ∧
      acceptCommand (k + 1) w s = .next { u with seq := .busy k (.fault f) }

/-- R97, R98: what `finish()` and `raise Err(code, info)` write; every other field keeps its value. -/
def Obligations.CompletionWritesStatus : Prop :=
  ∀ (s : State) (c : ErrCode) (info : Word),
    finish s = { s with seq := .idle, done := true, error := false, errCode := .none, errInfo := 0 } ∧
    raiseErr c info s = { s with seq := .idle, done := true, error := true, errCode := c, errInfo := info }

/-- R21: the fields of STATUS and the numbers of ERR_CODE (R94). -/
def Obligations.StatusFields : Prop :=
  ∀ s : State,
    ((statusWord s).getLsbD 0 = true ↔ s.seq ≠ .idle) ∧ (statusWord s).getLsbD 1 = s.done ∧
    (statusWord s).getLsbD 2 = s.error ∧ (statusWord s).getLsbD 3 = s.viol ∧ (statusWord s).extractLsb' 4 4 = 0 ∧
    (statusWord s).extractLsb' 8 8 = s.lastCmd ∧ (statusWord s).extractLsb' 24 8 = 0 ∧
    ((statusWord s).extractLsb' 16 8).toNat = (match s.errCode with
      | .none => 0 | .emptyInput => 1 | .missingCode => 2 | .malformedEntry => 3 | .truncatedBitstream => 4
      | .invalidCodePath => 5 | .prefixConflict => 6 | .outputOverflow => 7 | .lengthOutOfRange => 8
      | .illegalCommand => 9)

/-- R36, R50: an access while BUSY(k) counts the window down by one; the access that leaves BUSY(0) completes the command,
and the host sees its whole result, or a pending fault is reported (log 8). A read changes nothing else; ID, VERSION, CTRL and STATUS read as always, and STATUS
shows BUSY. -/
def Obligations.BusyReadCountsDown : Prop :=
  ∀ (s : State) (n : Nat) (p : Pending) (a : Word) (rest : List HostOp),
    s.seq = .busy n p → s.host = .read a :: rest →
    ∃ v : Word, step s = busyNext n p { s with host := rest, reads := s.reads ++ [v] } ∧
      (wordOffset a = 0x000 → v = 0x48554646) ∧ (wordOffset a = 0x004 → v = 0x00000001) ∧
      (wordOffset a = 0x008 → v = if s.bounded then 1 else 0) ∧
      (wordOffset a = 0x010 → v = statusWord s ∧ v.getLsbD 0 = true)

/-- R50, R44: a write while busy is dropped; it sets VIOL, except at a reserved address; and it counts as an access. That it
sets VIOL at a read-only place too is the model's reading (log 12), and so is which window words are reserved (log 11). -/
def Obligations.BusyWriteIsDropped : Prop :=
  ∀ (s : State) (n : Nat) (p : Pending) (a v : Word) (rest : List HostOp),
    s.seq = .busy n p → s.host = .write a v :: rest →
    ∃ viol : Bool, step s = busyNext n p { s with viol := viol, host := rest } ∧
      (IsReserved s.caps a → viol = s.viol) ∧ (¬ IsReserved s.caps a → viol = true)

/-- R64: `wait` reads STATUS; while busy it stays the host's next operation, and once the value read has bit 0 clear the
host goes on. What `busyNext` says of the busy window is written out here. -/
def Obligations.WaitReadsStatus : Prop :=
  ∀ (s : State) (rest : List HostOp), s.host = .wait :: rest →
    let t := { s with reads := s.reads ++ [statusWord s], draws := s.draws + 1, resetLast := false }
    (s.seq = .idle → step s = .next { t with host := rest }) ∧
    (∀ r, s.seq = .busy 0 (.block r) → step s = .next { t with toBlock := r, seq := .idle }) ∧
    (∀ f, s.seq = .busy 0 (.fault f) → step s = .fault f) ∧
    ∀ n p, s.seq = .busy (n + 1) p → step s = .next { t with seq := .busy n p }

/-- R64, R36: from BUSY(n + 1) a `wait` loop ends after n + 2 reads of STATUS, whatever the draw was, and the command's
result is visible; a pending fault is reported after n + 1 reads (log 8). -/
def Obligations.WaitSeesCompletion : Prop :=
  ∀ (n : Nat) (s : State) (rest : List HostOp), s.host = .wait :: rest →
    (∀ r, s.seq = .busy n (.block r) →
      ∃ t, Sys2Proof.core.run (n + 2) s = .next t ∧ t.toBlock = r ∧ t.seq = .idle ∧ t.host = rest ∧ t.viol = s.viol ∧
        t.lastCmd = s.lastCmd ∧ t.caps = s.caps ∧ t.reads.length = s.reads.length + (n + 2)) ∧
    ∀ f, s.seq = .busy n (.fault f) → Sys2Proof.core.run (n + 1) s = .fault f

/-- R106, R40: the reset event gives every piece of the block's state its reset value, also while busy, whatever is pending. It
is the model's choice that the capacities and the model's own fields stay, and that a reset is noted as the last operation
(logs 2, 5, 6, 7, 24). -/
def Obligations.ResetEventRestoresReset : Prop :=
  ∀ (s : State) (rest : List HostOp), s.host = .reset :: rest →
    step s = .next { State.reset with
      caps := s.caps, host := rest, reads := s.reads, draws := s.draws, resetLast := true }

/-- R40: the state after reset. -/
def Obligations.ResetValues : Prop :=
  readReg State.reset .id = 0x48554646 ∧ readReg State.reset .version = 0x00000001 ∧
  readReg State.reset .ctrl = 0x00000001 ∧ readReg State.reset .cmd = 0 ∧ readReg State.reset .status = 0 ∧
  State.reset.errInfo = 0 ∧ State.reset.inLen = 0 ∧ State.reset.outLen = 0 ∧ State.reset.symCount = 0 ∧
  State.reset.bitCount = 0 ∧ State.reset.txtLen = 0 ∧ State.reset.distinct = 0 ∧ State.reset.codeNsym = 0 ∧
  (∀ v, entry State.reset.freq v = 0) ∧ (∀ v, entry State.reset.code v = []) ∧ State.reset.tree = .empty ∧
  State.reset.seq = .idle ∧ ∀ b i, Memory.read (bufOf State.reset b) i = none

/-! ## The host port, idle -/

/-- R18 to R29, R45: what a read of each register returns; CMD reads 0; no read changes anything else (R52). -/
def Obligations.RegisterReads : Prop :=
  ∀ s : State,
    IdleReads s 0x00 0x48554646 ∧ IdleReads s 0x04 0x00000001 ∧ IdleReads s 0x08 (if s.bounded then 1 else 0) ∧
    IdleReads s 0x0C 0 ∧ IdleReads s 0x10 (statusWord { s with seq := .idle }) ∧ IdleReads s 0x14 s.errInfo ∧
    IdleReads s 0x18 s.inLen ∧ IdleReads s 0x1C s.outLen ∧ IdleReads s 0x20 s.symCount ∧ IdleReads s 0x24 s.bitCount ∧
    IdleReads s 0x28 s.txtLen ∧ IdleReads s 0x2C s.distinct ∧ IdleReads s 0x30 s.codeNsym

/-- R19, R23, R25, R27: what a write to each read-write register stores; CTRL stores bit 0 only. -/
def Obligations.RegisterWrites : Prop :=
  ∀ (s : State) (v : Word),
    IdleWrites s 0x08 v { s with bounded := v.getLsbD 0 } ∧ IdleWrites s 0x18 v { s with inLen := v } ∧
    IdleWrites s 0x20 v { s with symCount := v } ∧ IdleWrites s 0x28 v { s with txtLen := v }

/-- R42: two addresses of the same word are the same access, idle or busy, read or write. -/
def Obligations.LowAddressBitsIgnored : Prop :=
  ∀ (s : State) (a v : Word) (rest : List HostOp),
    step { s with host := .read a :: rest } = step { s with host := .read (a &&& 0xFFFFFFFC) :: rest } ∧
    step { s with host := .write a v :: rest } = step { s with host := .write (a &&& 0xFFFFFFFC) v :: rest }

/-- R44, R50: a reserved word reads 0 and ignores a write, while the block is idle; a write to it while busy does not even set
VIOL, and only counts the window down. What it reads while busy is a free value (log 13; nothing is claimed of it). A window word partly below the capacity is not reserved: the model's reading (log 11). -/
def Obligations.ReservedWords : Prop :=
  ∀ (s : State) (a v : Word), IsReserved s.caps a →
    IdleReads s a 0 ∧ IdleWrites s a v s ∧
    ∀ n p rest, step { s with seq := .busy n p, host := .write a v :: rest } =
      busyNext n p { s with seq := .busy n p, host := rest }

/-- R45: a write to a read-only register or window while the block is idle changes nothing; CMD reads 0; CTRL stores bit 0. -/
def Obligations.ReadOnlyWritesIgnored : Prop :=
  ∀ (s : State) (a v : Word),
    (IsReadOnly s.caps a → IdleWrites s a v s) ∧ (wordOffset a = 0x00C → IdleReads s a 0) ∧
    (wordOffset a = 0x008 → IdleWrites s a v { s with bounded := v.getLsbD 0 } ∧
      IdleReads s a (if s.bounded then 1 else 0))

/-- R46: the FREQ window. -/
def Obligations.FreqWindow : Prop :=
  ∀ (s : State) (v : Sym), IdleReads s (BitVec.ofNat 32 (0x400 + 4 * v.toNat)) (entry s.freq v)

/-- R47: the CODE window, for a code of at most 255 bits. -/
def Obligations.CodeWindow : Prop :=
  ∀ (s : State) (v : Sym), (entry s.code v).length ≤ 255 →
    IdleReads s (BitVec.ofNat 32 (0x4000 + 0x40 * v.toNat)) (BitVec.ofNat 32 (entry s.code v).length) ∧
    (∀ w, w < 8 → ∃ x : Word, IdleReads s (BitVec.ofNat 32 (0x4000 + 0x40 * v.toNat + 4 * (1 + w))) x ∧
      ∀ i, i < 32 → x.getLsbD (31 - i) =
        if 32 * w + i < (entry s.code v).length then (entry s.code v)[32 * w + i]! else false) ∧
    (∀ w, 9 ≤ w → w ≤ 15 → IdleReads s (BitVec.ofNat 32 (0x4000 + 0x40 * v.toNat + 4 * w)) 0)

/-- R48, write: each lane of a write to the IN or TXT window that lies below the capacity becomes its byte; every other byte
of the buffer, and all other state, is as before. -/
def Obligations.BufferWindowWrites : Prop :=
  ∀ (s : State) (k : Nat) (v : Word),
    (4 * k < 0x20000000 → ∃ m, IdleWrites s (BitVec.ofNat 32 (0x40000000 + 4 * k)) v { s with inBuf := m } ∧
      ∀ j, Memory.read m j = if 4 * k ≤ j ∧ j < 4 * k + 4 ∧ j < s.caps.inCap then
        some (v.extractLsb' (8 * (j - 4 * k)) 8) else Memory.read s.inBuf j) ∧
    (4 * k < 0x20000 → ∃ m, IdleWrites s (BitVec.ofNat 32 (0x20000 + 4 * k)) v { s with txtBuf := m } ∧
      ∀ j, Memory.read m j = if 4 * k ≤ j ∧ j < 4 * k + 4 ∧ j < s.caps.txtCap then
        some (v.extractLsb' (8 * (j - 4 * k)) 8) else Memory.read s.txtBuf j)

/-- R48, read: lane i of the word at 4·k holds byte 4·k + i, 0 beyond the capacity; where the byte is unspecified the lane is
a free value (nothing is claimed of it). -/
def Obligations.BufferWindowReads : Prop :=
  ∀ (s : State) (b : Buffer) (base cap k : Nat),
    (b, base, cap) ∈ [(.inBuf, 0x40000000, s.caps.inCap), (.txtBuf, 0x20000, s.caps.txtCap),
      (.outBuf, 0x80000000, s.caps.outCap)] → 4 * k < (if b = .txtBuf then 0x20000 else 0x20000000) →
    ∃ x : Word, IdleReads s (BitVec.ofNat 32 (base + 4 * k)) x ∧
      ∀ i, i < 4 →
        (cap ≤ 4 * k + i → x.extractLsb' (8 * i) 8 = 0) ∧
        (∀ v, 4 * k + i < cap → Memory.read (bufOf s b) (4 * k + i) = some v → x.extractLsb' (8 * i) 8 = v)

/-! ## Control commands -/

/-- R91: NOP completes with success and changes nothing else; a CMD write of 0 is a NOP, and its acceptance clears VIOL and
leaves LAST_CMD 0. -/
def Obligations.NopCompletes : Prop :=
  ∀ s : State,
    exec .nop s = .next { s with seq := .idle, done := true, error := false, errCode := .none, errInfo := 0 } ∧
    acceptCommand 0 0x00000000 s = .next { s with
      seq := .idle, done := true, error := false, errCode := .none, errInfo := 0, viol := false, lastCmd := 0x00 }

/-- R92: CLEAR empties every table and zeroes every length and count register; CTRL and the buffers stay; LAST_CMD is 0x0F.
In the state it leaves, BUILD and PACK report EMPTY_INPUT, GEN writes an empty CODE, and UNPACK in bounded mode succeeds with
no output. -/
def Obligations.ClearEmptiesTheWorkingSet : Prop :=
  ∀ s : State, ∃ f c, (∀ v, entry f v = 0) ∧ (∀ v, entry c v = []) ∧
    let t := finish { s with
      freq := f, code := c, tree := .empty, inLen := 0, outLen := 0, symCount := 0, bitCount := 0, txtLen := 0,
      distinct := 0, codeNsym := 0 }
    exec .clear s = .next t ∧
    acceptCommand 0 0x0000000F s = .next { t with viol := false, lastCmd := 0x0F } ∧
    exec .build t = .next (raiseErr .emptyInput 0 t) ∧
    exec .pack t = .next (raiseErr .emptyInput 0 { t with outBuf := [] }) ∧
    (∃ c', exec .gen t = .next (finish { t with code := c' }) ∧ ∀ v, entry c' v = []) ∧
    (s.bounded = true → exec .unpack t = .next (finish t))

/-! ## COUNT -/

/-- R66: COUNT of n bytes, all specified, writes each symbol's number of occurrences and DISTINCT, and nothing else but the
completion. -/
def Obligations.CountTallies : Prop :=
  ∀ (s : State) (bs : List Byte), bs.length = s.inLen.toNat → 0 < bs.length → bs.length ≤ s.caps.inCap →
    BytesAt s.inBuf bs →
    ∃ (f : Table Word) (d : Word), exec .count s = .next (finish { s with freq := f, distinct := d }) ∧
      (∀ v, (entry f v).toNat = bs.count v) ∧ d.toNat = bs.dedup.length

/-- R66: COUNT on a length above IN_CAP, or on no bytes, empties the table and reports the error. -/
def Obligations.CountErrors : Prop :=
  ∀ s : State, ∃ f, (∀ v, entry f v = 0) ∧
    (s.caps.inCap < s.inLen.toNat →
      exec .count s = .next (raiseErr .lengthOutOfRange s.inLen { s with freq := f, distinct := 0 })) ∧
    (s.inLen.toNat = 0 → exec .count s = .next (raiseErr .emptyInput 0 { s with freq := f, distinct := 0 }))

/-! ## BUILD -/

/-- R69: BUILD over n present symbols, n ≥ 1, succeeds with a full tree with each present symbol at exactly one leaf, n
leaves, n − 1 Nodes, 2·n − 1 nodes in all, and every leaf at depth at most n − 1, at least 1 when n ≥ 2; nothing else changes
but the completion. Every tie policy gives such a tree. -/
def Obligations.BuildGivesFullTree : Prop :=
  ∀ (s : State) (n : Nat), n = countEntries (· != 0) s.freq → 1 ≤ n →
    let good : PTree → Prop := fun t =>
      isFull t = true ∧ (leafSyms t).Nodup ∧ (∀ v, v ∈ leafSyms t ↔ entry s.freq v ≠ 0) ∧ (leafSyms t).length = n ∧
      nodeCount t = n - 1 ∧ (leafSyms t).length + nodeCount t = 2 * n - 1 ∧
      ∀ p v, subtreeAt t p = .leaf v → p.length ≤ n - 1 ∧ n - 1 ≤ 255 ∧ (2 ≤ n → 1 ≤ p.length)
    (∃ t, exec .build s = .next (finish { s with tree := t }) ∧ good t) ∧
    ∀ t, MergesAnyPolicy (startQueue s.freq) t → good t

/-- R68, R67: the tree BUILD writes is the merge loop's, from the leaves of the present symbols numbered in ascending
symbol order, each merge taking the two least elements by (weight, sequence number), first extracted left. -/
def Obligations.BuildFollowsQueueOrder : Prop :=
  ∀ s : State, (∃ v, entry s.freq v ≠ 0) →
    ∃ t, exec .build s = .next (finish { s with tree := t }) ∧
      Merges (startQueue s.freq) (startQueue s.freq).length t

/-- R67: BUILD is deterministic: a queue whose sequence numbers are distinct and below the next one is merged to at most
one tree. -/
def Obligations.QueueOrderIsDeterministic : Prop :=
  ∀ (Q : List QElem) (q : Nat) (t u : PTree), (Q.map (·.q)).Nodup → (∀ x ∈ Q, x.q < q) →
    Merges Q q t → Merges Q q u → t = u

/-- R68: BUILD on an all-zero table leaves no tree and reports EMPTY_INPUT. -/
def Obligations.BuildEmptyTable : Prop :=
  ∀ s : State, (∀ v, entry s.freq v = 0) →
    exec .build s = .next (raiseErr .emptyInput 0 { s with tree := .empty })

/-- R70: one present symbol gives the degenerate tree, and GEN then gives it the code [0]. -/
def Obligations.DegenerateTree : Prop :=
  ∀ (s : State) (v : Sym), entry s.freq v ≠ 0 → (∀ u, u ≠ v → entry s.freq u = 0) →
    ∃ t u, exec .build s = .next t ∧ t.tree = .leaf v ∧ exec .gen t = .next u ∧ entry u.code v = [false] ∧
      ∀ x, x ≠ v → entry u.code x = []

/-- R71: under every tie policy the tree has the least Σ FREQ[s] · depth(s) of all full trees with the same leaves; BUILD's
tree is one of them; and it is 0 for the degenerate tree, whose one code, from GEN, has length 1. -/
def Obligations.BuildIsOptimal : Prop :=
  ∀ (s t : State), exec .build s = .next t → t.error = false →
    MergesAnyPolicy (startQueue s.freq) t.tree ∧
    (∀ tr, MergesAnyPolicy (startQueue s.freq) tr → ∀ u, isFull u = true → (leafSyms u).Perm (leafSyms t.tree) →
      weightedDepth s.freq tr 0 ≤ weightedDepth s.freq u 0) ∧
    ∀ v, t.tree = .leaf v → weightedDepth s.freq t.tree 0 = 0 ∧
      ∃ u, exec .gen t = .next u ∧ (entry u.code v).length = 1

/-- R74: after BUILD then GEN a more frequent symbol never has a longer code than a less frequent present one. -/
def Obligations.CodeLengthsFollowFrequency : Prop :=
  ∀ (s t u : State), exec .build s = .next t → t.error = false → exec .gen t = .next u →
    ∀ a b : Sym, (entry s.freq b).toNat < (entry s.freq a).toNat → 0 < (entry s.freq b).toNat →
      (entry u.code a).length ≤ (entry u.code b).length

/-! ## GEN -/

/-- R72: GEN writes, for each leaf, its path as that symbol's code, [0] for a root leaf, no code for any other symbol, and
CODE_NSYM; nothing else changes but the completion. -/
def Obligations.GenAssignsPaths : Prop :=
  ∀ s : State, (leafSyms s.tree).Nodup →
    ∃ (c : Table Bits) (k : Word), exec .gen s = .next (finish { s with code := c, codeNsym := k }) ∧
      (∀ v p, entry c v = p ∧ p ≠ [] ↔ subtreeAt (walkRoot s.tree) p = .leaf v) ∧
      k.toNat = (leafSyms s.tree).length

/-- R73: after GEN the codes form a prefix code. -/
def Obligations.GenGivesPrefixCode : Prop :=
  ∀ s t : State, (leafSyms s.tree).Nodup → exec .gen s = .next t → PrefixFree t.code

/-! ## PACK -/

/-- R75: PACK of n bytes that all have a code, when the packed bytes fit, writes the codes' bits in order, most significant
bit first, zero padding, OUT_LEN, SYM_COUNT and BIT_COUNT; the other bytes of OUT_BUF and all other state stay. -/
def Obligations.PackEmitsCodes : Prop :=
  ∀ (s : State) (bs : List Byte) (S : Bits), bs.length = s.inLen.toNat → 0 < bs.length → bs.length ≤ s.caps.inCap →
    BytesAt s.inBuf bs → (∀ b ∈ bs, entry s.code b ≠ []) → S = bs.flatMap (entry s.code) →
    (S.length + 7) / 8 ≤ s.caps.outCap →
    ∃ m, exec .pack s = .next (finish { s with
        outBuf := m, outLen := BitVec.ofNat 32 ((S.length + 7) / 8), symCount := s.inLen,
        bitCount := BitVec.ofNat 32 S.length }) ∧
      BitsAt m S ∧ (∀ j, S.length ≤ j → j < 8 * ((S.length + 7) / 8) → bitAt m j = some false) ∧
      ∀ k, (S.length + 7) / 8 ≤ k → Memory.read m k = Memory.read s.outBuf k

/-- R75: the errors of PACK in their order: the length, no input, the first byte without a code, the packed bytes do not
fit. -/
def Obligations.PackErrors : Prop :=
  ∀ s : State,
    let failed := { s with outBuf := [], outLen := 0, symCount := 0, bitCount := 0 }
    (s.caps.inCap < s.inLen.toNat → exec .pack s = .next (raiseErr .lengthOutOfRange s.inLen failed)) ∧
    (s.inLen.toNat = 0 → exec .pack s = .next (raiseErr .emptyInput 0 failed)) ∧
    ∀ bs : List Byte, 0 < s.inLen.toNat → s.inLen.toNat ≤ s.caps.inCap → BytesAt s.inBuf bs →
      (∀ i, bs.length = i + 1 → i < s.inLen.toNat → (∀ b ∈ bs.take i, entry s.code b ≠ []) →
        (∀ b, bs[i]? = some b → entry s.code b = []) →
        exec .pack s = .next (raiseErr .missingCode (BitVec.ofNat 32 i) failed)) ∧
      (bs.length = s.inLen.toNat → (∀ b ∈ bs, entry s.code b ≠ []) →
        ∀ m, m = ((bs.flatMap (entry s.code)).length + 7) / 8 → s.caps.outCap < m →
        exec .pack s = .next (raiseErr .outputOverflow (BitVec.ofNat 32 (min m 0xFFFFFFFF)) failed))

/-- R76: a successful PACK leaves in OUT_BUF the bytes of the accumulator formulation, and no other number of bytes. -/
def Obligations.PackMatchesAccumulator : Prop :=
  ∀ (s t : State) (bs : List Byte), exec .pack s = .next t → t.error = false → bs.length = s.inLen.toNat →
    BytesAt s.inBuf bs →
    t.outLen.toNat = (accumulate s.code [] bs).length ∧ BytesAt t.outBuf (accumulate s.code [] bs)

/-- R78: PACK's result is a function of IN_LEN, the bytes below it, and CODE (for given capacities and OUT_BUF). -/
def Obligations.PackIsAFunctionOfItsOperands : Prop :=
  ∀ s u : State, s.inLen = u.inLen → s.code = u.code → s.caps = u.caps →
    (∀ i, i < s.inLen.toNat → Memory.read s.inBuf i = Memory.read u.inBuf i) →
    (∀ t, exec .pack s = .next t → ∃ t', exec .pack u = .next t' ∧ t'.outLen = t.outLen ∧ t'.symCount = t.symCount ∧
      t'.bitCount = t.bitCount ∧ t'.errCode = t.errCode ∧ t'.errInfo = t.errInfo ∧
      ∀ k, k < t.outLen.toNat → Memory.read t'.outBuf k = Memory.read t.outBuf k) ∧
    ∀ f, exec .pack s = .fault f → exec .pack u = .fault f

/-! ## SERIALIZE and DESERIALIZE -/

/-- R80, R79: SERIALIZE writes, in ascending symbol order, the line of every symbol that has a code, and TXT_LEN; the other
bytes of TXT_BUF and all other state stay. -/
def Obligations.SerializeWritesText : Prop :=
  ∀ s : State, (∀ v, (entry s.code v).length ≤ 255) →
    let field : Sym → List Byte := fun v =>
      if 0x21 ≤ v.toNat ∧ v.toNat ≤ 0x7E ∧ v.toNat ≠ 0x5C then [v]
      else
        let hex : Nat → Byte := fun d => if d ≤ 9 then BitVec.ofNat 8 (0x30 + d) else BitVec.ofNat 8 (0x41 + (d - 10))
        [0x5C, 0x78, hex (v.toNat / 16), hex (v.toNat % 16)]
    let text := (allSyms.filter fun v => entry s.code v ≠ []).flatMap fun v =>
      field v ++ [0x20] ++ (entry s.code v).map (fun b => if b then 0x31 else 0x30) ++ [0x0A]
    ∃ m, exec .serialize s = .next (finish { s with txtBuf := m, txtLen := BitVec.ofNat 32 text.length }) ∧
      text.length ≤ 66816 ∧ BytesAt m text ∧ ∀ k, text.length ≤ k → Memory.read m k = Memory.read s.txtBuf k

/-- R82: DESERIALIZE of a text that is one line per listed symbol, in any order, no symbol twice, codes of 1 to 255 bits
that form a prefix code, writes exactly that table and CODE_NSYM; nothing else changes but the completion. -/
def Obligations.DeserializeReadsLines : Prop :=
  ∀ (s : State) (lines : List (Sym × Bits)),
    (lines.map (·.1)).Nodup → (∀ l ∈ lines, 1 ≤ l.2.length ∧ l.2.length ≤ 255) →
    (∀ l ∈ lines, ∀ l' ∈ lines, l.1 ≠ l'.1 → ¬ l.2 <+: l'.2) →
    s.txtLen.toNat = (lines.flatMap fun l => tableLine l.1 l.2).length → s.txtLen.toNat ≤ s.caps.txtCap →
    BytesAt s.txtBuf (lines.flatMap fun l => tableLine l.1 l.2) →
    ∃ c, exec .deserialize s = .next (finish { s with code := c, codeNsym := BitVec.ofNat 32 lines.length }) ∧
      (∀ l ∈ lines, entry c l.1 = l.2) ∧ ∀ v, v ∉ lines.map (·.1) → entry c v = []

/-- R82, R83: a text of well-formed lines with distinct symbols whose codes do not form a prefix code is rejected with the
least symbol in a conflict, and CODE is emptied. -/
def Obligations.DeserializePrefixConflict : Prop :=
  ∀ (s : State) (lines : List (Sym × Bits)) (v : Sym),
    (lines.map (·.1)).Nodup → (∀ l ∈ lines, 1 ≤ l.2.length ∧ l.2.length ≤ 255) →
    s.txtLen.toNat = (lines.flatMap fun l => tableLine l.1 l.2).length → s.txtLen.toNat ≤ s.caps.txtCap →
    BytesAt s.txtBuf (lines.flatMap fun l => tableLine l.1 l.2) →
    let conflicts : Sym → Prop := fun u => ∃ l ∈ lines, ∃ l' ∈ lines, l.1 = u ∧ l'.1 ≠ u ∧ (l.2 <+: l'.2 ∨ l'.2 <+: l.2)
    conflicts v → (∀ u, u.toNat < v.toNat → ¬ conflicts u) →
    ∃ c, exec .deserialize s = .next (raiseErr .prefixConflict (v.setWidth 32) { s with code := c, codeNsym := 0 }) ∧
      ∀ u, entry c u = []

/-- R82, R79: the errors of DESERIALIZE before the prefix check. A length above TXT_CAP is reported first. Then, after some
well-formed lines with distinct symbols, text that does not begin with a well-formed line of a new symbol (it matches no line
of R79, or the line repeats a symbol) is malformed, and ERR_INFO is that line's index. That is so as soon as one byte of the line decides it,
whatever the bytes after it are, unspecified ones among them. CODE is emptied. -/
def Obligations.DeserializeErrors : Prop :=
  ∀ s : State, ∃ c, (∀ v, entry c v = []) ∧
    let failed := { s with code := c, codeNsym := 0 }
    (s.caps.txtCap < s.txtLen.toNat → exec .deserialize s = .next (raiseErr .lengthOutOfRange s.txtLen failed)) ∧
    ∀ lines : List (Sym × Bits), (lines.map (·.1)).Nodup → (∀ l ∈ lines, 1 ≤ l.2.length ∧ l.2.length ≤ 255) →
      s.txtLen.toNat ≤ s.caps.txtCap →
      let text := lines.flatMap fun l => tableLine l.1 l.2
      let malformed := exec .deserialize s = .next (raiseErr .malformedEntry (BitVec.ofNat 32 lines.length) failed)
      (∀ bad : List Byte, text.length + bad.length = s.txtLen.toNat → BytesAt s.txtBuf (text ++ bad) → bad ≠ [] →
        (∀ v c rest, 1 ≤ c.length → c.length ≤ 255 → bad = tableLine v c ++ rest → v ∈ lines.map (·.1)) → malformed) ∧
      ∀ (seen : List Byte) (x : Byte), text.length + seen.length < s.txtLen.toNat →
        BytesAt s.txtBuf (text ++ seen ++ [x]) → Unfinished (s.txtLen.toNat - text.length) seen →
        ¬ Unfinished (s.txtLen.toNat - text.length) (seen ++ [x]) →
        (∀ v c, 1 ≤ c.length → c.length ≤ 255 → seen ++ [x] = tableLine v c → v ∈ lines.map (·.1)) → malformed

/-- R84: (a) for every prefix-free CODE with codes of at most 255 bits, SERIALIZE then DESERIALIZE succeeds and restores CODE
and writes its number of symbols to CODE_NSYM; (b) for every text DESERIALIZE accepts, SERIALIZE reproduces the text with its
lines sorted in ascending symbol order, and the text itself exactly when they were. -/
def Obligations.SerializeRoundTrip : Prop :=
  (∀ s t : State, PrefixFree s.code → (∀ v, (entry s.code v).length ≤ 255) → exec .serialize s = .next t →
    ∃ u, exec .deserialize t = .next u ∧ u.error = false ∧ u.code = s.code ∧
      u.codeNsym.toNat = countEntries (!·.isEmpty) s.code) ∧
  ∀ s t u : State, exec .deserialize s = .next t → t.error = false → exec .serialize t = .next u →
    ∃ lines sorted : List (Sym × Bits),
      s.txtLen.toNat = (lines.flatMap fun l => tableLine l.1 l.2).length ∧
      BytesAt s.txtBuf (lines.flatMap fun l => tableLine l.1 l.2) ∧
      sorted.Perm lines ∧ sorted.Pairwise (fun a b => a.1.toNat < b.1.toNat) ∧
      u.txtLen.toNat = (sorted.flatMap fun l => tableLine l.1 l.2).length ∧
      BytesAt u.txtBuf (sorted.flatMap fun l => tableLine l.1 l.2) ∧
      ((∀ k, k < s.txtLen.toNat → Memory.read u.txtBuf k = Memory.read s.txtBuf k) ↔
        lines.Pairwise (fun a b => a.1.toNat < b.1.toNat))

/-! ## RECONSTRUCT -/

/-- R85: for a prefix-free CODE, RECONSTRUCT writes the tree whose leaf at a path is the symbol with that code, and that has a
Node exactly at the proper prefixes of codes; nothing else changes but the completion. -/
def Obligations.ReconstructBuildsTrie : Prop :=
  ∀ s : State, PrefixFree s.code →
    ∃ t, exec .reconstruct s = .next (finish { s with tree := t }) ∧
      (∀ p v, subtreeAt t p = .leaf v ↔ entry s.code v = p ∧ p ≠ []) ∧
      ∀ p, (∃ l r, subtreeAt t p = .node l r) ↔ ∃ v, p <+: entry s.code v ∧ p ≠ entry s.code v

/-- R86 (a): RECONSTRUCT then GEN leaves a prefix-free CODE unchanged. -/
def Obligations.GenInvertsReconstruct : Prop :=
  ∀ s t u : State, PrefixFree s.code → exec .reconstruct s = .next t → exec .gen t = .next u → u.code = s.code

/-- R86 (b), (c): GEN then RECONSTRUCT writes back a full tree with two or more leaves exactly, and gives a root leaf its one
Node. -/
def Obligations.ReconstructInvertsGen : Prop :=
  ∀ s t : State, isFull s.tree = true → (leafSyms s.tree).Nodup → exec .gen s = .next t →
    ∃ u, exec .reconstruct t = .next u ∧
      u.tree = (match s.tree with | .leaf v => .node (.leaf v) .empty | tr => tr)

/-! ## UNPACK -/

/-- R88, bounded: when the first bits of IN_BUF are the paths of N = SYM_COUNT symbols, UNPACK writes those symbols, OUT_LEN
and BIT_COUNT; the bits after them are not read; the other bytes of OUT_BUF and all other state stay. -/
def Obligations.UnpackBounded : Prop :=
  ∀ (s : State) (syms : List Sym) (path : Sym → Bits), s.bounded = true → s.inLen.toNat ≤ s.caps.inCap →
    syms.length = s.symCount.toNat → syms.length ≤ s.caps.outCap →
    (∀ v ∈ syms, subtreeAt (walkRoot s.tree) (path v) = .leaf v) →
    BitsAt s.inBuf (syms.flatMap path) → (syms.flatMap path).length ≤ 8 * s.inLen.toNat →
    ∃ m, exec .unpack s = .next (finish { s with
        outBuf := m, outLen := s.symCount, bitCount := BitVec.ofNat 32 (syms.flatMap path).length }) ∧
      BytesAt m syms ∧ ∀ k, syms.length ≤ k → Memory.read m k = Memory.read s.outBuf k

/-- R89, legacy: when all 8·IN_LEN bits are the paths of some symbols and then a partial path, UNPACK writes all those
symbols, whatever SYM_COUNT is, and drops the partial path. -/
def Obligations.UnpackLegacy : Prop :=
  ∀ (s : State) (syms : List Sym) (path : Sym → Bits) (tail : Bits), s.bounded = false →
    s.inLen.toNat ≤ s.caps.inCap → syms.length ≤ s.caps.outCap →
    (∀ v ∈ syms, subtreeAt (walkRoot s.tree) (path v) = .leaf v) →
    (∃ l r, subtreeAt (walkRoot s.tree) tail = .node l r) →
    BitsAt s.inBuf (syms.flatMap path ++ tail) → (syms.flatMap path ++ tail).length = 8 * s.inLen.toNat →
    ∃ m, exec .unpack s = .next (finish { s with
        outBuf := m, outLen := BitVec.ofNat 32 syms.length,
        bitCount := BitVec.ofNat 32 (syms.flatMap path).length }) ∧
      BytesAt m syms ∧ ∀ k, syms.length ≤ k → Memory.read m k = Memory.read s.outBuf k

/-- R88: the errors of UNPACK. The two length checks come first; then, after the paths of some symbols, a bit into an absent
child, the end of the bits in bounded mode, or in legacy mode one symbol more than OUT_CAP. -/
def Obligations.UnpackErrors : Prop :=
  ∀ s : State,
    let failed := { s with outBuf := [], outLen := 0, bitCount := 0 }
    (s.caps.inCap < s.inLen.toNat → exec .unpack s = .next (raiseErr .lengthOutOfRange s.inLen failed)) ∧
    (s.inLen.toNat ≤ s.caps.inCap → s.bounded = true → s.caps.outCap < s.symCount.toNat →
      exec .unpack s = .next (raiseErr .outputOverflow s.symCount failed)) ∧
    ∀ (syms : List Sym) (path : Sym → Bits) (tail : Bits), s.inLen.toNat ≤ s.caps.inCap →
      (s.bounded = true → s.symCount.toNat ≤ s.caps.outCap ∧ syms.length < s.symCount.toNat) →
      syms.length ≤ s.caps.outCap → (∀ v ∈ syms, subtreeAt (walkRoot s.tree) (path v) = .leaf v) →
      (∃ l r, subtreeAt (walkRoot s.tree) tail = .node l r) →
      (∀ b : Bool, BitsAt s.inBuf (syms.flatMap path ++ tail ++ [b]) →
        (syms.flatMap path ++ tail).length < 8 * s.inLen.toNat →
        (subtreeAt (walkRoot s.tree) (tail ++ [b]) = .empty →
          exec .unpack s = .next (raiseErr .invalidCodePath
            (BitVec.ofNat 32 (syms.flatMap path ++ tail).length) failed)) ∧
        (∀ v, s.bounded = false → syms.length = s.caps.outCap →
          subtreeAt (walkRoot s.tree) (tail ++ [b]) = .leaf v →
          exec .unpack s = .next (raiseErr .outputOverflow
            (BitVec.ofNat 32 (syms.flatMap path ++ tail).length) failed))) ∧
      (s.bounded = true → BitsAt s.inBuf (syms.flatMap path ++ tail) →
        (syms.flatMap path ++ tail).length = 8 * s.inLen.toNat →
        exec .unpack s = .next (raiseErr .truncatedBitstream (BitVec.ofNat 32 (8 * s.inLen.toNat)) failed))

/-! ## All commands -/

/-- R39: what each command may write. CTRL, IN_BUF, VIOL, LAST_CMD, the capacities and the host's own fields are never
written; every completion sets DONE and leaves the sequencer idle. -/
def Obligations.CommandsWriteOnlyTheirResults : Prop :=
  ∀ (i : Instr) (s t : State), exec i s = .next t →
    t.seq = .idle ∧ t.done = true ∧ t.bounded = s.bounded ∧ t.inBuf = s.inBuf ∧ t.viol = s.viol ∧
    t.lastCmd = s.lastCmd ∧ t.caps = s.caps ∧ t.host = s.host ∧ t.reads = s.reads ∧ t.draws = s.draws ∧
    t.resetLast = s.resetLast ∧
    (i ∉ [.clear] → t.inLen = s.inLen) ∧
    (i ∉ [.count, .clear] → t.freq = s.freq ∧ t.distinct = s.distinct) ∧
    (i ∉ [.build, .reconstruct, .clear] → t.tree = s.tree) ∧
    (i ∉ [.gen, .deserialize, .clear] → t.code = s.code ∧ t.codeNsym = s.codeNsym) ∧
    (i ∉ [.pack, .unpack] → t.outBuf = s.outBuf) ∧
    (i ∉ [.pack, .unpack, .clear] → t.outLen = s.outLen ∧ t.bitCount = s.bitCount) ∧
    (i ∉ [.pack, .clear] → t.symCount = s.symCount) ∧
    (i ∉ [.serialize] → t.txtBuf = s.txtBuf) ∧
    (i ∉ [.serialize, .clear] → t.txtLen = s.txtLen)

/-- R94: each error code is reported by the commands of its row only; GEN, SERIALIZE, RECONSTRUCT, NOP and CLEAR report no
error; ILLEGAL_COMMAND is reported by no command; ERR_INFO is 0 after a success. -/
def Obligations.ErrorCodesByCommand : Prop :=
  ∀ (i : Instr) (s t : State), exec i s = .next t →
    (t.error = true ↔ t.errCode ≠ .none) ∧ (t.errCode = .none → t.errInfo = 0) ∧
    (t.errCode = .emptyInput → i ∈ [.count, .build, .pack]) ∧ (t.errCode = .missingCode → i = .pack) ∧
    (t.errCode = .malformedEntry → i = .deserialize) ∧ (t.errCode = .truncatedBitstream → i = .unpack) ∧
    (t.errCode = .invalidCodePath → i = .unpack) ∧ (t.errCode = .prefixConflict → i = .deserialize) ∧
    (t.errCode = .outputOverflow → i ∈ [.pack, .unpack]) ∧
    (t.errCode = .lengthOutOfRange → i ∈ [.count, .pack, .unpack, .deserialize]) ∧ t.errCode ≠ .illegalCommand

/-- R99: a failed command leaves its result empty, or unspecified with length 0. -/
def Obligations.FailedCommandsLeaveNoResult : Prop :=
  ∀ (i : Instr) (s t : State), exec i s = .next t → t.error = true →
    (i = .count → (∀ v, entry t.freq v = 0) ∧ t.distinct = 0) ∧ (i = .build → t.tree = .empty) ∧
    (i = .deserialize → (∀ v, entry t.code v = []) ∧ t.codeNsym = 0) ∧
    (i = .pack → (∀ k, Memory.read t.outBuf k = none) ∧ t.outLen = 0 ∧ t.symCount = 0 ∧ t.bitCount = 0) ∧
    (i = .unpack → (∀ k, Memory.read t.outBuf k = none) ∧ t.outLen = 0 ∧ t.bitCount = 0)

/-- R38, R53: a command faults `UninitRead` only on an unspecified byte of its operand range: COUNT, PACK and UNPACK below
IN_LEN of IN_BUF, DESERIALIZE below TXT_LEN of TXT_BUF; and COUNT does so at the first unspecified byte. Which bytes of the
range the others consume, UninitReadAtFirstConsumedByte says. -/
def Obligations.UninitReadOnlyOfOperands : Prop :=
  (∀ (i : Instr) (s : State) (b : Buffer) (k : Nat), exec i s = .fault (.uninitRead b k) →
    (b = .inBuf ∧ i ∈ [.count, .pack, .unpack] ∧ k < s.inLen.toNat ∧ Memory.read s.inBuf k = none) ∨
    (b = .txtBuf ∧ i = .deserialize ∧ k < s.txtLen.toNat ∧ Memory.read s.txtBuf k = none)) ∧
  ∀ (s : State) (k : Nat), s.inLen.toNat ≤ s.caps.inCap → k < s.inLen.toNat →
    (∀ j, j < k → (Memory.read s.inBuf j).isSome = true) → Memory.read s.inBuf k = none →
    exec .count s = .fault (.uninitRead .inBuf k)

/-! ## The invariant and the headline results -/

/-- The state after reset meets the invariant (R40, R32, R35). -/
def Obligations.ResetIsSound : Prop := Sound State.reset

/-- R32, R35, R29, R30 and the others named in `Sound`: every step keeps the invariant, whatever the host does. That the
buffers keep their canonical form is about the model's own representation (log 23). -/
def Obligations.StepKeepsSound : Prop :=
  ∀ s t : State, Sound s → step s = .next t → Sound t

/-- R13, R85: from a state that meets the invariant a step never meets an unreachable case of `insert`; the only fault is
`UninitRead`, and nothing is refused. -/
def Obligations.OnlyUninitReadFaults : Prop :=
  ∀ s : State, Sound s → (∃ t, step s = .next t) ∨ ∃ b k, step s = .fault (.uninitRead b k)

/-- R64, R36, R96, R109, R115: for every draw of BUSY_LEN, a list of `cmd i; wait` run by the host leaves what the commands
leave when each is run to completion at once, and the host goes on after them; the run has ended when nothing follows (with no command at all, only if no reset came last, log 24). -/
def Obligations.CommandSequencesRun : Prop :=
  ∀ (is : List Instr) (s t : State) (rest : List HostOp), s.seq = .idle → s.host = runAll is ++ rest →
    runCommands is s = some t →
    ∃ n u, Sys2Proof.core.run n s = .next u ∧ u.toBlock = t.toBlock ∧ u.seq = .idle ∧ u.viol = t.viol ∧
      u.lastCmd = t.lastCmd ∧ u.caps = s.caps ∧ u.host = rest ∧
      (rest = [] → is ≠ [] ∨ s.resetLast = false → RunEnded u)

/-- R90: for every buffer B of at least one byte that fits IN_BUF and OUT_BUF, COUNT, BUILD, GEN and PACK succeed, the packed
form is not longer than B, and when the packed bytes are then put into IN_BUF, UNPACK in bounded mode gives back B: after
RECONSTRUCT, after SERIALIZE, DESERIALIZE and RECONSTRUCT, and after SERIALIZE, CLEAR, the host's writes of the three
lengths, DESERIALIZE and RECONSTRUCT. -/
def Obligations.CompressDecompressRoundTrip : Prop :=
  ∀ (s : State) (B : List Byte), s.bounded = true → B.length = s.inLen.toNat → 0 < B.length →
    B.length ≤ s.caps.inCap → B.length ≤ s.caps.outCap → BytesAt s.inBuf B →
    ∃ s1 s2 s3 s4, exec .count s = .next s1 ∧ s1.error = false ∧ exec .build s1 = .next s2 ∧ s2.error = false ∧
      exec .gen s2 = .next s3 ∧ s3.error = false ∧ exec .pack s3 = .next s4 ∧ s4.error = false ∧
      s4.outLen.toNat ≤ B.length ∧
      let unpacks : State → Prop := fun s5 =>
        ∃ s6 s7, exec .reconstruct s5 = .next s6 ∧ s6.error = false ∧ exec .unpack s6 = .next s7 ∧ s7.error = false ∧
          s7.outLen.toNat = B.length ∧ BytesAt s7.outBuf B ∧ s7.bitCount = s4.bitCount
      ∀ m : Memory, (∀ k, k < s4.outLen.toNat → Memory.read m k = Memory.read s4.outBuf k) →
        unpacks { s4 with inBuf := m, inLen := s4.outLen } ∧
        ∃ t1 t2 t3 t4, exec .serialize s4 = .next t1 ∧ t1.error = false ∧
          exec .deserialize { t1 with inBuf := m, inLen := s4.outLen } = .next t2 ∧ t2.error = false ∧ unpacks t2 ∧
          exec .clear t1 = .next t3 ∧ t3.error = false ∧
          exec .deserialize { t3 with inBuf := m, inLen := s4.outLen, txtLen := t1.txtLen, symCount := s4.symCount } =
            .next t4 ∧ t4.error = false ∧ unpacks t4

/-! ## Unspecified bytes -/

/-- R38, R66, R75, R82, R88, R102: each command that reads a buffer faults `UninitRead` at byte k exactly when it consumes byte
k and that is unspecified. COUNT consumes all bytes in order. PACK consumes them up to the first that has no code.
DESERIALIZE consumes the bytes of its lines up to the first that decides that a line is malformed. UNPACK consumes byte k when
the walk over the bits before it (paths of emitted symbols, then a partial path) has not ended. -/
def Obligations.UninitReadAtFirstConsumedByte : Prop :=
  ∀ (s : State) (k : Nat),
    (exec .count s = .fault (.uninitRead .inBuf k) ↔
      s.inLen.toNat ≤ s.caps.inCap ∧ k < s.inLen.toNat ∧ Memory.read s.inBuf k = none ∧
      ∀ j, j < k → (Memory.read s.inBuf j).isSome = true) ∧
    (exec .pack s = .fault (.uninitRead .inBuf k) ↔
      s.inLen.toNat ≤ s.caps.inCap ∧ k < s.inLen.toNat ∧ Memory.read s.inBuf k = none ∧
      ∀ j, j < k → ∃ b, Memory.read s.inBuf j = some b ∧ entry s.code b ≠ []) ∧
    (exec .deserialize s = .fault (.uninitRead .txtBuf k) ↔
      s.txtLen.toNat ≤ s.caps.txtCap ∧ k < s.txtLen.toNat ∧ Memory.read s.txtBuf k = none ∧
      ∃ (lines : List (Sym × Bits)) (seen : List Byte), (lines.map (·.1)).Nodup ∧
        (∀ l ∈ lines, 1 ≤ l.2.length ∧ l.2.length ≤ 255) ∧
        let text := lines.flatMap fun l => tableLine l.1 l.2
        BytesAt s.txtBuf (text ++ seen) ∧ text.length + seen.length = k ∧
        Unfinished (s.txtLen.toNat - text.length) seen) ∧
    (exec .unpack s = .fault (.uninitRead .inBuf k) ↔
      s.inLen.toNat ≤ s.caps.inCap ∧ k < s.inLen.toNat ∧ Memory.read s.inBuf k = none ∧
      (s.bounded = true → s.symCount.toNat ≤ s.caps.outCap) ∧
      ∃ (paths : List Bits) (tail : Bits), BitsAt s.inBuf (paths.flatten ++ tail) ∧
        (paths.flatten ++ tail).length = 8 * k ∧ (∀ p ∈ paths, ∃ v, subtreeAt (walkRoot s.tree) p = .leaf v) ∧
        (∃ l r, subtreeAt (walkRoot s.tree) tail = .node l r) ∧ paths.length ≤ s.caps.outCap ∧
        (s.bounded = true → paths.length < s.symCount.toNat))
end

