-- ==== Sys2Proof/Laws/Memory.lean ====
section
/-! SUPPORT. The laws of buffer contents: a read after a write, the canonical form kept by every write, and the same for
runs of bytes and for the four lanes of a host write. -/

namespace Sys2Proof.Machine

/-- A read after a write of one byte: the written byte at its index, every other byte as before. -/
theorem read_write (m : Memory) (i j : Nat) (v : Byte) :
    Memory.read (Memory.write m i v) j = if j = i then some v else Memory.read m j := by
  induction m with
  | nil => by_cases h : j = i <;> simp [Memory.write, Memory.read, h]
  | cons c m ih =>
    obtain ⟨a, w⟩ := c
    unfold Memory.write
    split
    · simp only [Memory.read]
    · split
      · rename_i _ h
        subst h
        simp only [Memory.read]
        split <;> rfl
      · rename_i _ h
        simp only [Memory.read, ih]
        by_cases hj : j = i
        · subst hj; simp [h]
        · simp [hj]

/-- A read after a run of bytes was written at `start`. -/
theorem read_writeAll (m : Memory) (start : Nat) (bs : List Byte) (j : Nat) :
    Memory.read (Memory.writeAll m start bs) j =
      if start ≤ j ∧ j < start + bs.length then bs[j - start]? else Memory.read m j := by
  induction bs generalizing m start with
  | nil =>
    simp only [Memory.writeAll, List.length_nil, Nat.add_zero]
    rw [if_neg (by omega)]
  | cons b bs ih =>
    simp only [Memory.writeAll, ih, read_write, List.length_cons]
    by_cases h1 : j = start
    · subst h1
      rw [if_neg (by omega), if_pos rfl, if_pos (by omega)]
      simp
    · by_cases h2 : start + 1 ≤ j ∧ j < start + 1 + bs.length
      · rw [if_pos h2, if_pos (by omega)]
        obtain ⟨k, hk⟩ : ∃ k, j - start = k + 1 := ⟨j - start - 1, by omega⟩
        rw [hk, List.getElem?_cons_succ]
        congr 1
        omega
      · rw [if_neg h2, if_neg h1, if_neg (by omega)]

/-- Byte `k` of a run written from index 0. -/
theorem read_writeAll_zero (m : Memory) (bs : List Byte) (k : Nat) :
    Memory.read (Memory.writeAll m 0 bs) k = if k < bs.length then bs[k]? else Memory.read m k := by
  rw [read_writeAll]
  simp

/-- The canonical form, cell by cell. -/
theorem wfFrom_cons (lo cap a : Nat) (v : Byte) (m : Memory) :
    Memory.wfFrom lo cap ((a, v) :: m) = true ↔ lo ≤ a ∧ a < cap ∧ Memory.wfFrom (a + 1) cap m = true := by
  simp [Memory.wfFrom, and_assoc]

theorem wfFrom_write (lo cap : Nat) (m : Memory) (i : Nat) (v : Byte) (hlo : lo ≤ i) (hi : i < cap)
    (h : Memory.wfFrom lo cap m = true) : Memory.wfFrom lo cap (Memory.write m i v) = true := by
  induction m generalizing lo with
  | nil => simp [Memory.write, Memory.wfFrom, hlo, hi]
  | cons c m ih =>
    obtain ⟨a, w⟩ := c
    obtain ⟨h1, h2, h3⟩ := (wfFrom_cons ..).1 h
    unfold Memory.write
    split
    · exact (wfFrom_cons ..).2 ⟨hlo, hi, (wfFrom_cons ..).2 ⟨by omega, h2, h3⟩⟩
    · split
      · rename_i _ he
        subst he
        exact (wfFrom_cons ..).2 ⟨hlo, hi, h3⟩
      · exact (wfFrom_cons ..).2 ⟨h1, h2, ih (a + 1) (by omega) h3⟩

/-- A write below the capacity keeps the canonical form. -/
theorem wf_write (cap : Nat) (m : Memory) (i : Nat) (v : Byte) (hi : i < cap) (h : Memory.wf cap m = true) :
    Memory.wf cap (Memory.write m i v) = true :=
  wfFrom_write 0 cap m i v (Nat.zero_le _) hi h

/-- A run of bytes that ends at or below the capacity keeps the canonical form. -/
theorem wf_writeAll (cap : Nat) (m : Memory) (start : Nat) (bs : List Byte) (hb : start + bs.length ≤ cap)
    (h : Memory.wf cap m = true) : Memory.wf cap (Memory.writeAll m start bs) = true := by
  induction bs generalizing m start with
  | nil => exact h
  | cons b bs ih =>
    simp only [List.length_cons] at hb
    exact ih (Memory.write m start b) (start + 1) (by omega) (wf_write cap m start b (by omega) h)

/-- The four lanes of a host write keep the canonical form. -/
theorem wf_writeLanes (cap : Nat) (m : Memory) (i : Nat) (v : Word) (h : Memory.wf cap m = true) :
    Memory.wf cap (writeLanes cap m i v) = true := by
  unfold writeLanes
  generalize [0, 1, 2, 3] = lanes
  induction lanes generalizing m with
  | nil => exact h
  | cons l lanes ih =>
    rw [List.foldl_cons]
    apply ih
    split
    · exact wf_write cap m (i + l) _ (by assumption) h
    · exact h

/-- The four lanes of a host write: byte `i + lane` below the capacity becomes that lane, every other byte is as before. -/
theorem read_writeLanes (cap : Nat) (m : Memory) (i : Nat) (v : Word) (j : Nat) :
    Memory.read (writeLanes cap m i v) j =
      if i ≤ j ∧ j < i + 4 ∧ j < cap then some (v.extractLsb' (8 * (j - i)) 8) else Memory.read m j := by
  have lane : ∀ (m : Memory) (l : Nat), Memory.read
      (if i + l < cap then Memory.write m (i + l) (v.extractLsb' (8 * l) 8) else m) j =
      if j = i + l ∧ j < cap then some (v.extractLsb' (8 * l) 8) else Memory.read m j := by
    intro m l
    split
    · rw [read_write]
      by_cases h : j = i + l <;> simp [h]
      intro; omega
    · rw [if_neg (by omega)]
  simp only [writeLanes, List.foldl_cons, List.foldl_nil, lane]
  by_cases hj : i ≤ j ∧ j < i + 4 ∧ j < cap
  · rw [if_pos hj]
    obtain ⟨h1, h2, h3⟩ := hj
    obtain h | h | h | h : j = i ∨ j = i + 1 ∨ j = i + 2 ∨ j = i + 3 := by omega
    all_goals subst h; simp [h3]
  · rw [if_neg hj, if_neg (by omega), if_neg (by omega), if_neg (by omega), if_neg (by omega)]

end Sys2Proof.Machine
end

