-- ==== Sys2Proof/Laws/Tables.lean ====
section
/-! SUPPORT. The laws of the symbol tables: reading an entry after writing one, equality entry by entry, and the listing of
all entries in ascending symbol order. -/

namespace Sys2Proof.Machine

variable {α : Type}

theorem mem_allSyms (s : Sym) : s ∈ allSyms := by
  simp only [allSyms, List.mem_map, List.mem_range]
  exact ⟨s.toNat, s.isLt, by simp⟩

theorem length_allSyms : allSyms.length = 256 := by simp [allSyms]

theorem getElem_allSyms (i : Nat) (h : i < allSyms.length) : allSyms[i] = BitVec.ofNat 8 i := by
  simp [allSyms]

/-- Reading a table after writing one entry. -/
theorem entry_setEntry (t : Table α) (s u : Sym) (v : α) :
    entry (setEntry t s v) u = if u = s then v else entry t u := by
  simp only [entry, setEntry, Vector.getElem_set]
  have : s.toNat = u.toNat ↔ u = s := by rw [BitVec.toNat_eq]; omega
  simp [this]

theorem entry_filled (v : α) (s : Sym) : entry (filled v) s = v := by
  simp [entry, filled]

/-- Two tables with the same entries are equal. -/
theorem table_ext {t u : Table α} (h : ∀ s, entry t s = entry u s) : t = u := by
  apply Vector.ext
  intro i hi
  have := h (BitVec.ofNat 8 i)
  simpa [entry, Nat.mod_eq_of_lt hi] using this

/-- The listing of a table gives each symbol its entry. -/
theorem entries_eq_map (t : Table α) : entries t = allSyms.map fun s => (s, entry t s) := by
  apply List.ext_getElem
  · simp [entries, length_allSyms]
  · intro i h1 h2
    have hi : i < 256 := by simpa [length_allSyms] using h2
    simp [entries, getElem_allSyms, entry, Nat.mod_eq_of_lt hi]

theorem mem_entries (t : Table α) (e : Sym × α) : e ∈ entries t ↔ entry t e.1 = e.2 := by
  rw [entries_eq_map, List.mem_map]
  constructor
  · rintro ⟨s, _, rfl⟩; rfl
  · intro h; exact ⟨e.1, mem_allSyms _, by rw [h]⟩

theorem toList_eq_map (t : Table α) : t.toList = allSyms.map (entry t) := by
  apply List.ext_getElem
  · simp [length_allSyms]
  · intro i h1 h2
    have hi : i < 256 := by simpa using h1
    simp [getElem_allSyms, entry, Nat.mod_eq_of_lt hi]

theorem allSyms_nodup : allSyms.Nodup := by
  rw [allSyms, List.nodup_map_iff_inj_on List.nodup_range]
  intro a ha b hb h
  simp only [List.mem_range] at ha hb
  have := congrArg BitVec.toNat h
  simpa [Nat.mod_eq_of_lt ha, Nat.mod_eq_of_lt hb] using this

/-- The symbols in ascending order of their values. -/
theorem allSyms_sorted : allSyms.Pairwise (fun a b => a.toNat < b.toNat) := by
  rw [allSyms, List.pairwise_map]
  refine List.Pairwise.imp_of_mem ?_ List.pairwise_lt_range
  intro a b ha hb hab
  simp only [List.mem_range] at ha hb
  simpa [Nat.mod_eq_of_lt ha, Nat.mod_eq_of_lt hb] using hab

/-- The number of entries that satisfy `p`, counted over the symbols. -/
theorem countEntries_eq (p : α → Bool) (t : Table α) :
    countEntries p t = allSyms.countP fun s => p (entry t s) := by
  rw [countEntries, toList_eq_map, List.countP_map]
  rfl

theorem countEntries_le (p : α → Bool) (t : Table α) : countEntries p t ≤ 256 := by
  have := List.countP_le_length (p := p) (l := t.toList)
  simpa [countEntries] using this

/-- One more entry satisfies `p` when an entry that did not is written with one that does. -/
theorem countEntries_setEntry (p : α → Bool) (t : Table α) (s : Sym) (v : α) (h1 : p (entry t s) = false)
    (h2 : p v = true) : countEntries p (setEntry t s v) = countEntries p t + 1 := by
  simp only [countEntries_eq, entry_setEntry]
  have key : ∀ l : List Sym, l.Nodup → l.countP (fun u => p (if u = s then v else entry t u)) =
      l.countP (fun u => p (entry t u)) + if s ∈ l then 1 else 0 := by
    intro l
    induction l with
    | nil => simp
    | cons a l ih =>
      intro hn
      obtain ⟨ha, hn⟩ := List.nodup_cons.1 hn
      rw [List.countP_cons, List.countP_cons, ih hn]
      by_cases has : a = s
      · subst has; simp [h1, h2, ha]
      · have : s ≠ a := fun h => has h.symm
        simp [has, this]; omega
  rw [key _ allSyms_nodup, if_pos (mem_allSyms s)]

theorem countEntries_filled (p : α → Bool) (v : α) (h : p v = false) : countEntries p (filled v) = 0 := by
  rw [countEntries_eq, List.countP_eq_zero]
  intro s _
  simp [entry_filled, h]

end Sys2Proof.Machine
end

