-- ==== Sys2Proof/Laws/Operands.lean ====
section
/-! SUPPORT. What the operand forms answer: bytes consumed in order, the bits of a packed buffer, and the packed bytes of a
bit list. -/

namespace Sys2Proof.Machine

/-- Bit `i` of a number given bit by bit. -/
theorem getLsbD_wordOf (n : Nat) (f : Nat → Bool) (i : Nat) :
    (wordOf n f).getLsbD i = if i < n then f i else false := by
  induction n with
  | zero => simp [wordOf]
  | succ n ih =>
    simp only [wordOf, BitVec.getLsbD_cons, ih]
    by_cases h : i = n
    · subst h; simp
    · by_cases h2 : i < n
      · rw [if_neg h, if_pos h2, if_pos (by omega)]
      · rw [if_neg h, if_neg h2, if_neg (by omega)]

/-- Consuming byte `i` answers the byte, or faults with its own index. -/
theorem consumeByte_eq_ok {b : Buffer} {m : Memory} {i : Nat} {v : Byte} :
    consumeByte b m i = .ok v ↔ Memory.read m i = some v := by
  unfold consumeByte
  cases Memory.read m i <;> simp

theorem consumeByte_eq_error {b : Buffer} {m : Memory} {i : Nat} {f : Fault} :
    consumeByte b m i = .error f ↔ Memory.read m i = none ∧ f = .uninitRead b i := by
  unfold consumeByte
  cases Memory.read m i
  · simp only [Except.error.injEq, true_and]; exact eq_comm
  · simp

/-- The bytes a buffer holds from index 0 are what its operands consume. -/
theorem operands_of_bytesAt (b : Buffer) (m : Memory) (bs : List Byte) (h : BytesAt m bs) :
    (List.range bs.length).map (consumeByte b m) = bs.map Except.ok := by
  apply List.ext_getElem
  · simp
  · intro i h1 h2
    have hi : i < bs.length := by simpa using h1
    have := h i hi
    rw [List.getElem?_eq_getElem hi] at this
    simp [consumeByte, this]

theorem consumeAll_map_ok (bs : List Byte) : consumeAll (bs.map Except.ok) = .ok bs := by
  induction bs with
  | nil => rfl
  | cons b bs ih => simp [consumeAll, ih]

/-- What consuming a list of operands answers: all the bytes, or the first fault. -/
theorem consumeAll_cases (os : List Operand) :
    (∃ bs : List Byte, os = bs.map Except.ok ∧ consumeAll os = .ok bs) ∨
      ∃ (bs : List Byte) (f : Fault) (rest : List Operand), os = bs.map Except.ok ++ .error f :: rest ∧ consumeAll os = .error f := by
  induction os with
  | nil => exact .inl ⟨[], rfl, rfl⟩
  | cons o os ih =>
    cases o with
    | error f => exact .inr ⟨[], f, os, rfl, rfl⟩
    | ok b =>
      rcases ih with ⟨bs, h1, h2⟩ | ⟨bs, f, rest, h1, h2⟩
      · exact .inl ⟨b :: bs, by simp [h1], by simp [consumeAll, h2]⟩
      · exact .inr ⟨b :: bs, f, rest, by simp [h1], by simp [consumeAll, h2]⟩

/-- An operand list that begins with the bytes `bs` stands for a buffer that holds them. -/
theorem bytesAt_of_operands {b : Buffer} {m : Memory} {n : Nat} {bs : List Byte} {rest : List Operand}
    (h : (List.range n).map (consumeByte b m) = bs.map Except.ok ++ rest) : bs.length ≤ n ∧ BytesAt m bs := by
  have hlen := congrArg List.length h
  simp only [List.length_map, List.length_range, List.length_append] at hlen
  refine ⟨by omega, fun i hi => ?_⟩
  have hget := congrArg (·[i]?) h
  simp only [List.getElem?_map, List.getElem?_range (show i < n by omega), Option.map_some,
    List.getElem?_append_left (show i < (bs.map (Except.ok (ε := Fault))).length by simpa using hi),
    List.getElem?_eq_getElem hi, Option.some.injEq] at hget
  rw [consumeByte_eq_ok.1 hget, List.getElem?_eq_getElem hi]

/-- An operand list that begins with fault `f` after `bs` stands for an unspecified byte at index `bs.length`. -/
theorem operands_split {b : Buffer} {m : Memory} {n : Nat} {bs : List Byte} {f : Fault} {rest : List Operand}
    (h : (List.range n).map (consumeByte b m) = bs.map Except.ok ++ .error f :: rest) :
    bs.length < n ∧ BytesAt m bs ∧ Memory.read m bs.length = none ∧ f = .uninitRead b bs.length := by
  have hlen := congrArg List.length h
  simp only [List.length_map, List.length_range, List.length_append, List.length_cons] at hlen
  have hget := congrArg (·[bs.length]?) h
  simp only [List.getElem?_map, List.getElem?_range (show bs.length < n by omega), Option.map_some,
    List.getElem?_append_right (show (bs.map (Except.ok (ε := Fault))).length ≤ bs.length by simp), List.length_map,
    Nat.sub_self, List.getElem?_cons_zero, Option.some.injEq] at hget
  exact ⟨by omega, (bytesAt_of_operands h).2, consumeByte_eq_error.1 hget⟩

/-- The bytes a buffer holds are the first operands. -/
theorem operands_of_prefix {b : Buffer} {m : Memory} {n : Nat} {bs : List Byte} (h : BytesAt m bs) (hn : bs.length ≤ n) :
    ∃ rest, (List.range n).map (consumeByte b m) = bs.map Except.ok ++ rest ∧ rest.length = n - bs.length := by
  obtain ⟨d, rfl⟩ := Nat.exists_eq_add_of_le hn
  rw [List.range_add, List.map_append, operands_of_bytesAt b m bs h]
  exact ⟨_, rfl, by simp⟩

/-- The bytes a buffer holds and an unspecified byte after them are the first operands. -/
theorem operands_of_unspecified {b : Buffer} {m : Memory} {n : Nat} {bs : List Byte} (h : BytesAt m bs)
    (hn : bs.length < n) (hu : Memory.read m bs.length = none) :
    ∃ rest, (List.range n).map (consumeByte b m) = bs.map Except.ok ++ .error (.uninitRead b bs.length) :: rest := by
  obtain ⟨d, rfl⟩ := Nat.exists_eq_add_of_lt hn
  rw [show bs.length + d + 1 = bs.length + (1 + d) by omega, List.range_add, List.map_append,
    operands_of_bytesAt b m bs h, List.range_add]
  simp only [List.range_one, List.map_cons, Nat.add_zero, List.cons_append, List.nil_append]
  rw [consumeByte_eq_error.2 ⟨hu, rfl⟩]
  exact ⟨_, rfl⟩

/-- All of an operand list: the buffer holds its bytes. -/
theorem operands_all_ok {b : Buffer} {m : Memory} {n : Nat} {bs : List Byte}
    (h : (List.range n).map (consumeByte b m) = bs.map Except.ok) : bs.length = n ∧ BytesAt m bs := by
  have hlen := congrArg List.length h
  simp only [List.length_map, List.length_range] at hlen
  refine ⟨hlen.symm, ?_⟩
  intro i hi
  have : ((List.range n).map (consumeByte b m))[i]? = (bs.map Except.ok)[i]? := by rw [h]
  simp only [List.getElem?_map, List.getElem?_range (show i < n by omega), List.getElem?_eq_getElem hi,
    Option.map_some, Option.some.injEq] at this
  rw [consumeByte_eq_ok] at this
  rw [this, List.getElem?_eq_getElem hi]

/-- Bit `i` < 8 of packed byte `k`, from the most significant end, is bit 8k + i of the list (20_memory R49). -/
theorem packedByte_bit (p : Bits) (k i : Nat) (hi : i < 8) :
    (packedByte p k).getLsbD (7 - i) = p.getD (8 * k + i) false := by
  unfold packedByte
  rw [getLsbD_wordOf, if_pos (by omega)]
  congr 1
  omega

/-- The bits UNPACK may read, one by one: bit `j` of IN_BUF, or the fault of consuming its unspecified byte. -/
def bitOperand (m : Memory) (j : Nat) : Except Fault Bool :=
  match bitAt m j with
  | some b => .ok b
  | none => .error (.uninitRead .inBuf (j / 8))

theorem inBits_eq (s : State) (nb : Nat) : inBits s nb = (List.range (8 * nb)).map (bitOperand s.inBuf) := by
  have byte : ∀ i, operandBits (consumeByte .inBuf s.inBuf i) =
      (List.range 8).map fun k => bitOperand s.inBuf (8 * i + k) := by
    intro i
    unfold operandBits
    apply List.map_congr_left
    intro k hk
    simp only [List.mem_range] at hk
    have h1 : (8 * i + k) / 8 = i := by omega
    have h2 : (8 * i + k) % 8 = k := by omega
    unfold bitOperand bitAt consumeByte
    rw [h1, h2]
    cases Memory.read s.inBuf i <;> rfl
  induction nb with
  | zero => rfl
  | succ nb ih =>
    have e : 8 * (nb + 1) = 8 * nb + 8 := by omega
    unfold inBits inOperands at ih ⊢
    rw [List.range_succ, List.map_append, List.flatMap_append, ih, e, List.range_add, List.map_append]
    congr 1
    simp [byte]

theorem length_inBits (s : State) (nb : Nat) : (inBits s nb).length = 8 * nb := by simp [inBits_eq]

/-- The bits that stand in IN_BUF are the first bits UNPACK may read. -/
theorem inBits_of_bitsAt (s : State) (nb : Nat) (p : Bits) (h : BitsAt s.inBuf p) (hp : p.length ≤ 8 * nb) :
    ∃ rest, inBits s nb = p.map Except.ok ++ rest ∧ rest.length = 8 * nb - p.length := by
  refine ⟨(inBits s nb).drop p.length, ?_, by simp [length_inBits]⟩
  conv => lhs; rw [← List.take_append_drop p.length (inBits s nb)]
  congr 1
  apply List.ext_getElem
  · simp [length_inBits, hp]
  · intro j h1 h2
    have hj : j < p.length := by simpa using h2
    have := h j hj
    rw [List.getElem?_eq_getElem hj] at this
    simp [inBits_eq, bitOperand, this]

theorem inBits_of_bitsAt_all (s : State) (nb : Nat) (p : Bits) (h : BitsAt s.inBuf p) (hp : p.length = 8 * nb) :
    inBits s nb = p.map Except.ok := by
  obtain ⟨rest, h1, h2⟩ := inBits_of_bitsAt s nb p h hp.le
  have : rest = [] := List.length_eq_zero_iff.1 (by omega)
  rw [h1, this, List.append_nil]

/-- Bits that end in a fault end at the first bit of an unspecified byte. -/
theorem inBits_split {s : State} {nb : Nat} {p : Bits} {f : Fault} {rest : List (Except Fault Bool)}
    (h : inBits s nb = p.map Except.ok ++ .error f :: rest) :
    ∃ k, k < nb ∧ p.length = 8 * k ∧ BitsAt s.inBuf p ∧ Memory.read s.inBuf k = none ∧ f = .uninitRead .inBuf k := by
  rw [inBits_eq] at h
  have hlen := congrArg List.length h
  simp only [List.length_map, List.length_range, List.length_append, List.length_cons] at hlen
  have hok : BitsAt s.inBuf p := by
    intro j hj
    have hget := congrArg (·[j]?) h
    simp only [List.getElem?_map, List.getElem?_range (show j < 8 * nb by omega), Option.map_some,
      List.getElem?_append_left (show j < (p.map (Except.ok (ε := Fault))).length by simpa using hj),
      List.getElem?_eq_getElem hj, Option.some.injEq] at hget
    unfold bitOperand at hget
    cases hb : bitAt s.inBuf j with
    | none => rw [hb] at hget; cases hget
    | some b => rw [hb] at hget; cases hget; rw [List.getElem?_eq_getElem hj]
  have hget := congrArg (·[p.length]?) h
  simp only [List.getElem?_map, List.getElem?_range (show p.length < 8 * nb by omega), Option.map_some,
    List.getElem?_append_right (show (p.map (Except.ok (ε := Fault))).length ≤ p.length by simp), List.length_map,
    Nat.sub_self, List.getElem?_cons_zero, Option.some.injEq] at hget
  have hread : Memory.read s.inBuf (p.length / 8) = none ∧ f = .uninitRead .inBuf (p.length / 8) := by
    unfold bitOperand bitAt at hget
    cases hr : Memory.read s.inBuf (p.length / 8) with
    | none => rw [hr] at hget; exact ⟨rfl, by simpa using hget.symm⟩
    | some v => rw [hr] at hget; simp at hget
  have hmod : p.length % 8 = 0 := by
    by_contra hm
    have := hok (p.length - 1) (by omega)
    rw [List.getElem?_eq_getElem (by omega), bitAt, show (p.length - 1) / 8 = p.length / 8 by omega, hread.1] at this
    cases this
  exact ⟨p.length / 8, by omega, by omega, hok, hread⟩

/-- The bits that stand in IN_BUF before an unspecified byte are followed by its fault. -/
theorem inBits_of_unspecified {s : State} {nb k : Nat} {p : Bits} (h : BitsAt s.inBuf p) (hp : p.length = 8 * k)
    (hk : k < nb) (hu : Memory.read s.inBuf k = none) :
    ∃ rest, inBits s nb = p.map Except.ok ++ .error (.uninitRead .inBuf k) :: rest := by
  obtain ⟨rest, h1, h2⟩ := inBits_of_bitsAt s nb p h (by omega)
  have hget := congrArg (·[p.length]?) h1
  simp only [inBits_eq, List.getElem?_map, List.getElem?_range (show p.length < 8 * nb by omega), Option.map_some,
    List.getElem?_append_right (show (p.map (Except.ok (ε := Fault))).length ≤ p.length by simp), List.length_map,
    Nat.sub_self] at hget
  have hb : bitOperand s.inBuf p.length = .error (.uninitRead .inBuf k) := by
    unfold bitOperand bitAt
    rw [hp, show 8 * k / 8 = k by omega, hu]
    rfl
  cases rest with
  | nil => simp at hget
  | cons o rest =>
    rw [hb] at hget
    simp only [List.getElem?_cons_zero, Option.some.injEq] at hget
    exact ⟨rest, by rw [h1, hget]⟩

theorem length_packBits (bits : Bits) : (packBits bits).length = bytesFor bits.length := by simp [packBits]

/-- The bytes written from index 0 stand there. -/
theorem bytesAt_writeAll (m : Memory) (bs : List Byte) : BytesAt (Memory.writeAll m 0 bs) bs := by
  intro i hi
  rw [read_writeAll_zero, if_pos hi]

/-- The packed bytes written from index 0: bit `j` below 8·⌈T/8⌉ is bit `j` of the list, 0 from its end on. -/
theorem bitAt_packed (m : Memory) (bits : Bits) (j : Nat) (hj : j < 8 * bytesFor bits.length) :
    bitAt (Memory.writeAll m 0 (packBits bits)) j = some (bits.getD j false) := by
  have h8 : j / 8 < bytesFor bits.length := by omega
  unfold bitAt
  rw [read_writeAll_zero, length_packBits, if_pos h8]
  simp only [packBits, List.getElem?_map, List.getElem?_range h8, Option.map_some]
  rw [packedByte_bit _ _ _ (by omega)]
  congr 1
  rw [show 8 * (j / 8) + j % 8 = j by omega]
  simp only [List.getD_eq_getElem?_getD, List.getElem?_append]
  split
  · rfl
  · rw [List.getElem?_eq_none (l := bits) (by omega), List.getElem?_replicate]
    split <;> rfl

end Sys2Proof.Machine
end

