-- ==== Sys2Proof/Laws/Trees.lean ====
section
/-! SUPPORT. Trees and their paths: the leaves at the end of paths, the codes a traversal assigns, and what inserting a leaf
does to every path. -/

namespace Sys2Proof.Machine

@[simp] theorem subtreeAt_nil (t : PTree) : subtreeAt t [] = t := by cases t <;> rfl

@[simp] theorem subtreeAt_node (l r : PTree) (b : Bool) (p : Bits) :
    subtreeAt (.node l r) (b :: p) = subtreeAt (if b then r else l) p := rfl

@[simp] theorem subtreeAt_empty (p : Bits) : subtreeAt .empty p = .empty := by cases p <;> rfl

@[simp] theorem subtreeAt_leaf_cons (s : Sym) (b : Bool) (p : Bits) : subtreeAt (.leaf s) (b :: p) = .empty := rfl

/-- A path continued is a path from the subtree it reached. -/
theorem subtreeAt_append (t : PTree) (p q : Bits) : subtreeAt t (p ++ q) = subtreeAt (subtreeAt t p) q := by
  induction p generalizing t with
  | nil => simp
  | cons b p ih => cases t <;> simp [ih]

/-- The end of a path that reaches a leaf is the end: nothing but the leaf lies on it or beyond it. -/
theorem subtreeAt_leaf_append {t : PTree} {p q : Bits} {s : Sym} (h : subtreeAt t p = .leaf s) (hq : q ≠ []) :
    subtreeAt t (p ++ q) = .empty := by
  rw [subtreeAt_append, h]
  cases q with
  | nil => exact absurd rfl hq
  | cons b q => rfl

/-- A symbol occurs at a leaf exactly when some path reaches it. -/
theorem mem_leafSyms_iff (t : PTree) (s : Sym) : s ∈ leafSyms t ↔ ∃ p, subtreeAt t p = .leaf s := by
  induction t with
  | empty => simp [leafSyms]
  | leaf u =>
    simp only [leafSyms, List.mem_singleton]
    constructor
    · rintro rfl; exact ⟨[], rfl⟩
    · rintro ⟨p, hp⟩
      cases p with
      | nil => simp only [subtreeAt_nil, PTree.leaf.injEq] at hp; exact hp.symm
      | cons b p => simp at hp
  | node l r ihl ihr =>
    simp only [leafSyms, List.mem_append, ihl, ihr]
    constructor
    · rintro (⟨p, hp⟩ | ⟨p, hp⟩)
      · exact ⟨false :: p, by simpa using hp⟩
      · exact ⟨true :: p, by simpa using hp⟩
    · rintro ⟨p, hp⟩
      cases p with
      | nil => simp at hp
      | cons b p =>
        cases b
        · exact .inl ⟨p, by simpa using hp⟩
        · exact .inr ⟨p, by simpa using hp⟩

/-- When no symbol occurs twice, at most one path reaches a symbol. -/
theorem path_unique {t : PTree} (h : (leafSyms t).Nodup) {p q : Bits} {s : Sym} (hp : subtreeAt t p = .leaf s)
    (hq : subtreeAt t q = .leaf s) : p = q := by
  induction t generalizing p q with
  | empty => simp at hp
  | leaf u => cases p <;> cases q <;> simp_all
  | node l r ihl ihr =>
    simp only [leafSyms, List.nodup_append] at h
    obtain ⟨hl, hr, hd⟩ := h
    cases p with
    | nil => simp at hp
    | cons b p =>
      cases q with
      | nil => simp at hq
      | cons c q =>
        cases b <;> cases c <;> simp only [subtreeAt_node, Bool.false_eq_true, if_true, if_false] at hp hq
        · rw [ihl hl hp hq]
        · exact absurd rfl (hd s ((mem_leafSyms_iff l s).2 ⟨p, hp⟩) s ((mem_leafSyms_iff r s).2 ⟨q, hq⟩))
        · exact absurd rfl (hd s ((mem_leafSyms_iff l s).2 ⟨q, hq⟩) s ((mem_leafSyms_iff r s).2 ⟨p, hp⟩))
        · rw [ihr hr hp hq]

/-- No path to a leaf is a prefix of a path to another leaf. -/
theorem path_not_prefix {t : PTree} {p q : Bits} {s u : Sym} (hp : subtreeAt t p = .leaf s)
    (hq : subtreeAt t q = .leaf u) (h : s ≠ u) : ¬ p <+: q := by
  rintro ⟨x, rfl⟩
  cases x with
  | nil =>
    rw [List.append_nil, hp] at hq
    exact h (PTree.leaf.inj hq)
  | cons b x => rw [subtreeAt_leaf_append hp (by simp)] at hq; cases hq

/-- A path to a leaf is at most as long as the tree is high. -/
theorem length_le_height {t : PTree} {p : Bits} {s : Sym} (h : subtreeAt t p = .leaf s) : p.length ≤ height t := by
  induction t generalizing p with
  | empty => simp at h
  | leaf u => cases p <;> simp_all [height]
  | node l r ihl ihr =>
    cases p with
    | nil => simp at h
    | cons b p =>
      cases b <;> simp only [subtreeAt_node, Bool.false_eq_true, if_true, if_false] at h <;>
        simp only [height, List.length_cons]
      · have := ihl h; omega
      · have := ihr h; omega

/-- A leaf's path has the length bound of the whole tree when every leaf has it. -/
theorem height_le_of_trimmed {t : PTree} (ht : isTrimmed t = true) (n : Nat)
    (h : ∀ p s, subtreeAt t p = .leaf s → p.length ≤ n) : height t ≤ n := by
  induction t generalizing n with
  | empty => simp [height]
  | leaf u => simp [height]
  | node l r ihl ihr =>
    simp only [isTrimmed, Bool.and_eq_true, Bool.not_eq_true', List.isEmpty_eq_false_iff] at ht
    obtain ⟨⟨hl, hr⟩, hne⟩ := ht
    obtain ⟨u, hu⟩ := List.exists_mem_of_ne_nil _ hne
    have hn : 1 ≤ n := by
      obtain ⟨p, hp⟩ := (mem_leafSyms_iff (.node l r) u).1 hu
      have := h p u hp
      cases p with
      | nil => simp at hp
      | cons b p => simp at this; omega
    have h1 := ihl hl (n - 1) (fun p s hp => by
      have := h (false :: p) s (by simpa using hp)
      simp at this; omega)
    have h2 := ihr hr (n - 1) (fun p s hp => by
      have := h (true :: p) s (by simpa using hp)
      simp at this; omega)
    simp only [height]
    omega

/-- A full tree has a leaf, every Node of it has one, and it has one Node less than leaves. -/
theorem leafSyms_ne_nil_of_full {t : PTree} (h : isFull t = true) : leafSyms t ≠ [] := by
  induction t with
  | empty => simp [isFull] at h
  | leaf u => simp [leafSyms]
  | node l r ihl ihr =>
    simp only [isFull, Bool.and_eq_true] at h
    simp [leafSyms, ihl h.1]

theorem isTrimmed_of_full {t : PTree} (h : isFull t = true) : isTrimmed t = true := by
  induction t with
  | empty => rfl
  | leaf u => rfl
  | node l r ihl ihr =>
    simp only [isFull, Bool.and_eq_true] at h
    simp [isTrimmed, ihl h.1, ihr h.2, leafSyms_ne_nil_of_full h.1]

theorem nodeCount_of_full {t : PTree} (h : isFull t = true) : nodeCount t + 1 = (leafSyms t).length := by
  induction t with
  | empty => simp [isFull] at h
  | leaf u => rfl
  | node l r ihl ihr =>
    simp only [isFull, Bool.and_eq_true] at h
    have := ihl h.1
    have := ihr h.2
    simp only [nodeCount, leafSyms, List.length_append]
    omega

theorem height_lt_of_full {t : PTree} (h : isFull t = true) : height t + 1 ≤ (leafSyms t).length := by
  induction t with
  | empty => simp [isFull] at h
  | leaf u => simp [height, leafSyms]
  | node l r ihl ihr =>
    simp only [isFull, Bool.and_eq_true] at h
    have := ihl h.1
    have := ihr h.2
    simp only [height, leafSyms, List.length_append]
    omega

/-- The leaves a traversal lists are the symbols in order. -/
theorem leafPaths_map_fst (t : PTree) (q : Bits) : (leafPaths t q).map (·.1) = leafSyms t := by
  induction t generalizing q with
  | empty => rfl
  | leaf u => rfl
  | node l r ihl ihr => simp [leafPaths, leafSyms, ihl, ihr]

/-- A traversal that starts at path `q` lists symbol `s` with `q` continued by the path that reaches `s`. -/
theorem mem_leafPaths_iff (t : PTree) (q : Bits) (s : Sym) (p : Bits) :
    (s, p) ∈ leafPaths t q ↔ ∃ p', p = q ++ p' ∧ subtreeAt t p' = .leaf s := by
  induction t generalizing q with
  | empty => simp [leafPaths]
  | leaf u =>
    simp only [leafPaths, List.mem_singleton, Prod.mk.injEq]
    constructor
    · rintro ⟨rfl, rfl⟩; exact ⟨[], by simp⟩
    · rintro ⟨p', rfl, hp⟩
      cases p' with
      | nil => simp only [subtreeAt_nil, PTree.leaf.injEq] at hp; simp [hp]
      | cons b p => simp at hp
  | node l r ihl ihr =>
    simp only [leafPaths, List.mem_append, ihl, ihr]
    constructor
    · rintro (⟨p', rfl, hp⟩ | ⟨p', rfl, hp⟩)
      · exact ⟨false :: p', by simp, by simpa using hp⟩
      · exact ⟨true :: p', by simp, by simpa using hp⟩
    · rintro ⟨p', rfl, hp⟩
      cases p' with
      | nil => simp at hp
      | cons b p =>
        cases b
        · exact .inl ⟨p, by simp, by simpa using hp⟩
        · exact .inr ⟨p, by simp, by simpa using hp⟩

/-- The symbols of the codes GEN assigns are the leaves of the tree. -/
theorem assignedCodes_map_fst (t : PTree) : (assignedCodes t).map (·.1) = leafSyms t := by
  cases t <;> simp [assignedCodes, leafSyms, leafPaths_map_fst]

/-- GEN assigns each leaf its path from the walk's root. -/
theorem mem_assignedCodes_iff (t : PTree) (s : Sym) (p : Bits) :
    (s, p) ∈ assignedCodes t ↔ subtreeAt (walkRoot t) p = .leaf s := by
  cases t with
  | empty =>
    simp only [assignedCodes, List.not_mem_nil, walkRoot, false_iff]
    cases p <;> simp
  | leaf u =>
    simp only [assignedCodes, List.mem_singleton, Prod.mk.injEq, walkRoot]
    constructor
    · rintro ⟨rfl, rfl⟩; rfl
    · intro h
      cases p with
      | nil => simp at h
      | cons b p =>
        cases b
        · cases p with
          | nil => simp at h; simp [h]
          | cons c p => simp at h
        · simp at h
  | node l r =>
    simp only [assignedCodes, List.mem_append, mem_leafPaths_iff, walkRoot]
    constructor
    · rintro (⟨p', rfl, hp⟩ | ⟨p', rfl, hp⟩) <;> simpa using hp
    · intro h
      cases p with
      | nil => simp at h
      | cons b p =>
        cases b
        · exact .inl ⟨p, by simp, by simpa using h⟩
        · exact .inr ⟨p, by simp, by simpa using h⟩

/-- Writing a list of codes with distinct symbols: each listed symbol has its code, every other entry is as before. -/
theorem entry_foldl_setEntry {α : Type} (es : List (Sym × α)) (h : (es.map (·.1)).Nodup) (c : Table α) (s : Sym) :
    (∀ v, (s, v) ∈ es → entry (es.foldl (fun c e => setEntry c e.1 e.2) c) s = v) ∧
      (s ∉ es.map (·.1) → entry (es.foldl (fun c e => setEntry c e.1 e.2) c) s = entry c s) := by
  induction es generalizing c with
  | nil => simp
  | cons e es ih =>
    simp only [List.map_cons, List.nodup_cons] at h
    obtain ⟨h1, h2⟩ := ih h.2 (setEntry c e.1 e.2)
    constructor
    · intro v hv
      rw [List.foldl_cons]
      rcases List.mem_cons.1 hv with rfl | hv
      · rw [h2 h.1, entry_setEntry, if_pos rfl]
      · exact h1 v hv
    · intro hs
      simp only [List.map_cons, List.mem_cons, not_or] at hs
      rw [List.foldl_cons, h2 hs.2, entry_setEntry, if_neg hs.1]

/-- The table GEN writes gives a symbol the path that reaches it. -/
theorem entry_genTable {t : PTree} (h : (leafSyms t).Nodup) (s : Sym) (p : Bits) :
    entry (genTable t) s = p ∧ p ≠ [] ↔ subtreeAt (walkRoot t) p = .leaf s := by
  have hn : ((assignedCodes t).map (·.1)).Nodup := by rw [assignedCodes_map_fst]; exact h
  obtain ⟨h1, h2⟩ := entry_foldl_setEntry (assignedCodes t) hn (filled []) s
  rw [← mem_assignedCodes_iff]
  constructor
  · rintro ⟨he, hp⟩
    by_cases hs : s ∈ (assignedCodes t).map (·.1)
    · obtain ⟨⟨s', p'⟩, hm, rfl⟩ := List.mem_map.1 hs
      rw [genTable, h1 p' hm] at he
      exact he ▸ hm
    · rw [genTable, h2 hs, entry_filled] at he
      exact absurd he.symm hp
  · intro hm
    refine ⟨h1 p hm, ?_⟩
    rintro rfl
    rw [mem_assignedCodes_iff] at hm
    cases t <;> simp [walkRoot] at hm

/-- A symbol that is at no leaf gets no code. -/
theorem entry_genTable_eq_nil {t : PTree} (h : (leafSyms t).Nodup) (s : Sym) (hs : s ∉ leafSyms t) :
    entry (genTable t) s = [] := by
  have hn : ((assignedCodes t).map (·.1)).Nodup := by rw [assignedCodes_map_fst]; exact h
  rw [genTable, (entry_foldl_setEntry (assignedCodes t) hn (filled []) s).2 (by rwa [assignedCodes_map_fst]),
    entry_filled]

end Sys2Proof.Machine
end

