-- ==== Sys2Proof/Laws/Codec.lean ====
section
/-! SUPPORT. What the parser of the code table's text answers, line by line and over the whole text, and what the prefix
check answers. -/

namespace Sys2Proof.Machine

/-! ### One line -/

/-- The symbol field of each byte is a literal byte, or an escape whose digits name the byte. -/
theorem symField_cases (v : Sym) :
    (isLiteral v = true ∧ symField v = [v]) ∨
      (isLiteral v = false ∧ symField v = [0x5C, 0x78, hexDigit (v.toNat / 16), hexDigit (v.toNat % 16)]) := by
  unfold symField
  cases isLiteral v <;> simp

theorem isHex_hexDigit : ∀ d : Fin 16, isHex (hexDigit d.val) = true ∧ hexVal (hexDigit d.val) = d.val := by decide

theorem not_isLiteral_backslash : isLiteral 0x5C = false := by decide

/-- A symbol field is parsed back to its symbol. -/
theorem parseSym_symField (v : Sym) (rest : List Operand) :
    parseSym ((symField v).map Except.ok ++ rest) = .ok v rest := by
  rcases symField_cases v with ⟨h1, h2⟩ | ⟨h1, h2⟩
  · simp [h2, parseSym, h1]
  · have hv := v.isLt
    obtain ⟨a1, a2⟩ := isHex_hexDigit ⟨v.toNat / 16, by omega⟩
    obtain ⟨b1, b2⟩ := isHex_hexDigit ⟨v.toNat % 16, by omega⟩
    have hval : BitVec.ofNat 8 (16 * hexVal (hexDigit (v.toNat / 16)) + hexVal (hexDigit (v.toNat % 16))) = v := by
      rw [a2, b2]
      apply BitVec.eq_of_toNat_eq
      simp only [BitVec.toNat_ofNat]
      omega
    rw [h2]
    simp only [List.map_cons, List.map_nil, List.cons_append, List.nil_append, parseSym, not_isLiteral_backslash,
      Bool.false_eq_true, if_false, if_true]
    unfold parseEscape
    rw [if_neg (by simp)]
    simp only [parseByte, if_true, parseHex, a1, b1, hval, h2]

/-- Code digits are parsed back to their bits, up to the first byte that is no digit. -/
theorem parseDigits_digits (c : Bits) (b : Byte) (rest : List Operand) (hb : ¬ (b = 0x30 ∨ b = 0x31)) :
    parseDigits ((c.map digitByte).map Except.ok ++ .ok b :: rest) = .ok c (.ok b :: rest) := by
  induction c with
  | nil => simp only [List.map_nil, List.nil_append, parseDigits, if_neg hb]
  | cons x c ih =>
    have hx : digitByte x = 0x30 ∨ digitByte x = 0x31 := by cases x <;> decide
    have hx' : (digitByte x == 0x31) = x := by cases x <;> decide
    simp only [List.map_cons, List.cons_append, parseDigits, if_pos hx, ih, hx']

/-- A well-formed line is parsed to its symbol and code. -/
theorem parseLine_tableLine (v : Sym) (c : Bits) (rest : List Operand) (h1 : 1 ≤ c.length) (h2 : c.length ≤ 255) :
    parseLine ((tableLine v c).map Except.ok ++ rest) = .ok (v, c) rest := by
  have e : (tableLine v c).map Except.ok ++ rest = (symField v).map Except.ok ++
      (Except.ok 0x20 :: ((c.map digitByte).map Except.ok ++ Except.ok 0x0A :: rest)) := by
    simp [tableLine]
  unfold parseLine
  rw [e, parseSym_symField]
  simp only [parseByte, if_true]
  rw [parseDigits_digits c 0x0A rest (by decide)]
  simp [h1, h2]

/-- What `parseByte` accepts. -/
theorem parseByte_ok {x : Byte} {text rest : List Operand} {u : Unit} (h : parseByte x text = .ok u rest) :
    text = .ok x :: rest := by
  unfold parseByte at h
  split at h
  · cases h
  · cases h
  · split at h
    · cases h; simp_all
    · cases h

theorem parseHex_ok {b : Byte} {text rest : List Operand} (h : parseHex text = .ok b rest) : text = .ok b :: rest := by
  unfold parseHex at h
  split at h
  · cases h
  · cases h
  · split at h
    · cases h; rfl
    · cases h

theorem parseDigits_ok {c : Bits} {text rest : List Operand} (h : parseDigits text = .ok c rest) :
    text = (c.map digitByte).map Except.ok ++ rest := by
  induction text generalizing c rest with
  | nil => cases h; rfl
  | cons o text ih =>
    cases o with
    | error f => cases h
    | ok b =>
      simp only [parseDigits] at h
      split at h
      · rename_i hb
        split at h
        · rename_i bits r hr
          cases h
          rw [ih hr]
          rcases hb with rfl | rfl <;> rfl
        · cases h
        · cases h
      · cases h; rfl

theorem parseSym_ok {v : Sym} {text rest : List Operand} (h : parseSym text = .ok v rest) :
    text = (symField v).map Except.ok ++ rest := by
  cases text with
  | nil => cases h
  | cons o text =>
    cases o with
    | error f => cases h
    | ok b =>
      simp only [parseSym] at h
      split at h
      · rename_i hb
        cases h
        simp [symField, hb]
      · split at h
        · rename_i hb
          subst hb
          unfold parseEscape at h
          split at h
          · cases h
          split at h
          · cases h
          · cases h
          rename_i h1
          split at h
          · cases h
          · cases h
          rename_i h2
          split at h
          · cases h
          · cases h
          rename_i h3
          simp only [] at h
          split at h
          · rename_i hf
            cases h
            rw [parseByte_ok h1, parseHex_ok h2, parseHex_ok h3, hf]
            rfl
          · cases h
        · cases h

/-- What `parseLine` accepts: exactly the well-formed lines. -/
theorem parseLine_ok {v : Sym} {c : Bits} {text rest : List Operand} (h : parseLine text = .ok (v, c) rest) :
    text = (tableLine v c).map Except.ok ++ rest ∧ 1 ≤ c.length ∧ c.length ≤ 255 := by
  unfold parseLine at h
  split at h
  · cases h
  · cases h
  rename_i h1
  split at h
  · cases h
  · cases h
  rename_i h2
  split at h
  · cases h
  · cases h
  rename_i h3
  split at h
  · rename_i hlen
    split at h
    · cases h
    · cases h
    rename_i h4
    cases h
    refine ⟨?_, hlen⟩
    rw [parseSym_ok h1, parseByte_ok h2, parseDigits_ok h3, parseByte_ok h4]
    simp [tableLine]
  · cases h

/-! ### Where a line stops: at the first unspecified byte, or at the byte that decides it -/

theorem parseByte_fault {x : Byte} {text : List Operand} {f : Fault} (h : parseByte x text = .fault f) :
    ∃ r, text = .error f :: r := by
  unfold parseByte at h
  split at h
  · cases h
  · cases h; exact ⟨_, rfl⟩
  · split at h <;> cases h

theorem parseHex_fault {text : List Operand} {f : Fault} (h : parseHex text = .fault f) : ∃ r, text = .error f :: r := by
  unfold parseHex at h
  split at h
  · cases h
  · cases h; exact ⟨_, rfl⟩
  · split at h <;> cases h

theorem parseDigits_fault {text : List Operand} {f : Fault} (h : parseDigits text = .fault f) :
    ∃ (ds : Bits) (r : List Operand), text = (ds.map digitByte).map Except.ok ++ .error f :: r := by
  induction text with
  | nil => cases h
  | cons o text ih =>
    cases o with
    | error g => cases h; exact ⟨[], text, rfl⟩
    | ok b =>
      simp only [parseDigits] at h
      split at h
      · rename_i hb
        split at h
        · cases h
        · cases h
        · rename_i hr
          cases h
          obtain ⟨ds, r, rfl⟩ := ih hr
          rcases hb with rfl | rfl
          · exact ⟨false :: ds, r, rfl⟩
          · exact ⟨true :: ds, r, rfl⟩
      · cases h

/-- A symbol field faults at its first byte, or at a later byte of an escape that has room. -/
theorem parseSym_fault {text : List Operand} {f : Fault} (h : parseSym text = .fault f) :
    ∃ (seen : List Byte) (r : List Operand), text = seen.map Except.ok ++ .error f :: r ∧ (seen = [] ∨ (3 < text.length ∧
      (seen = [0x5C] ∨ seen = [0x5C, 0x78] ∨ ∃ h, isHex h = true ∧ seen = [0x5C, 0x78, h]))) := by
  cases text with
  | nil => cases h
  | cons o text =>
    cases o with
    | error g => cases h; exact ⟨[], text, rfl, .inl rfl⟩
    | ok b =>
      simp only [parseSym] at h
      split at h
      · cases h
      split at h
      case isFalse => cases h
      rename_i hb
      subst hb
      unfold parseEscape at h
      split at h
      · cases h
      have room : 3 < (Except.ok 0x5C :: text : List Operand).length := by simp only [List.length_cons]; omega
      split at h
      · cases h
      · rename_i h1
        cases h
        obtain ⟨r, rfl⟩ := parseByte_fault h1
        exact ⟨[0x5C], r, rfl, .inr ⟨room, .inl rfl⟩⟩
      rename_i h1
      obtain rfl := parseByte_ok h1
      split at h
      · cases h
      · rename_i h2
        cases h
        obtain ⟨r, rfl⟩ := parseHex_fault h2
        exact ⟨[0x5C, 0x78], r, rfl, .inr ⟨room, .inr (.inl rfl)⟩⟩
      rename_i d _ h2
      have hd : isHex d = true := by
        obtain rfl := parseHex_ok h2
        by_contra hn
        simp [parseHex, hn] at h2
      obtain rfl := parseHex_ok h2
      split at h
      · cases h
      · rename_i h3
        cases h
        obtain ⟨r, rfl⟩ := parseHex_fault h3
        exact ⟨[0x5C, 0x78, d], r, rfl, .inr ⟨room, .inr (.inr ⟨d, hd, rfl⟩)⟩⟩
      · simp only [] at h
        split at h <;> cases h

/-- A line faults only at its first unspecified byte, and only while it is unfinished. -/
theorem parseLine_fault {text : List Operand} {f : Fault} (h : parseLine text = .fault f) :
    ∃ (seen : List Byte) (r : List Operand), text = seen.map Except.ok ++ .error f :: r ∧ Unfinished text.length seen := by
  unfold parseLine at h
  split at h
  · cases h
  · rename_i h1
    cases h
    obtain ⟨seen, r, e, h2⟩ := parseSym_fault h1
    exact ⟨seen, r, e, h2.imp id .inl⟩
  rename_i v _ h1
  obtain rfl := parseSym_ok h1
  split at h
  · cases h
  · rename_i h2
    cases h
    obtain ⟨r, rfl⟩ := parseByte_fault h2
    exact ⟨symField v, r, rfl, .inr (.inr ⟨v, .inl rfl⟩)⟩
  rename_i h2
  obtain rfl := parseByte_ok h2
  have digits : ∀ (ds : Bits) (r : List Operand) {t : List Operand}, t = (ds.map digitByte).map Except.ok ++ .error f :: r →
      ∃ (seen : List Byte) (r : List Operand), (symField v).map Except.ok ++ Except.ok 0x20 :: t =
        seen.map Except.ok ++ .error f :: r ∧
        Unfinished ((symField v).map Except.ok ++ Except.ok 0x20 :: t : List Operand).length seen := by
    rintro ds r _ rfl
    exact ⟨symField v ++ [0x20] ++ ds.map digitByte, r, by simp, .inr (.inr ⟨v, .inr ⟨ds, rfl⟩⟩)⟩
  split at h
  · cases h
  · rename_i h3
    cases h
    obtain ⟨ds, r, e⟩ := parseDigits_fault h3
    exact digits ds r e
  rename_i bits _ h3
  have e3 := parseDigits_ok h3
  split at h
  · split at h
    · cases h
    · rename_i h4
      cases h
      obtain ⟨r, rfl⟩ := parseByte_fault h4
      exact digits bits r e3
    · cases h
  · cases h

/-- Digits that run to an unspecified byte fault there. -/
theorem parseDigits_error (ds : Bits) (f : Fault) (r : List Operand) :
    parseDigits ((ds.map digitByte).map Except.ok ++ .error f :: r) = .fault f := by
  induction ds with
  | nil => rfl
  | cons d ds ih => cases d <;> simp_all [parseDigits, digitByte]

/-- An unfinished line faults at an unspecified byte. -/
theorem parseLine_unfinished {seen : List Byte} {f : Fault} {r : List Operand}
    (h : Unfinished (seen.map Except.ok ++ Except.error f :: r : List Operand).length seen) :
    parseLine (seen.map Except.ok ++ .error f :: r) = .fault f := by
  rcases h with rfl | ⟨hroom, h⟩ | ⟨v, rfl | ⟨ds, rfl⟩⟩
  · rfl
  · have esc : parseSym (seen.map Except.ok ++ .error f :: r) = .fault f := by
      rcases h with rfl | rfl | ⟨d, hd, rfl⟩ <;>
        simp only [List.map_cons, List.map_nil, List.cons_append, List.nil_append, List.length_cons] at hroom ⊢ <;>
        simp only [parseSym, not_isLiteral_backslash, Bool.false_eq_true, if_false, if_true, parseEscape, List.length_cons] <;>
        rw [if_neg (by omega)]
      · rfl
      · simp [parseByte, parseHex]
      · simp [parseByte, parseHex, hd]
    unfold parseLine
    rw [esc]
  · unfold parseLine
    rw [parseSym_symField]
    rfl
  · have e : (symField v ++ [0x20] ++ ds.map digitByte).map Except.ok ++ Except.error f :: r =
        (symField v).map Except.ok ++ (Except.ok 0x20 :: ((ds.map digitByte).map Except.ok ++ Except.error f :: r)) := by
      simp
    unfold parseLine
    rw [e, parseSym_symField]
    simp only [parseByte, if_true, parseDigits_error]

/-- The byte after which a line is no longer unfinished decides it: the line is malformed, or it ends there well formed. -/
theorem parseLine_decided {seen : List Byte} {x : Byte} {r : List Operand}
    (h : Unfinished (seen.map Except.ok ++ Except.ok x :: r : List Operand).length seen)
    (hx : ¬ Unfinished (seen.map Except.ok ++ Except.ok x :: r : List Operand).length (seen ++ [x])) :
    parseLine (seen.map Except.ok ++ .ok x :: r) = .bad ∨
      ∃ v c, seen ++ [x] = tableLine v c ∧ 1 ≤ c.length ∧ c.length ≤ 255 := by
  have badSym : parseSym (seen.map Except.ok ++ .ok x :: r) = .bad → parseLine (seen.map Except.ok ++ .ok x :: r) = .bad :=
    fun h => by unfold parseLine; rw [h]
  rcases h with rfl | ⟨hroom, h⟩ | ⟨v, rfl | ⟨ds, rfl⟩⟩
  · refine .inl (badSym ?_)
    have h1 : ¬ isLiteral x = true := fun h => hx (.inr (.inr ⟨x, .inl (by simp [symField, h])⟩))
    simp only [List.map_nil, List.nil_append, parseSym, if_neg h1]
    split
    · rename_i h2
      have h3 : r.length < 3 := by
        by_contra hn
        refine hx (.inr (.inl ⟨?_, .inl (by rw [h2]; rfl)⟩))
        simp only [List.map_nil, List.nil_append, List.length_cons]
        omega
      unfold parseEscape
      rw [if_pos h3]
    · rfl
  · refine .inl (badSym ?_)
    rcases h with rfl | rfl | ⟨d, hd, rfl⟩ <;>
      simp only [List.map_cons, List.map_nil, List.cons_append, List.nil_append, List.length_cons] at hroom hx ⊢ <;>
      simp only [parseSym, not_isLiteral_backslash, Bool.false_eq_true, if_false, if_true, parseEscape, List.length_cons] <;>
      rw [if_neg (by omega)]
    · have h1 : ¬ x = 0x78 := fun h => hx (.inr (.inl ⟨hroom, .inr (.inl (by rw [h]))⟩))
      simp only [parseByte, if_neg h1]
    · have h1 : ¬ isHex x = true := fun h => hx (.inr (.inl ⟨hroom, .inr (.inr ⟨x, h, rfl⟩)⟩))
      simp only [parseByte, if_true, parseHex, if_neg h1]
    · simp only [parseByte, if_true, parseHex, hd]
      by_cases h1 : isHex x = true
      · rw [if_pos h1]
        simp only []
        rw [if_neg]
        exact fun h => hx (.inr (.inr ⟨_, .inl h.symm⟩))
      · rw [if_neg h1]
  · have h1 : ¬ x = 0x20 := by
      rintro rfl
      exact hx (.inr (.inr ⟨v, .inr ⟨[], by simp⟩⟩))
    refine .inl ?_
    unfold parseLine
    rw [parseSym_symField]
    simp only [parseByte, if_neg h1]
  · have h1 : ¬ (x = 0x30 ∨ x = 0x31) := by
      rintro (rfl | rfl)
      · exact hx (.inr (.inr ⟨v, .inr ⟨ds ++ [false], by simp [digitByte]⟩⟩))
      · exact hx (.inr (.inr ⟨v, .inr ⟨ds ++ [true], by simp [digitByte]⟩⟩))
    by_cases h2 : x = 0x0A ∧ 1 ≤ ds.length ∧ ds.length ≤ 255
    · obtain ⟨rfl, h2⟩ := h2
      exact .inr ⟨v, ds, by simp [tableLine], h2⟩
    · refine .inl ?_
      have e : (symField v ++ [0x20] ++ ds.map digitByte).map Except.ok ++ Except.ok x :: r =
          (symField v).map Except.ok ++ (Except.ok 0x20 :: ((ds.map digitByte).map Except.ok ++ Except.ok x :: r)) := by
        simp
      unfold parseLine
      rw [e, parseSym_symField]
      simp only [parseByte, if_true, parseDigits_digits ds x r h1]
      split
      · rename_i h3
        rw [if_neg fun h4 => h2 ⟨h4, h3⟩]
      · rfl

/-! ### The whole text -/

/-- The text of a list of lines. -/
def linesText (lines : List (Sym × Bits)) : List Byte := lines.flatMap fun l => tableLine l.1 l.2

theorem length_tableLine_pos (v : Sym) (c : Bits) : 1 ≤ (tableLine v c).length := by
  simp [tableLine]; omega

/-- Lines at the start of the text, each of a symbol without a code and no symbol twice, are entered in the table. -/
theorem parseLines_linesText (lines : List (Sym × Bits)) (fuel line : Nat) (c : Table Bits) (rest : List Operand)
    (hn : (lines.map (·.1)).Nodup) (hl : ∀ l ∈ lines, 1 ≤ l.2.length ∧ l.2.length ≤ 255)
    (hc : ∀ l ∈ lines, entry c l.1 = []) (hf : (linesText lines).length + rest.length ≤ fuel) :
    ∃ fuel', rest.length ≤ fuel' ∧ parseLines fuel line c ((linesText lines).map Except.ok ++ rest) =
      parseLines fuel' (line + lines.length) (lines.foldl (fun c e => setEntry c e.1 e.2) c) rest := by
  induction lines generalizing fuel line c with
  | nil => exact ⟨fuel, by simpa [linesText] using hf, by simp [linesText]⟩
  | cons l lines ih =>
    obtain ⟨v, bits⟩ := l
    simp only [List.map_cons, List.nodup_cons] at hn
    have hpos := length_tableLine_pos v bits
    have e : linesText ((v, bits) :: lines) = tableLine v bits ++ linesText lines := rfl
    rw [e, List.length_append] at hf
    obtain ⟨f, rfl⟩ : ∃ f, fuel = f + 1 := ⟨fuel - 1, by omega⟩
    obtain ⟨o, t, ht⟩ : ∃ o t, (tableLine v bits).map Except.ok ++ ((linesText lines).map Except.ok ++ rest) = o :: t := by
      cases hx : (tableLine v bits) with
      | nil => rw [hx] at hpos; simp at hpos
      | cons b bs => exact ⟨_, _, rfl⟩
    have hp := parseLine_tableLine v bits ((linesText lines).map Except.ok ++ rest) (hl (v, bits) (by simp)).1
      (hl (v, bits) (by simp)).2
    obtain ⟨f', h1, h2⟩ := ih f (line + 1) (setEntry c v bits) hn.2 (fun l h => hl l (by simp [h])) (by
      intro l h
      rw [entry_setEntry, if_neg, hc l (by simp [h])]
      rintro rfl
      exact hn.1 (List.mem_map_of_mem h)) (by omega)
    refine ⟨f', h1, ?_⟩
    rw [e, List.map_append, List.append_assoc, ht, parseLines, ← ht, hp]
    simp only [hc (v, bits) (by simp), if_true]
    rw [h2, List.length_cons, List.foldl_cons]
    congr 1
    omega

/-- Everything the loop can answer on a text that its fuel covers: the text is lines of distinct new symbols and then
nothing (the table with them entered), or text that begins with no well-formed line of a new symbol (the index of that
line), or an unspecified byte in an unfinished line. -/
theorem parseLines_cases (fuel line : Nat) (c : Table Bits) (text : List Operand) (hf : text.length ≤ fuel) :
    ∃ (lines : List (Sym × Bits)) (rest : List Operand), text = (linesText lines).map Except.ok ++ rest ∧
      (lines.map (·.1)).Nodup ∧ (∀ l ∈ lines, 1 ≤ l.2.length ∧ l.2.length ≤ 255) ∧ (∀ l ∈ lines, entry c l.1 = []) ∧
      ((rest = [] ∧ parseLines fuel line c text =
          .ok (lines.foldl (fun c e => setEntry c e.1 e.2) c, line + lines.length)) ∨
        (rest ≠ [] ∧ (∀ v bits r, parseLine rest = .ok (v, bits) r →
            v ∈ lines.map (·.1) ∨ entry c v ≠ []) ∧
          parseLines fuel line c text = .error (.err .malformedEntry (BitVec.ofNat 32 (line + lines.length)))) ∨
        ∃ (seen : List Byte) (f : Fault) (r : List Operand), rest = seen.map Except.ok ++ .error f :: r ∧
          Unfinished rest.length seen ∧ parseLines fuel line c text = .error (.fault f)) := by
  induction fuel generalizing line c text with
  | zero =>
    obtain rfl := List.length_eq_zero_iff.1 (Nat.le_zero.1 hf)
    exact ⟨[], [], rfl, by simp, by simp, by simp, .inl ⟨rfl, rfl⟩⟩
  | succ fuel ih =>
    cases text with
    | nil => exact ⟨[], [], rfl, by simp, by simp, by simp, .inl ⟨rfl, rfl⟩⟩
    | cons o text =>
      cases hp : parseLine (o :: text) with
      | bad =>
        refine ⟨[], o :: text, rfl, by simp, by simp, by simp, .inr (.inl ⟨by simp, ?_, ?_⟩)⟩
        · intro v bits r h; rw [hp] at h; cases h
        · simp [parseLines, hp]
      | fault f =>
        obtain ⟨seen, r, e, hu⟩ := parseLine_fault hp
        have hf : Unfinished (o :: text).length seen ∧ parseLines (fuel + 1) line c (o :: text) = .error (.fault f) :=
          ⟨hu, by simp [parseLines, hp]⟩
        exact ⟨[], o :: text, rfl, by simp, by simp, by simp, .inr (.inr ⟨seen, f, r, e, hf⟩)⟩
      | ok a r =>
        obtain ⟨v, bits⟩ := a
        obtain ⟨ht, hl1, hl2⟩ := parseLine_ok hp
        by_cases hv : entry c v = []
        · have hlen : r.length ≤ fuel := by
            have := congrArg List.length ht
            have := length_tableLine_pos v bits
            simp only [List.length_cons, List.length_append, List.length_map] at *
            omega
          obtain ⟨lines, rest, h1, h2, h3, h4, h5⟩ := ih (line + 1) (setEntry c v bits) r hlen
          have hstep : parseLines (fuel + 1) line c (o :: text) = parseLines fuel (line + 1) (setEntry c v bits) r := by
            simp [parseLines, hp, hv]
          have hbits : bits ≠ [] := by rintro rfl; simp at hl1
          have hnotin : v ∉ lines.map (·.1) := by
            intro hm
            obtain ⟨l, hl, rfl⟩ := List.mem_map.1 hm
            have := h4 l hl
            rw [entry_setEntry, if_pos rfl] at this
            exact hbits this
          have h4' : ∀ l ∈ lines, entry c l.1 = [] := by
            intro l hl
            have := h4 l hl
            rwa [entry_setEntry, if_neg] at this
            rintro rfl
            exact hnotin (List.mem_map_of_mem hl)
          refine ⟨(v, bits) :: lines, rest, ?_, ?_, ?_, ?_, ?_⟩
          · rw [ht, h1]; simp [linesText]
          · simpa using ⟨by simpa using hnotin, h2⟩
          · intro l hl
            rcases List.mem_cons.1 hl with rfl | hl
            · exact ⟨hl1, hl2⟩
            · exact h3 l hl
          · intro l hl
            rcases List.mem_cons.1 hl with rfl | hl
            · exact hv
            · exact h4' l hl
          · rw [hstep]
            have e : line + ((v, bits) :: lines).length = line + 1 + lines.length := by simp; omega
            rw [e, List.foldl_cons]
            rcases h5 with h | ⟨g1, g2, g3⟩ | h
            · exact .inl h
            · refine .inr (.inl ⟨g1, ?_, g3⟩)
              intro u b x hx
              rcases g2 u b x hx with h | h
              · exact .inl (by simp [h])
              · rw [entry_setEntry] at h
                by_cases huv : u = v
                · exact .inl (by simp [huv])
                · rw [if_neg huv] at h; exact .inr h
            · exact .inr (.inr h)
        · refine ⟨[], o :: text, rfl, by simp, by simp, by simp, .inr (.inl ⟨by simp, ?_, ?_⟩)⟩
          · intro u b x h
            rw [hp] at h
            cases h
            exact .inr hv
          · simp [parseLines, hp, hv]

/-- The table a list of lines gives: each line's code at its symbol, no code elsewhere. -/
theorem entry_lines {lines : List (Sym × Bits)} (hn : (lines.map (·.1)).Nodup) (v : Sym) :
    (∀ c, (v, c) ∈ lines → entry (lines.foldl (fun c e => setEntry c e.1 e.2) (filled [])) v = c) ∧
      (v ∉ lines.map (·.1) → entry (lines.foldl (fun c e => setEntry c e.1 e.2) (filled [])) v = []) := by
  obtain ⟨h1, h2⟩ := entry_foldl_setEntry lines hn (filled []) v
  exact ⟨h1, fun h => by rw [h2 h, entry_filled]⟩

/-- ... and the number of its symbols is the number of lines. -/
theorem countEntries_lines {lines : List (Sym × Bits)} (hn : (lines.map (·.1)).Nodup)
    (hl : ∀ l ∈ lines, 1 ≤ l.2.length) :
    countEntries (!·.isEmpty) (lines.foldl (fun c e => setEntry c e.1 e.2) (filled [])) = lines.length := by
  rw [countEntries_eq, List.countP_eq_length_filter, ← List.length_map (f := (·.1)) (as := lines)]
  refine List.Perm.length_eq ((List.perm_ext_iff_of_nodup (allSyms_nodup.sublist List.filter_sublist) hn).2 ?_)
  intro s
  simp only [List.mem_filter, mem_allSyms, true_and, Bool.not_eq_true', List.isEmpty_eq_false_iff]
  constructor
  · intro h
    by_contra hs
    exact h ((entry_lines hn s).2 hs)
  · intro hs
    obtain ⟨⟨s', c⟩, hm, rfl⟩ := List.mem_map.1 hs
    rw [(entry_lines hn s').1 c hm]
    intro e
    have := hl _ hm
    simp [e] at this

/-! ### The prefix check -/

theorem codesConflict_iff (a b : Bits) : codesConflict a b = true ↔ a <+: b ∨ b <+: a := by
  simp [codesConflict, List.isPrefixOf_iff_prefix]

/-- Symbol `v` has a code that conflicts with another symbol's. -/
def Conflicts (c : Table Bits) (v : Sym) : Prop :=
  entry c v ≠ [] ∧ ∃ u, u ≠ v ∧ entry c u ≠ [] ∧ (entry c v <+: entry c u ∨ entry c u <+: entry c v)

theorem prefixFree_iff (c : Table Bits) : PrefixFree c ↔ ∀ v, ¬ Conflicts c v := by
  constructor
  · rintro h v ⟨hv, u, huv, hu, hp | hp⟩
    · exact h v u huv.symm hv hu hp
    · exact h u v huv hu hv hp
  · intro h s t hst hs ht hp
    exact h s ⟨hs, t, fun e => hst e.symm, ht, .inl hp⟩

/-- The check answers no symbol exactly on a prefix code. -/
theorem prefixConflict_none_iff (c : Table Bits) : prefixConflict c = none ↔ PrefixFree c := by
  rw [prefixFree_iff]
  simp only [prefixConflict, Option.map_eq_none_iff, List.find?_eq_none, List.mem_filter, List.any_eq_true,
    Bool.and_eq_true, bne_iff_ne, codesConflict_iff, Bool.not_eq_true', List.isEmpty_eq_false_iff, mem_entries]
  constructor
  · rintro h v ⟨hv, u, huv, hu, hp⟩
    exact h (v, entry c v) ⟨rfl, hv⟩ ⟨(u, entry c u), ⟨rfl, hu⟩, huv, hp⟩
  · rintro h ⟨v, x⟩ ⟨hx, hv⟩ ⟨⟨u, y⟩, ⟨hy, hu⟩, huv, hp⟩
    simp only at hx hv hy hu huv hp
    subst hx hy
    exact h v ⟨hv, u, huv, hu, hp⟩

/-- The check answers the least symbol in a conflict. -/
theorem prefixConflict_some_iff (c : Table Bits) (v : Sym) :
    prefixConflict c = some v ↔ Conflicts c v ∧ ∀ u : Sym, u.toNat < v.toNat → ¬ Conflicts c u := by
  have some_imp : ∀ v, prefixConflict c = some v → Conflicts c v ∧ ∀ u : Sym, u.toNat < v.toNat → ¬ Conflicts c u := by
    intro v h
    simp only [prefixConflict, Option.map_eq_some_iff] at h
    obtain ⟨⟨v', x⟩, h, rfl⟩ := h
    rw [List.find?_eq_some_iff_append] at h
    obtain ⟨hp, as, bs, hl, hno⟩ := h
    have sorted : ((entries c).filter fun e => !e.2.isEmpty).Pairwise fun a b => a.1.toNat < b.1.toNat := by
      refine List.Pairwise.filter _ ?_
      rw [entries_eq_map, List.pairwise_map]
      exact allSyms_sorted
    have mem : ∀ e : Sym × Bits, e ∈ as ++ (v', x) :: bs ↔ entry c e.1 = e.2 ∧ e.2 ≠ [] := by
      intro e
      rw [← hl]
      simp [List.mem_filter, mem_entries]
    have conf : ∀ e : Sym × Bits, e ∈ as ++ (v', x) :: bs →
        ((((entries c).filter fun e => !e.2.isEmpty).any fun e' => e'.1 != e.1 && codesConflict e.2 e'.2) = true ↔
          Conflicts c e.1) := by
      rintro ⟨a, y⟩ he
      obtain ⟨h1, h2⟩ := (mem _).1 he
      simp only at h1 h2
      subst h1
      simp only [List.mem_filter, List.any_eq_true, Bool.and_eq_true, bne_iff_ne, codesConflict_iff, Bool.not_eq_true',
        List.isEmpty_eq_false_iff, mem_entries, Conflicts]
      constructor
      · rintro ⟨⟨u, z⟩, ⟨hy, hz⟩, hu, hc⟩
        simp only at hy hz hu hc
        subst hy
        exact ⟨h2, u, hu, hz, hc⟩
      · rintro ⟨_, u, hu, hz, hc⟩; exact ⟨(u, entry c u), ⟨rfl, hz⟩, hu, hc⟩
    refine ⟨(conf _ (by simp)).1 hp, ?_⟩
    intro u hu hcu
    have hm : (u, entry c u) ∈ as ++ (v', x) :: bs := (mem _).2 ⟨rfl, hcu.1⟩
    have hm' : (u, entry c u) ∈ as := by
      rcases List.mem_append.1 hm with h | h
      · exact h
      · rw [hl, List.pairwise_append] at sorted
        rcases List.mem_cons.1 h with h | h
        · simp only [Prod.mk.injEq] at h
          rw [h.1] at hu
          simp at hu
        · have := (List.pairwise_cons.1 sorted.2.1).1 _ h
          simp only at this hu
          omega
    have := hno _ hm'
    rw [(conf _ hm).2 hcu] at this
    simp at this
  constructor
  · exact some_imp v
  · rintro ⟨h1, h2⟩
    cases hc : prefixConflict c with
    | none => exact absurd h1 ((prefixFree_iff c).1 ((prefixConflict_none_iff c).1 hc) v)
    | some u =>
      obtain ⟨g1, g2⟩ := some_imp u hc
      have : ¬ v.toNat < u.toNat := fun h => g2 v h h1
      have : ¬ u.toNat < v.toNat := fun h => h2 u h g1
      rw [BitVec.eq_of_toNat_eq (show u.toNat = v.toNat by omega)]

/-! ### SERIALIZE -/

/-- SERIALIZE's text is the text of the lines of the coded symbols in ascending order. -/
theorem tableText_eq (c : Table Bits) :
    tableText c = linesText ((allSyms.filter fun s => entry c s ≠ []).map fun s => (s, entry c s)) := by
  rw [tableText, entries_eq_map, linesText, List.flatMap_map, List.flatMap_map]
  generalize allSyms = l
  induction l with
  | nil => rfl
  | cons s l ih =>
    rw [List.flatMap_cons, ih]
    by_cases h : entry c s = []
    · simp [h]
    · simp [h]

theorem length_tableLine_le (v : Sym) (c : Bits) (h : c.length ≤ 255) : (tableLine v c).length ≤ 261 := by
  rcases symField_cases v with ⟨_, h2⟩ | ⟨_, h2⟩ <;> simp [tableLine, h2] <;> omega

/-- The text of a table with codes of at most 255 bits has at most 66816 bytes. -/
theorem length_tableText_le (c : Table Bits) (h : ∀ s, (entry c s).length ≤ 255) : (tableText c).length ≤ 66816 := by
  have key : ∀ l : List (Sym × Bits), (∀ e ∈ l, e.2.length ≤ 255) →
      (l.flatMap fun e => if e.2 = [] then [] else tableLine e.1 e.2).length ≤ 261 * l.length := by
    intro l
    induction l with
    | nil => simp
    | cons e l ih =>
      intro hl
      have h1 := ih (fun x hx => hl x (by simp [hx]))
      have h2 : (if e.2 = [] then [] else tableLine e.1 e.2).length ≤ 261 := by
        split
        · simp
        · exact length_tableLine_le _ _ (hl e (by simp))
      rw [List.flatMap_cons, List.length_append, List.length_cons]
      omega
  have := key (entries c) (by
    intro e he
    rw [← (mem_entries c e).1 he]
    exact h e.1)
  have hlen : (entries c).length = 256 := by rw [entries_eq_map, List.length_map, length_allSyms]
  rw [hlen] at this
  exact this

end Sys2Proof.Machine
end

