-- ==== Sys2Proof/Laws/Decoder.lean ====
section
/-! SUPPORT. What RECONSTRUCT's insertions and UNPACK's walk answer. -/

namespace Sys2Proof.Machine

/-- A code that can be inserted: no leaf of the tree lies on its path, and its path does not end at a Node. -/
def Insertable (t : PTree) (c : Bits) : Prop :=
  (∀ q u, subtreeAt t q = .leaf u → ¬ q <+: c) ∧ ∀ l r, subtreeAt t c ≠ .node l r

theorem insertable_empty (c : Bits) : Insertable .empty c := by
  constructor
  · intro q u h; simp at h
  · intro l r h; simp at h

theorem insertable_node {l r : PTree} {b : Bool} {c : Bits} (h : Insertable (.node l r) (b :: c)) :
    Insertable (if b then r else l) c := by
  constructor
  · intro q u hq hp
    exact h.1 (b :: q) u (by simpa using hq) (by simpa using hp)
  · intro x y hxy
    exact h.2 x y (by simpa using hxy)

/-- Inserting an insertable code succeeds. The new tree has the old leaves and the new one, a Node on the new path and
where there was one, and every Node of it has a leaf below it if that held before. -/
theorem insertLeaf_spec (t : PTree) (c : Bits) (s : Sym) (h : Insertable t c) :
    ∃ t', insertLeaf t c s = some t' ∧
      (∀ q u, subtreeAt t' q = .leaf u ↔ (q = c ∧ u = s) ∨ subtreeAt t q = .leaf u) ∧
      (∀ q, (∃ l r, subtreeAt t' q = .node l r) ↔ (q <+: c ∧ q ≠ c) ∨ ∃ l r, subtreeAt t q = .node l r) ∧
      (leafSyms t').Perm (s :: leafSyms t) ∧ (isTrimmed t = true → isTrimmed t' = true) := by
  induction c generalizing t with
  | nil =>
    cases t with
    | empty =>
      refine ⟨.leaf s, rfl, ?_, ?_, by simp [leafSyms], by simp [isTrimmed]⟩
      · intro q u; cases q <;> simp [eq_comm]
      · intro q
        cases q <;> simp
    | leaf u => exact absurd (List.nil_prefix) (h.1 [] u rfl)
    | node l r => exact absurd rfl (h.2 l r)
  | cons b c ih =>
    cases t with
    | leaf u => exact absurd (List.nil_prefix) (h.1 [] u rfl)
    | empty =>
      obtain ⟨t', h1, h2, h3, h4, h5⟩ := ih .empty (insertable_empty c)
      cases b
      · refine ⟨.node t' .empty, by simp [insertLeaf, h1], ?_, ?_, by simpa [leafSyms] using h4, ?_⟩
        · intro q u
          cases q with
          | nil => simp
          | cons b q => cases b <;> simp [h2]
        · intro q
          cases q with
          | nil => simp
          | cons b q => cases b <;> simp [h3]
        · intro _
          have hne : leafSyms t' ≠ [] := fun e => by rw [e] at h4; simpa using h4.length_eq
          simp [isTrimmed, h5 rfl, leafSyms, hne]
      · refine ⟨.node .empty t', by simp [insertLeaf, h1], ?_, ?_, by simpa [leafSyms] using h4, ?_⟩
        · intro q u
          cases q with
          | nil => simp
          | cons b q => cases b <;> simp [h2]
        · intro q
          cases q with
          | nil => simp
          | cons b q => cases b <;> simp [h3]
        · intro _
          have hne : leafSyms t' ≠ [] := fun e => by rw [e] at h4; simpa using h4.length_eq
          simp [isTrimmed, h5 rfl, leafSyms, hne]
    | node l r =>
      obtain ⟨t', h1, h2, h3, h4, h5⟩ := ih _ (insertable_node h)
      cases b
      · simp only [Bool.false_eq_true, if_false] at h1 h2 h3 h4 h5
        refine ⟨.node t' r, by simp [insertLeaf, h1], ?_, ?_, ?_, ?_⟩
        · intro q u
          cases q with
          | nil => simp
          | cons b q => cases b <;> simp [h2]
        · intro q
          cases q with
          | nil => simp
          | cons b q => cases b <;> simp [h3]
        · exact (h4.append_right _).trans (by simp [leafSyms])
        · intro ht
          simp only [isTrimmed, Bool.and_eq_true] at ht
          have hne : leafSyms t' ≠ [] := fun e => by rw [e] at h4; simpa using h4.length_eq
          simp [isTrimmed, h5 ht.1.1, ht.1.2, hne]
      · simp only [if_true] at h1 h2 h3 h4 h5
        refine ⟨.node l t', by simp [insertLeaf, h1], ?_, ?_, ?_, ?_⟩
        · intro q u
          cases q with
          | nil => simp
          | cons b q => cases b <;> simp [h2]
        · intro q
          cases q with
          | nil => simp
          | cons b q => cases b <;> simp [h3]
        · exact (h4.append_left _).trans (by simp [leafSyms, List.perm_middle])
        · intro ht
          simp only [isTrimmed, Bool.and_eq_true] at ht
          have hne : leafSyms t' ≠ [] := fun e => by rw [e] at h4; simpa using h4.length_eq
          simp [isTrimmed, ht.1.1, h5 ht.1.2, hne]

/-- The codes of a list do not conflict: none is a prefix of a later one or the other way round. -/
def CodesApart (es : List (Sym × Bits)) : Prop :=
  es.Pairwise fun a b => a.2 ≠ [] → b.2 ≠ [] → ¬ a.2 <+: b.2 ∧ ¬ b.2 <+: a.2

/-- Inserting a list of codes that do not conflict, each insertable into the tree. -/
theorem insertCodes_spec (es : List (Sym × Bits)) (t : PTree) (hp : CodesApart es)
    (hi : ∀ e ∈ es, e.2 ≠ [] → Insertable t e.2) :
    ∃ t', insertCodes t es = .ok t' ∧
      (∀ q u, subtreeAt t' q = .leaf u ↔ ((u, q) ∈ es ∧ q ≠ []) ∨ subtreeAt t q = .leaf u) ∧
      (∀ q, (∃ l r, subtreeAt t' q = .node l r) ↔
        (∃ e ∈ es, q <+: e.2 ∧ q ≠ e.2) ∨ ∃ l r, subtreeAt t q = .node l r) ∧
      (leafSyms t').Perm ((es.filter fun e => !e.2.isEmpty).map (·.1) ++ leafSyms t) ∧
      (isTrimmed t = true → isTrimmed t' = true) := by
  induction es generalizing t with
  | nil => exact ⟨t, rfl, by simp, by simp, by simp, id⟩
  | cons e es ih =>
    obtain ⟨s, c⟩ := e
    obtain ⟨hpe, hps⟩ := List.pairwise_cons.1 hp
    by_cases hc : c = []
    · subst hc
      obtain ⟨t', h1, h2, h3, h4, h5⟩ := ih t hps (fun e he => hi e (List.mem_cons_of_mem _ he))
      refine ⟨t', by simpa [insertCodes] using h1, ?_, ?_, by simpa using h4, h5⟩
      · intro q u
        rw [h2]
        constructor
        · rintro (⟨h, hq⟩ | h)
          · exact .inl ⟨List.mem_cons_of_mem _ h, hq⟩
          · exact .inr h
        · rintro (⟨h, hq⟩ | h)
          · rcases List.mem_cons.1 h with h | h
            · cases h; exact absurd rfl hq
            · exact .inl ⟨h, hq⟩
          · exact .inr h
      · intro q
        rw [h3]
        constructor
        · rintro (⟨e, he, h⟩ | h)
          · exact .inl ⟨e, List.mem_cons_of_mem _ he, h⟩
          · exact .inr h
        · rintro (⟨e, he, h, hq⟩ | h)
          · rcases List.mem_cons.1 he with rfl | he
            · exact absurd (List.prefix_nil.1 h) hq
            · exact .inl ⟨e, he, h, hq⟩
          · exact .inr h
    · obtain ⟨t1, g1, g2, g3, g4, g5⟩ := insertLeaf_spec t c s (hi (s, c) (List.mem_cons_self ..) hc)
      have hi1 : ∀ e ∈ es, e.2 ≠ [] → Insertable t1 e.2 := by
        intro e he hne
        have hold := hi e (List.mem_cons_of_mem _ he) hne
        have hapart := hpe e he hc hne
        constructor
        · intro q u hq
          rcases (g2 q u).1 hq with ⟨rfl, _⟩ | hq
          · exact hapart.1
          · exact hold.1 q u hq
        · intro l r hlr
          rcases (g3 e.2).1 ⟨l, r, hlr⟩ with ⟨h, _⟩ | ⟨l', r', h⟩
          · exact hapart.2 h
          · exact hold.2 l' r' h
      obtain ⟨t', h1, h2, h3, h4, h5⟩ := ih t1 hps hi1
      refine ⟨t', ?_, ?_, ?_, ?_, fun h => h5 (g5 h)⟩
      · simp only [insertCodes, hc, if_false, g1]
        exact h1
      · intro q u
        rw [h2, g2]
        constructor
        · rintro (⟨h, hq⟩ | ⟨rfl, rfl⟩ | h)
          · exact .inl ⟨List.mem_cons_of_mem _ h, hq⟩
          · exact .inl ⟨List.mem_cons_self .., hc⟩
          · exact .inr h
        · rintro (⟨h, hq⟩ | h)
          · rcases List.mem_cons.1 h with h | h
            · cases h; exact .inr (.inl ⟨rfl, rfl⟩)
            · exact .inl ⟨h, hq⟩
          · exact .inr (.inr h)
      · intro q
        rw [h3, g3]
        constructor
        · rintro (⟨e, he, h⟩ | h | h)
          · exact .inl ⟨e, List.mem_cons_of_mem _ he, h⟩
          · exact .inl ⟨(s, c), List.mem_cons_self .., h⟩
          · exact .inr h
        · rintro (⟨e, he, h⟩ | h)
          · rcases List.mem_cons.1 he with rfl | he
            · exact .inr (.inl h)
            · exact .inl ⟨e, he, h⟩
          · exact .inr (.inr h)
      · refine h4.trans ((g4.append_left _).trans ?_)
        have : ((s, c) :: es).filter (fun e => !e.2.isEmpty) = (s, c) :: es.filter (fun e => !e.2.isEmpty) := by
          simp [hc]
        rw [this, List.map_cons]
        exact List.perm_middle

/-- The entries of a prefix-free table do not conflict. -/
theorem codesApart_of_prefixFree {c : Table Bits} (h : PrefixFree c) : CodesApart (entries c) := by
  rw [CodesApart, entries_eq_map, List.pairwise_map]
  refine List.Pairwise.imp ?_ allSyms_sorted
  intro a b hab ha hb
  have hne : a ≠ b := by rintro rfl; omega
  exact ⟨h a b hne ha hb, h b a hne.symm hb ha⟩

/-- RECONSTRUCT of a prefix-free table. -/
theorem insertCodes_entries {c : Table Bits} (h : PrefixFree c) :
    ∃ t, insertCodes .empty (entries c) = .ok t ∧
      (∀ q u, subtreeAt t q = .leaf u ↔ entry c u = q ∧ q ≠ []) ∧
      (∀ q, (∃ l r, subtreeAt t q = .node l r) ↔ ∃ v, q <+: entry c v ∧ q ≠ entry c v) ∧
      (leafSyms t).Nodup ∧ isTrimmed t = true := by
  obtain ⟨t, h1, h2, h3, h4, h5⟩ := insertCodes_spec (entries c) .empty (codesApart_of_prefixFree h)
    (fun e _ _ => insertable_empty e.2)
  refine ⟨t, h1, ?_, ?_, ?_, h5 rfl⟩
  · intro q u; rw [h2]; simp [mem_entries]
  · intro q
    rw [h3]
    simp only [subtreeAt_empty, reduceCtorEq, exists_false, or_false]
    constructor
    · rintro ⟨e, he, hq⟩; exact ⟨e.1, by rwa [(mem_entries c e).1 he]⟩
    · rintro ⟨v, hv⟩; exact ⟨(v, entry c v), (mem_entries _ _).2 rfl, hv⟩
  · rw [h4.nodup_iff]
    simp only [leafSyms, List.append_nil]
    have hs : ((entries c).map (·.1)).Nodup := by
      rw [entries_eq_map, List.map_map]
      simpa [Function.comp_def] using allSyms_nodup
    exact hs.sublist ((List.filter_sublist).map _)

/-! ### The walk -/

theorem child_eq_subtreeAt (t : PTree) (b : Bool) : child t b = subtreeAt t [b] := by
  cases t <;> rfl

/-- A child of a subtree is the subtree one bit further on. -/
theorem child_subtreeAt (t : PTree) (p : Bits) (b : Bool) : child (subtreeAt t p) b = subtreeAt t (p ++ [b]) := by
  rw [child_eq_subtreeAt, subtreeAt_append]

theorem walkRoot_isNode (t : PTree) : ∃ l r, walkRoot t = .node l r := by
  cases t <;> exact ⟨_, _, rfl⟩

/-- A subtree reached before a leaf is a Node. -/
theorem subtreeAt_node_of_leaf {t : PTree} {p q : Bits} {s : Sym} (h : subtreeAt t (p ++ q) = .leaf s) (hq : q ≠ []) :
    ∃ l r, subtreeAt t p = .node l r := by
  rw [subtreeAt_append] at h
  cases hp : subtreeAt t p with
  | node l r => exact ⟨l, r, rfl⟩
  | empty => rw [hp] at h; simp at h
  | leaf u =>
    rw [hp] at h
    cases q with
    | nil => exact absurd rfl hq
    | cons b q => simp at h

/-- The walk along a path that stays at Nodes: it reads the bits and emits nothing. -/
theorem walkBits_partial (limit : Option Nat) (cap : Nat) (root : PTree) (p0 p : Bits) (j k last : Nat)
    (rest : List (Except Fault Bool)) (hlim : limit ≠ some k)
    (h : ∃ l r, subtreeAt root (p0 ++ p) = .node l r) :
    walkBits limit cap root (subtreeAt root p0) j k last (p.map Except.ok ++ rest) =
      walkBits limit cap root (subtreeAt root (p0 ++ p)) (j + p.length) k last rest := by
  induction p generalizing p0 j with
  | nil => simp
  | cons b p ih =>
    have hnode : ∃ l r, subtreeAt root (p0 ++ [b]) = .node l r := by
      obtain ⟨l, r, h⟩ := h
      rw [show p0 ++ b :: p = (p0 ++ [b]) ++ p by simp, subtreeAt_append] at h
      cases hp : subtreeAt root (p0 ++ [b]) with
      | node l r => exact ⟨l, r, rfl⟩
      | empty => rw [hp] at h; simp at h
      | leaf u => rw [hp] at h; cases p <;> simp at h
    obtain ⟨l, r, hlr⟩ := hnode
    have := ih (p0 ++ [b]) (j + 1) (by simpa using h)
    rw [List.map_cons, List.cons_append, walkBits, if_neg hlim]
    simp only [child_subtreeAt, hlr]
    rw [← hlr, this]
    simp only [List.append_assoc, List.singleton_append, List.length_cons]
    congr 1
    omega

/-- The walk along the path of a symbol emits it and returns to the root. -/
theorem walkBits_symbol (limit : Option Nat) (cap : Nat) (root : PTree) (p : Bits) (s : Sym) (j k last : Nat)
    (rest : List (Except Fault Bool)) (hroot : ∃ l r, root = .node l r) (hlim : limit ≠ some k) (hcap : k ≠ cap)
    (h : subtreeAt root p = .leaf s) :
    walkBits limit cap root root j k last (p.map Except.ok ++ rest) =
      match walkBits limit cap root root (j + p.length) (k + 1) (j + p.length) rest with
      | .ok (syms, last) => .ok (s :: syms, last)
      | .error e => .error e := by
  have hp : p ≠ [] := by
    rintro rfl
    obtain ⟨l, r, rfl⟩ := hroot
    simp at h
  obtain ⟨q, b, rfl⟩ : ∃ q b, p = q ++ [b] := ⟨p.dropLast, p.getLast hp, (List.dropLast_append_getLast hp).symm⟩
  have hq := subtreeAt_node_of_leaf h (by simp)
  have hw := walkBits_partial limit cap root [] q j k last (.ok b :: rest) hlim (by simpa using hq)
  simp only [subtreeAt_nil, List.nil_append] at hw
  rw [List.map_append, List.append_assoc, List.map_singleton, List.singleton_append, hw, walkBits, if_neg hlim]
  simp only [child_subtreeAt, h, if_neg hcap, List.length_append, List.length_singleton]
  rfl

/-- The walk along a list of paths to symbols emits the symbols. -/
theorem walkBits_walked (limit : Option Nat) (cap : Nat) (root : PTree) (walked : List (Sym × Bits))
    (j k last : Nat) (rest : List (Except Fault Bool)) (hroot : ∃ l r, root = .node l r)
    (hlim : ∀ n, limit = some n → k + walked.length ≤ n) (hcap : k + walked.length ≤ cap)
    (h : ∀ e ∈ walked, subtreeAt root e.2 = .leaf e.1) :
    walkBits limit cap root root j k last ((walked.flatMap (·.2)).map Except.ok ++ rest) =
      match walkBits limit cap root root (j + (walked.flatMap (·.2)).length) (k + walked.length)
        (if walked = [] then last else j + (walked.flatMap (·.2)).length) rest with
      | .ok (more, last) => .ok (walked.map (·.1) ++ more, last)
      | .error e => .error e := by
  induction walked generalizing j k last with
  | nil =>
    simp only [List.flatMap_nil, List.map_nil, List.nil_append, List.length_nil, Nat.add_zero, if_true]
    split <;> simp_all
  | cons e walked ih =>
    obtain ⟨s, p⟩ := e
    simp only [List.length_cons] at hlim hcap
    have hl : limit ≠ some k := fun e => by have := hlim k e; omega
    rw [List.flatMap_cons, List.map_append, List.append_assoc,
      walkBits_symbol limit cap root p s j k last _ hroot hl (by omega) (h (s, p) (List.mem_cons_self ..)),
      ih (j + p.length) (k + 1) (j + p.length) (fun n e => by have := hlim n e; omega) (by omega)
        (fun u hu => h u (List.mem_cons_of_mem _ hu))]
    have e1 : k + 1 + walked.length = k + (walked.length + 1) := by omega
    have e2 : j + p.length + (walked.flatMap (·.2)).length = j + (p ++ walked.flatMap (·.2)).length := by
      rw [List.length_append]; omega
    have e3 : (if walked = [] then j + p.length else j + p.length + (walked.flatMap (·.2)).length) =
        j + (p ++ walked.flatMap (·.2)).length := by
      split
      · rename_i h; subst h; simp
      · exact e2
    rw [e3, e2, e1]
    simp only [List.length_cons, reduceCtorEq, if_false]
    cases walkBits limit cap root root (j + (p ++ walked.flatMap (·.2)).length) (k + (walked.length + 1))
      (j + (p ++ walked.flatMap (·.2)).length) rest <;> rfl

/-- The walk along the paths of a list of symbols emits them all. -/
theorem walkBits_symbols (limit : Option Nat) (cap : Nat) (root : PTree) (path : Sym → Bits) (syms : List Sym)
    (j k last : Nat) (rest : List (Except Fault Bool)) (hroot : ∃ l r, root = .node l r)
    (hlim : ∀ n, limit = some n → k + syms.length ≤ n) (hcap : k + syms.length ≤ cap)
    (h : ∀ s ∈ syms, subtreeAt root (path s) = .leaf s) :
    walkBits limit cap root root j k last ((syms.flatMap path).map Except.ok ++ rest) =
      match walkBits limit cap root root (j + (syms.flatMap path).length) (k + syms.length)
        (if syms = [] then last else j + (syms.flatMap path).length) rest with
      | .ok (more, last) => .ok (syms ++ more, last)
      | .error e => .error e := by
  simpa [List.flatMap_map, Function.comp_def] using
    walkBits_walked limit cap root (syms.map fun s => (s, path s)) j k last rest hroot (by simpa using hlim)
      (by simpa using hcap) (by simpa using h)

/-- The walk faults only at the first unspecified bit, and only while it has not ended: the bits before it are the paths of
emitted symbols and a partial path. -/
theorem walkBits_fault (limit : Option Nat) (cap : Nat) (root : PTree) (p0 : Bits) (j k last : Nat)
    (bits : List (Except Fault Bool)) (f : Fault) (hroot : ∃ l r, root = .node l r)
    (hp0 : ∃ l r, subtreeAt root p0 = .node l r) (hk : k ≤ cap) (hlim : ∀ n, limit = some n → k ≤ n)
    (h : walkBits limit cap root (subtreeAt root p0) j k last bits = .error (.fault f)) :
    ∃ (paths : List Bits) (tail : Bits) (r : List (Except Fault Bool)),
      p0.map Except.ok ++ bits = (paths.flatten ++ tail).map Except.ok ++ .error f :: r ∧
      (∀ p ∈ paths, ∃ v, subtreeAt root p = .leaf v) ∧ (∃ l r, subtreeAt root tail = .node l r) ∧
      k + paths.length ≤ cap ∧ ∀ n, limit = some n → k + paths.length < n := by
  induction bits generalizing p0 j k last with
  | nil =>
    simp only [walkBits] at h
    split at h
    · cases h
    · split at h <;> cases h
  | cons bit bits ih =>
    simp only [walkBits] at h
    split at h
    · cases h
    rename_i hne
    have hlt : ∀ n, limit = some n → k < n := fun n hn => by
      have := hlim n hn
      have : k ≠ n := fun e => hne (e ▸ hn)
      omega
    cases bit with
    | error g =>
      cases h
      exact ⟨[], p0, bits, by simp, by simp, hp0, by simpa using hk, by simpa using hlt⟩
    | ok b =>
      simp only [child_subtreeAt] at h
      cases hc : subtreeAt root (p0 ++ [b]) with
      | empty => rw [hc] at h; cases h
      | leaf s =>
        rw [hc] at h
        simp only [] at h
        split at h
        · cases h
        rename_i hcap
        have hw : walkBits limit cap root (subtreeAt root []) (j + 1) (k + 1) (j + 1) bits = .error (.fault f) := by
          rw [subtreeAt_nil]
          split at h
          · cases h
          · rename_i e; cases h; exact e
        obtain ⟨paths, tail, r, e1, e2, e3, e4, e5⟩ :=
          ih [] (j + 1) (k + 1) (j + 1) (by simpa using hroot) (by omega) (fun n hn => hlt n hn) hw
        refine ⟨(p0 ++ [b]) :: paths, tail, r, ?_, ?_, e3, by simp only [List.length_cons]; omega,
          fun n hn => by have := e5 n hn; simp only [List.length_cons]; omega⟩
        · simp only [List.map_nil, List.nil_append] at e1
          simp [e1]
        · intro p hp
          rcases List.mem_cons.1 hp with rfl | hp
          · exact ⟨s, hc⟩
          · exact e2 p hp
      | node l r =>
        rw [hc] at h
        simp only [] at h
        rw [← hc] at h
        obtain ⟨paths, tail, r, e1, e2⟩ := ih (p0 ++ [b]) (j + 1) k last ⟨_, _, hc⟩ hk hlim h
        exact ⟨paths, tail, r, by simpa using e1, e2⟩

end Sys2Proof.Machine
end

