-- ==== Sys2Proof/Laws/Encoder.lean ====
section
/-! SUPPORT. What COUNT's tally, BUILD's queue and merge loop, and PACK's bit list answer. -/

namespace Sys2Proof.Machine

/-! ### COUNT -/

theorem entry_foldl_tally (bs : List Byte) (f : Table Word) (v : Sym) :
    entry (bs.foldl (fun f b => setEntry f b (entry f b + 1)) f) v = entry f v + BitVec.ofNat 32 (bs.count v) := by
  induction bs generalizing f with
  | nil => simp
  | cons b bs ih =>
    rw [List.foldl_cons, ih, entry_setEntry, List.count_cons]
    by_cases h : v = b
    · subst h
      simp only [if_true, beq_self_eq_true]
      rw [BitVec.add_assoc]
      congr 1
      apply BitVec.eq_of_toNat_eq
      simp [Nat.add_comm]
    · rw [if_neg h, if_neg (by simpa using fun e => h e.symm), Nat.add_zero]

/-- COUNT's table: the number of occurrences of each byte. -/
theorem entry_tally (bs : List Byte) (hb : bs.length < 2 ^ 32) (v : Sym) :
    (entry (tally bs) v).toNat = bs.count v := by
  have hc : bs.count v ≤ bs.length := List.count_le_length
  rw [tally, entry_foldl_tally, entry_filled]
  simp only [BitVec.ofNat_eq_ofNat, BitVec.zero_add, BitVec.toNat_ofNat]
  exact Nat.mod_eq_of_lt (by omega)

/-- A present symbol of COUNT's table is a byte that occurs. -/
theorem entry_tally_ne_zero (bs : List Byte) (hb : bs.length < 2 ^ 32) (v : Sym) :
    entry (tally bs) v ≠ 0 ↔ v ∈ bs := by
  rw [← List.count_pos_iff, ← entry_tally bs hb v, ne_eq, BitVec.toNat_eq]
  rw [show (0 : Word).toNat = 0 from rfl]
  omega

/-! ### BUILD: the queue -/

/-- `extractMin` answers an element that no other precedes, and the others. -/
theorem extractMin_spec (e : QElem) (xs : List QElem) :
    (e :: xs).Perm ((extractMin e xs).1 :: (extractMin e xs).2) ∧
      ∀ x ∈ (extractMin e xs).2, x.before (extractMin e xs).1 = false := by
  have irrefl : ∀ x : QElem, x.before x = false := by intro x; simp [QElem.before]
  have trans : ∀ x y z : QElem, x.before y = false → y.before z = false → x.before z = false := by
    intro x y z
    simp only [QElem.before, Bool.or_eq_false_iff, Bool.and_eq_false_iff, decide_eq_false_iff_not, beq_eq_false_iff_ne]
    omega
  have asymm : ∀ x y : QElem, x.before y = true → y.before x = false := by
    intro x y
    simp only [QElem.before, Bool.or_eq_true, Bool.and_eq_true, decide_eq_true_eq, beq_iff_eq, Bool.or_eq_false_iff,
      Bool.and_eq_false_iff, decide_eq_false_iff_not, beq_eq_false_iff_ne]
    omega
  have min_le : ∀ (e : QElem) (xs : List QElem), e.before (extractMin e xs).1 = false := by
    intro e xs
    induction xs generalizing e with
    | nil => exact irrefl e
    | cons x xs ih =>
      simp only [extractMin]
      split
      · rename_i h
        exact trans _ _ _ (asymm _ _ h) (ih x)
      · exact ih e
  induction xs generalizing e with
  | nil => simp [extractMin]
  | cons x xs ih =>
    simp only [extractMin]
    split
    · rename_i h
      obtain ⟨h1, h2⟩ := ih x
      refine ⟨((h1.cons e).trans (List.Perm.swap ..)), ?_⟩
      intro y hy
      rcases List.mem_cons.1 hy with rfl | hy
      · exact trans _ _ _ (asymm _ _ h) (min_le x xs)
      · exact h2 y hy
    · rename_i h
      obtain ⟨h1, h2⟩ := ih e
      refine ⟨(List.Perm.swap ..).trans ((h1.cons x).trans (List.Perm.swap ..)), ?_⟩
      intro y hy
      rcases List.mem_cons.1 hy with rfl | hy
      · exact trans _ _ _ (by simpa using h) (min_le e xs)
      · exact h2 y hy

theorem length_extractMin (e : QElem) (xs : List QElem) : (extractMin e xs).2.length = xs.length := by
  have := (extractMin_spec e xs).1.length_eq
  simpa using this.symm

/-- Of two elements with different sequence numbers one precedes the other. -/
theorem before_total {x y : QElem} (h : x.q ≠ y.q) : x.before y = false ↔ y.before x = true := by
  simp only [QElem.before, Bool.or_eq_true, Bool.and_eq_true, decide_eq_true_eq, beq_iff_eq, Bool.or_eq_false_iff,
    Bool.and_eq_false_iff, decide_eq_false_iff_not, beq_eq_false_iff_ne]
  omega

/-- One merge: what the loop does with a queue of two or more elements. -/
theorem mergeLoop_step (fuel q : Nat) (e x : QElem) (xs : List QElem) :
    ∃ a b R, (e :: x :: xs).Perm (a :: b :: R) ∧ R.length = xs.length ∧
      (∀ y ∈ b :: R, y.before a = false) ∧ (∀ y ∈ R, y.before b = false) ∧
      mergeLoop (fuel + 1) q e (x :: xs) = mergeLoop fuel (q + 1) ⟨a.w + b.w, q, .node a.t b.t⟩ R := by
  obtain ⟨p1, m1⟩ := extractMin_spec e (x :: xs)
  have l1 := length_extractMin e (x :: xs)
  cases hR : (extractMin e (x :: xs)).2 with
  | nil => rw [hR] at l1; simp at l1
  | cons y ys =>
    obtain ⟨p2, m2⟩ := extractMin_spec y ys
    have l2 := length_extractMin y ys
    rw [hR] at p1 m1 l1
    refine ⟨(extractMin e (x :: xs)).1, (extractMin y ys).1, (extractMin y ys).2, p1.trans (p2.cons _), ?_, ?_, m2, ?_⟩
    · simp only [List.length_cons] at l1; omega
    · intro z hz; exact m1 z (p2.mem_iff.2 hz)
    · simp only [mergeLoop, hR]

/-- The merge loop's tree: full when the queued trees are, with exactly their leaves. -/
theorem mergeLoop_full (q : Nat) (e : QElem) (xs : List QElem) (h : ∀ x ∈ e :: xs, isFull x.t = true) :
    isFull (mergeLoop xs.length q e xs) = true ∧
      (leafSyms (mergeLoop xs.length q e xs)).Perm ((e :: xs).flatMap fun x => leafSyms x.t) := by
  generalize hn : xs.length = n
  induction n generalizing q e xs with
  | zero =>
    obtain rfl := List.length_eq_zero_iff.1 hn
    simp only [mergeLoop, List.flatMap_cons, List.flatMap_nil, List.append_nil]
    exact ⟨h e (by simp), .refl _⟩
  | succ n ih =>
    obtain ⟨x, xs, rfl⟩ : ∃ x ys, xs = x :: ys := by
      cases xs with
      | nil => simp at hn
      | cons x ys => exact ⟨x, ys, rfl⟩
    obtain ⟨a, b, R, hp, hl, -, -, he⟩ := mergeLoop_step n q e x xs
    have hR : ∀ y ∈ a :: b :: R, isFull y.t = true := fun y hy => h y (hp.mem_iff.2 hy)
    obtain ⟨h1, h2⟩ := ih (q + 1) ⟨a.w + b.w, q, .node a.t b.t⟩ R (by
      intro y hy
      rcases List.mem_cons.1 hy with rfl | hy
      · simp [isFull, hR a (by simp), hR b (by simp)]
      · exact hR y (by simp [hy])) (by simp at hn; omega)
    rw [he]
    refine ⟨h1, h2.trans ?_⟩
    refine List.Perm.trans ?_ (hp.flatMap_right _).symm
    simp [leafSyms]

/-- The merge loop follows the queue order, when the sequence numbers are distinct and below the next one. -/
theorem mergeLoop_merges (q : Nat) (e : QElem) (xs : List QElem) (hn : ((e :: xs).map (·.q)).Nodup)
    (hq : ∀ x ∈ e :: xs, x.q < q) : Merges (e :: xs) q (mergeLoop xs.length q e xs) := by
  generalize hl : xs.length = n
  induction n generalizing q e xs with
  | zero =>
    obtain rfl := List.length_eq_zero_iff.1 hl
    simp only [mergeLoop]
    exact .done e q
  | succ n ih =>
    obtain ⟨x, xs, rfl⟩ : ∃ x ys, xs = x :: ys := by
      cases xs with
      | nil => simp at hl
      | cons x ys => exact ⟨x, ys, rfl⟩
    obtain ⟨a, b, R, hp, hlr, ha, hb, he⟩ := mergeLoop_step n q e x xs
    have hn' : ((a :: b :: R).map (·.q)).Nodup := ((hp.map _).nodup_iff).1 hn
    have hq' : ∀ y ∈ a :: b :: R, y.q < q := fun y hy => hq y (hp.mem_iff.2 hy)
    simp only [List.map_cons, List.nodup_cons, List.mem_cons, List.mem_map, not_or, not_exists, not_and] at hn'
    obtain ⟨⟨hab, haR⟩, hbR, hRR⟩ := hn'
    rw [he]
    refine .merge _ a b R q _ hp ?_ ?_ (ih (q + 1) _ R ?_ ?_ (by simp at hl; omega))
    · intro y hy
      refine (before_total ?_).1 (ha y hy)
      rcases List.mem_cons.1 hy with rfl | hy
      · exact fun e => hab e.symm
      · exact haR y hy
    · intro y hy
      exact (before_total (hbR y hy)).1 (hb y hy)
    · simp only [List.map_cons, List.nodup_cons, List.mem_map, not_exists, not_and]
      exact ⟨fun y hy e => by have := hq' y (by simp [hy]); omega, hRR⟩
    · intro y hy
      rcases List.mem_cons.1 hy with rfl | hy
      · simp
      · have := hq' y (by simp [hy]); omega

theorem presentSyms_eq_map (f : Table Word) :
    presentSyms f = (allSyms.filter fun s => entry f s ≠ 0).map fun s => (s, entry f s) := by
  rw [presentSyms, entries_eq_map, List.filter_map]
  congr 1
  apply List.filter_congr
  intro s _
  rw [Bool.eq_iff_iff]
  simp

theorem leafQueue_eq_zipIdx (es : List (Sym × Word)) (q : Nat) :
    leafQueue q es = (es.zipIdx q).map fun e => ⟨e.1.2.toNat, e.2, .leaf e.1.1⟩ := by
  induction es generalizing q with
  | nil => rfl
  | cons e es ih => simp [leafQueue, ih]

/-- The first queue: one leaf per present symbol, numbered in ascending symbol order. -/
theorem leafQueue_present (f : Table Word) : leafQueue 0 (presentSyms f) = startQueue f := by
  rw [leafQueue_eq_zipIdx, presentSyms_eq_map, startQueue, List.zipIdx_map, List.map_map]
  rfl

theorem startQueue_q (f : Table Word) : (startQueue f).map (·.q) = List.range (startQueue f).length := by
  simp only [startQueue, List.map_map, List.length_map, List.length_zipIdx]
  rw [List.range_eq_range', ← List.zipIdx_map_snd 0]
  rfl

theorem startQueue_leaves (f : Table Word) :
    (startQueue f).map (·.t) = (allSyms.filter fun s => entry f s ≠ 0).map .leaf := by
  simp only [startQueue, List.map_map]
  rw [show ((fun x : QElem => x.t) ∘ fun e : Sym × Nat => (⟨(entry f e.1).toNat, e.2, .leaf e.1⟩ : QElem)) =
    PTree.leaf ∘ Prod.fst from rfl, ← List.map_map, List.zipIdx_map_fst]

/-- What BUILD's tree is: none for an all-zero table; else a full tree whose leaves are the present symbols, reached from
the first queue by the merge loop in the order of R67. -/
theorem buildTree_cases (f : Table Word) :
    ((∀ v, entry f v = 0) ∧ buildTree f = none) ∨
      ∃ t, buildTree f = some t ∧ isFull t = true ∧
        (leafSyms t).Perm (allSyms.filter fun s => entry f s ≠ 0) ∧ Merges (startQueue f) (startQueue f).length t := by
  have hq := startQueue_q f
  have ht := startQueue_leaves f
  unfold buildTree
  rw [leafQueue_present]
  cases hs : startQueue f with
  | nil =>
    left
    refine ⟨fun v => ?_, rfl⟩
    rw [hs, List.map_nil] at ht
    have := List.map_eq_nil_iff.1 ht.symm
    rw [List.filter_eq_nil_iff] at this
    have := this v (mem_allSyms v)
    simpa using this
  | cons e es =>
    right
    rw [hs] at hq ht
    have hleaf : ∀ x ∈ e :: es, ∃ v, x.t = .leaf v := by
      intro x hx
      have : x.t ∈ (e :: es).map (·.t) := List.mem_map_of_mem hx
      rw [ht, List.mem_map] at this
      obtain ⟨v, _, hv⟩ := this
      exact ⟨v, hv.symm⟩
    obtain ⟨h1, h2⟩ := mergeLoop_full (es.length + 1) e es (by
      intro x hx
      obtain ⟨v, hv⟩ := hleaf x hx
      simp [hv, isFull])
    refine ⟨_, rfl, h1, h2.trans ?_, mergeLoop_merges (es.length + 1) e es ?_ ?_⟩
    · rw [← List.flatMap_map (f := fun x : QElem => x.t) (g := leafSyms), ht, List.flatMap_map]
      simp only [leafSyms]
      rw [List.flatMap_singleton']
    · rw [hq]; exact List.nodup_range
    · intro x hx
      have : x.q ∈ (e :: es).map (·.q) := List.mem_map_of_mem hx
      rw [hq, List.mem_range] at this
      simpa using this

/-- The number of present symbols. -/
theorem length_present (f : Table Word) :
    (allSyms.filter fun s => entry f s ≠ 0).length = countEntries (· != 0) f := by
  rw [countEntries_eq, List.countP_eq_length_filter]
  congr 1
  apply List.filter_congr
  intro s _
  rw [Bool.eq_iff_iff]
  simp

/-- The number of symbols a table gives a code. -/
theorem length_coded (c : Table Bits) :
    (allSyms.filter fun s => entry c s ≠ []).length = countEntries (!·.isEmpty) c := by
  rw [countEntries_eq, List.countP_eq_length_filter]
  congr 1
  apply List.filter_congr
  intro s _
  by_cases h : entry c s = [] <;> simp [h]

/-! ### GEN -/

/-- GEN codes exactly the leaves. -/
theorem entry_genTable_ne_nil {t : PTree} (h : (leafSyms t).Nodup) (s : Sym) :
    entry (genTable t) s ≠ [] ↔ s ∈ leafSyms t := by
  constructor
  · intro hs
    by_contra hn
    exact hs (entry_genTable_eq_nil h s hn)
  · intro hs
    rw [← assignedCodes_map_fst, List.mem_map] at hs
    obtain ⟨⟨s', p⟩, hm, rfl⟩ := hs
    have := (entry_genTable h s' p).2 ((mem_assignedCodes_iff t s' p).1 hm)
    simp only [this.1]
    exact this.2

theorem countEntries_genTable {t : PTree} (h : (leafSyms t).Nodup) :
    countEntries (!·.isEmpty) (genTable t) = (leafSyms t).length := by
  rw [← length_coded]
  refine List.Perm.length_eq ((List.perm_ext_iff_of_nodup (allSyms_nodup.sublist List.filter_sublist) h).2 ?_)
  intro s
  rw [List.mem_filter, ← entry_genTable_ne_nil h]
  simp [mem_allSyms]

/-- GEN's codes form a prefix code. -/
theorem prefixFree_genTable {t : PTree} (h : (leafSyms t).Nodup) : PrefixFree (genTable t) := by
  intro s u hsu hs hu
  exact path_not_prefix ((entry_genTable h s _).1 ⟨rfl, hs⟩) ((entry_genTable h u _).1 ⟨rfl, hu⟩) hsu

/-! ### PACK -/

/-- The bit list of bytes that all have a code. -/
theorem encodeBits_ok (c : Table Bits) (i : Nat) (bs : List Byte) (h : ∀ b ∈ bs, entry c b ≠ []) :
    encodeBits c i (bs.map Except.ok) = .ok (bs.flatMap (entry c)) := by
  induction bs generalizing i with
  | nil => rfl
  | cons b bs ih =>
    simp only [List.map_cons, encodeBits, if_neg (h b (by simp)), ih (i + 1) (fun x hx => h x (by simp [hx])),
      List.flatMap_cons]

/-- The first byte without a code is reported, whatever follows it. -/
theorem encodeBits_missing (c : Table Bits) (i : Nat) (bs : List Byte) (b : Byte) (rest : List Operand)
    (h : ∀ b ∈ bs, entry c b ≠ []) (hb : entry c b = []) :
    encodeBits c i (bs.map Except.ok ++ .ok b :: rest) = .error (.err .missingCode (BitVec.ofNat 32 (i + bs.length))) := by
  induction bs generalizing i with
  | nil => simp [encodeBits, hb]
  | cons x bs ih =>
    simp only [List.map_cons, List.cons_append, encodeBits, if_neg (h x (by simp)),
      ih (i + 1) (fun y hy => h y (by simp [hy])), List.length_cons]
    rw [show i + 1 + bs.length = i + (bs.length + 1) by omega]

/-- The first unspecified byte faults, when every byte before it has a code. -/
theorem encodeBits_fault (c : Table Bits) (i : Nat) (bs : List Byte) (f : Fault) (rest : List Operand)
    (h : ∀ b ∈ bs, entry c b ≠ []) : encodeBits c i (bs.map Except.ok ++ .error f :: rest) = .error (.fault f) := by
  induction bs generalizing i with
  | nil => rfl
  | cons x bs ih =>
    simp only [List.map_cons, List.cons_append, encodeBits, if_neg (h x (by simp)),
      ih (i + 1) (fun y hy => h y (by simp [hy]))]

/-- Everything `encodeBits` can answer. -/
theorem encodeBits_cases (c : Table Bits) (i : Nat) (os : List Operand) :
    (∃ bs : List Byte, os = bs.map Except.ok ∧ (∀ b ∈ bs, entry c b ≠ []) ∧
        encodeBits c i os = .ok (bs.flatMap (entry c))) ∨
      (∃ (bs : List Byte) (b : Byte) (rest : List Operand), os = bs.map Except.ok ++ .ok b :: rest ∧
        (∀ b ∈ bs, entry c b ≠ []) ∧ entry c b = [] ∧
        encodeBits c i os = .error (.err .missingCode (BitVec.ofNat 32 (i + bs.length)))) ∨
      ∃ (bs : List Byte) (f : Fault) (rest : List Operand), os = bs.map Except.ok ++ .error f :: rest ∧
        (∀ b ∈ bs, entry c b ≠ []) ∧ encodeBits c i os = .error (.fault f) := by
  have split : (∃ bs : List Byte, os = bs.map Except.ok ∧ (∀ b ∈ bs, entry c b ≠ [])) ∨
      (∃ (bs : List Byte) (b : Byte) (rest : List Operand), os = bs.map Except.ok ++ .ok b :: rest ∧
        (∀ b ∈ bs, entry c b ≠ []) ∧ entry c b = []) ∨
      ∃ (bs : List Byte) (f : Fault) (rest : List Operand), os = bs.map Except.ok ++ .error f :: rest ∧
        (∀ b ∈ bs, entry c b ≠ []) := by
    induction os with
    | nil => exact .inl ⟨[], rfl, by simp⟩
    | cons o os ih =>
      cases o with
      | error f => exact .inr (.inr ⟨[], f, os, rfl, by simp⟩)
      | ok b =>
        by_cases hb : entry c b = []
        · exact .inr (.inl ⟨[], b, os, rfl, by simp, hb⟩)
        · have hcons : ∀ bs : List Byte, (∀ x ∈ bs, entry c x ≠ []) → ∀ x ∈ b :: bs, entry c x ≠ [] := by
            intro bs h x hx
            rcases List.mem_cons.1 hx with rfl | hx
            · exact hb
            · exact h x hx
          rcases ih with ⟨bs, h1, h2⟩ | ⟨bs, x, rest, h1, h2, h3⟩ | ⟨bs, f, rest, h1, h2⟩
          · exact .inl ⟨b :: bs, by simp [h1], hcons bs h2⟩
          · exact .inr (.inl ⟨b :: bs, x, rest, by simp [h1], hcons bs h2, h3⟩)
          · exact .inr (.inr ⟨b :: bs, f, rest, by simp [h1], hcons bs h2⟩)
  rcases split with ⟨bs, rfl, h2⟩ | ⟨bs, x, rest, rfl, h2, h3⟩ | ⟨bs, f, rest, rfl, h2⟩
  · exact .inl ⟨bs, rfl, h2, encodeBits_ok c i bs h2⟩
  · exact .inr (.inl ⟨bs, x, rest, rfl, h2, h3, encodeBits_missing c i bs x rest h2 h3⟩)
  · exact .inr (.inr ⟨bs, f, rest, rfl, h2, encodeBits_fault c i bs f rest h2⟩)

end Sys2Proof.Machine
end

