-- ==== Sys2Proof/Laws/State.lean ====
section
/-! SUPPORT. One lemma per field per named update of State: what the update writes and what it leaves alone, so that no
later proof unfolds a record update. -/

namespace Sys2Proof.Machine

/-! ### finish -/

@[simp] theorem finish_bounded (s : State) : (finish s).bounded = s.bounded := rfl
@[simp] theorem finish_done (s : State) : (finish s).done = true := rfl
@[simp] theorem finish_error (s : State) : (finish s).error = false := rfl
@[simp] theorem finish_errCode (s : State) : (finish s).errCode = .none := rfl
@[simp] theorem finish_errInfo (s : State) : (finish s).errInfo = 0 := rfl
@[simp] theorem finish_inLen (s : State) : (finish s).inLen = s.inLen := rfl
@[simp] theorem finish_outLen (s : State) : (finish s).outLen = s.outLen := rfl
@[simp] theorem finish_symCount (s : State) : (finish s).symCount = s.symCount := rfl
@[simp] theorem finish_bitCount (s : State) : (finish s).bitCount = s.bitCount := rfl
@[simp] theorem finish_txtLen (s : State) : (finish s).txtLen = s.txtLen := rfl
@[simp] theorem finish_distinct (s : State) : (finish s).distinct = s.distinct := rfl
@[simp] theorem finish_codeNsym (s : State) : (finish s).codeNsym = s.codeNsym := rfl
@[simp] theorem finish_freq (s : State) : (finish s).freq = s.freq := rfl
@[simp] theorem finish_code (s : State) : (finish s).code = s.code := rfl
@[simp] theorem finish_tree (s : State) : (finish s).tree = s.tree := rfl
@[simp] theorem finish_inBuf (s : State) : (finish s).inBuf = s.inBuf := rfl
@[simp] theorem finish_outBuf (s : State) : (finish s).outBuf = s.outBuf := rfl
@[simp] theorem finish_txtBuf (s : State) : (finish s).txtBuf = s.txtBuf := rfl
@[simp] theorem finish_seq (s : State) : (finish s).seq = .idle := rfl
@[simp] theorem finish_viol (s : State) : (finish s).viol = s.viol := rfl
@[simp] theorem finish_lastCmd (s : State) : (finish s).lastCmd = s.lastCmd := rfl
@[simp] theorem finish_caps (s : State) : (finish s).caps = s.caps := rfl
@[simp] theorem finish_host (s : State) : (finish s).host = s.host := rfl
@[simp] theorem finish_reads (s : State) : (finish s).reads = s.reads := rfl
@[simp] theorem finish_draws (s : State) : (finish s).draws = s.draws := rfl
@[simp] theorem finish_resetLast (s : State) : (finish s).resetLast = s.resetLast := rfl

/-! ### raiseErr -/

@[simp] theorem raiseErr_bounded (c : ErrCode) (i : Word) (s : State) : (raiseErr c i s).bounded = s.bounded := rfl
@[simp] theorem raiseErr_done (c : ErrCode) (i : Word) (s : State) : (raiseErr c i s).done = true := rfl
@[simp] theorem raiseErr_error (c : ErrCode) (i : Word) (s : State) : (raiseErr c i s).error = true := rfl
@[simp] theorem raiseErr_errCode (c : ErrCode) (i : Word) (s : State) : (raiseErr c i s).errCode = c := rfl
@[simp] theorem raiseErr_errInfo (c : ErrCode) (i : Word) (s : State) : (raiseErr c i s).errInfo = i := rfl
@[simp] theorem raiseErr_inLen (c : ErrCode) (i : Word) (s : State) : (raiseErr c i s).inLen = s.inLen := rfl
@[simp] theorem raiseErr_outLen (c : ErrCode) (i : Word) (s : State) : (raiseErr c i s).outLen = s.outLen := rfl
@[simp] theorem raiseErr_symCount (c : ErrCode) (i : Word) (s : State) : (raiseErr c i s).symCount = s.symCount := rfl
@[simp] theorem raiseErr_bitCount (c : ErrCode) (i : Word) (s : State) : (raiseErr c i s).bitCount = s.bitCount := rfl
@[simp] theorem raiseErr_txtLen (c : ErrCode) (i : Word) (s : State) : (raiseErr c i s).txtLen = s.txtLen := rfl
@[simp] theorem raiseErr_distinct (c : ErrCode) (i : Word) (s : State) : (raiseErr c i s).distinct = s.distinct := rfl
@[simp] theorem raiseErr_codeNsym (c : ErrCode) (i : Word) (s : State) : (raiseErr c i s).codeNsym = s.codeNsym := rfl
@[simp] theorem raiseErr_freq (c : ErrCode) (i : Word) (s : State) : (raiseErr c i s).freq = s.freq := rfl
@[simp] theorem raiseErr_code (c : ErrCode) (i : Word) (s : State) : (raiseErr c i s).code = s.code := rfl
@[simp] theorem raiseErr_tree (c : ErrCode) (i : Word) (s : State) : (raiseErr c i s).tree = s.tree := rfl
@[simp] theorem raiseErr_inBuf (c : ErrCode) (i : Word) (s : State) : (raiseErr c i s).inBuf = s.inBuf := rfl
@[simp] theorem raiseErr_outBuf (c : ErrCode) (i : Word) (s : State) : (raiseErr c i s).outBuf = s.outBuf := rfl
@[simp] theorem raiseErr_txtBuf (c : ErrCode) (i : Word) (s : State) : (raiseErr c i s).txtBuf = s.txtBuf := rfl
@[simp] theorem raiseErr_seq (c : ErrCode) (i : Word) (s : State) : (raiseErr c i s).seq = .idle := rfl
@[simp] theorem raiseErr_viol (c : ErrCode) (i : Word) (s : State) : (raiseErr c i s).viol = s.viol := rfl
@[simp] theorem raiseErr_lastCmd (c : ErrCode) (i : Word) (s : State) : (raiseErr c i s).lastCmd = s.lastCmd := rfl
@[simp] theorem raiseErr_caps (c : ErrCode) (i : Word) (s : State) : (raiseErr c i s).caps = s.caps := rfl
@[simp] theorem raiseErr_host (c : ErrCode) (i : Word) (s : State) : (raiseErr c i s).host = s.host := rfl
@[simp] theorem raiseErr_reads (c : ErrCode) (i : Word) (s : State) : (raiseErr c i s).reads = s.reads := rfl
@[simp] theorem raiseErr_draws (c : ErrCode) (i : Word) (s : State) : (raiseErr c i s).draws = s.draws := rfl
@[simp] theorem raiseErr_resetLast (c : ErrCode) (i : Word) (s : State) : (raiseErr c i s).resetLast = s.resetLast := rfl

/-! ### accept -/

@[simp] theorem accept_bounded (w : Word) (s : State) : (accept w s).bounded = s.bounded := rfl
@[simp] theorem accept_done (w : Word) (s : State) : (accept w s).done = false := rfl
@[simp] theorem accept_error (w : Word) (s : State) : (accept w s).error = false := rfl
@[simp] theorem accept_errCode (w : Word) (s : State) : (accept w s).errCode = .none := rfl
@[simp] theorem accept_errInfo (w : Word) (s : State) : (accept w s).errInfo = s.errInfo := rfl
@[simp] theorem accept_inLen (w : Word) (s : State) : (accept w s).inLen = s.inLen := rfl
@[simp] theorem accept_outLen (w : Word) (s : State) : (accept w s).outLen = s.outLen := rfl
@[simp] theorem accept_symCount (w : Word) (s : State) : (accept w s).symCount = s.symCount := rfl
@[simp] theorem accept_bitCount (w : Word) (s : State) : (accept w s).bitCount = s.bitCount := rfl
@[simp] theorem accept_txtLen (w : Word) (s : State) : (accept w s).txtLen = s.txtLen := rfl
@[simp] theorem accept_distinct (w : Word) (s : State) : (accept w s).distinct = s.distinct := rfl
@[simp] theorem accept_codeNsym (w : Word) (s : State) : (accept w s).codeNsym = s.codeNsym := rfl
@[simp] theorem accept_freq (w : Word) (s : State) : (accept w s).freq = s.freq := rfl
@[simp] theorem accept_code (w : Word) (s : State) : (accept w s).code = s.code := rfl
@[simp] theorem accept_tree (w : Word) (s : State) : (accept w s).tree = s.tree := rfl
@[simp] theorem accept_inBuf (w : Word) (s : State) : (accept w s).inBuf = s.inBuf := rfl
@[simp] theorem accept_outBuf (w : Word) (s : State) : (accept w s).outBuf = s.outBuf := rfl
@[simp] theorem accept_txtBuf (w : Word) (s : State) : (accept w s).txtBuf = s.txtBuf := rfl
@[simp] theorem accept_seq (w : Word) (s : State) : (accept w s).seq = s.seq := rfl
@[simp] theorem accept_viol (w : Word) (s : State) : (accept w s).viol = false := rfl
@[simp] theorem accept_lastCmd (w : Word) (s : State) : (accept w s).lastCmd = w.extractLsb' 0 8 := rfl
@[simp] theorem accept_caps (w : Word) (s : State) : (accept w s).caps = s.caps := rfl
@[simp] theorem accept_host (w : Word) (s : State) : (accept w s).host = s.host := rfl
@[simp] theorem accept_reads (w : Word) (s : State) : (accept w s).reads = s.reads := rfl
@[simp] theorem accept_draws (w : Word) (s : State) : (accept w s).draws = s.draws := rfl
@[simp] theorem accept_resetLast (w : Word) (s : State) : (accept w s).resetLast = s.resetLast := rfl

/-! ### setFreq -/

@[simp] theorem setFreq_bounded (f : Table Word) (s : State) : (setFreq f s).bounded = s.bounded := rfl
@[simp] theorem setFreq_done (f : Table Word) (s : State) : (setFreq f s).done = s.done := rfl
@[simp] theorem setFreq_error (f : Table Word) (s : State) : (setFreq f s).error = s.error := rfl
@[simp] theorem setFreq_errCode (f : Table Word) (s : State) : (setFreq f s).errCode = s.errCode := rfl
@[simp] theorem setFreq_errInfo (f : Table Word) (s : State) : (setFreq f s).errInfo = s.errInfo := rfl
@[simp] theorem setFreq_inLen (f : Table Word) (s : State) : (setFreq f s).inLen = s.inLen := rfl
@[simp] theorem setFreq_outLen (f : Table Word) (s : State) : (setFreq f s).outLen = s.outLen := rfl
@[simp] theorem setFreq_symCount (f : Table Word) (s : State) : (setFreq f s).symCount = s.symCount := rfl
@[simp] theorem setFreq_bitCount (f : Table Word) (s : State) : (setFreq f s).bitCount = s.bitCount := rfl
@[simp] theorem setFreq_txtLen (f : Table Word) (s : State) : (setFreq f s).txtLen = s.txtLen := rfl
@[simp] theorem setFreq_distinct (f : Table Word) (s : State) : (setFreq f s).distinct = BitVec.ofNat 32 (countEntries (· != 0) f) := rfl
@[simp] theorem setFreq_codeNsym (f : Table Word) (s : State) : (setFreq f s).codeNsym = s.codeNsym := rfl
@[simp] theorem setFreq_freq (f : Table Word) (s : State) : (setFreq f s).freq = f := rfl
@[simp] theorem setFreq_code (f : Table Word) (s : State) : (setFreq f s).code = s.code := rfl
@[simp] theorem setFreq_tree (f : Table Word) (s : State) : (setFreq f s).tree = s.tree := rfl
@[simp] theorem setFreq_inBuf (f : Table Word) (s : State) : (setFreq f s).inBuf = s.inBuf := rfl
@[simp] theorem setFreq_outBuf (f : Table Word) (s : State) : (setFreq f s).outBuf = s.outBuf := rfl
@[simp] theorem setFreq_txtBuf (f : Table Word) (s : State) : (setFreq f s).txtBuf = s.txtBuf := rfl
@[simp] theorem setFreq_seq (f : Table Word) (s : State) : (setFreq f s).seq = s.seq := rfl
@[simp] theorem setFreq_viol (f : Table Word) (s : State) : (setFreq f s).viol = s.viol := rfl
@[simp] theorem setFreq_lastCmd (f : Table Word) (s : State) : (setFreq f s).lastCmd = s.lastCmd := rfl
@[simp] theorem setFreq_caps (f : Table Word) (s : State) : (setFreq f s).caps = s.caps := rfl
@[simp] theorem setFreq_host (f : Table Word) (s : State) : (setFreq f s).host = s.host := rfl
@[simp] theorem setFreq_reads (f : Table Word) (s : State) : (setFreq f s).reads = s.reads := rfl
@[simp] theorem setFreq_draws (f : Table Word) (s : State) : (setFreq f s).draws = s.draws := rfl
@[simp] theorem setFreq_resetLast (f : Table Word) (s : State) : (setFreq f s).resetLast = s.resetLast := rfl

/-! ### clearFreq -/

@[simp] theorem clearFreq_bounded (s : State) : (clearFreq s).bounded = s.bounded := rfl
@[simp] theorem clearFreq_done (s : State) : (clearFreq s).done = s.done := rfl
@[simp] theorem clearFreq_error (s : State) : (clearFreq s).error = s.error := rfl
@[simp] theorem clearFreq_errCode (s : State) : (clearFreq s).errCode = s.errCode := rfl
@[simp] theorem clearFreq_errInfo (s : State) : (clearFreq s).errInfo = s.errInfo := rfl
@[simp] theorem clearFreq_inLen (s : State) : (clearFreq s).inLen = s.inLen := rfl
@[simp] theorem clearFreq_outLen (s : State) : (clearFreq s).outLen = s.outLen := rfl
@[simp] theorem clearFreq_symCount (s : State) : (clearFreq s).symCount = s.symCount := rfl
@[simp] theorem clearFreq_bitCount (s : State) : (clearFreq s).bitCount = s.bitCount := rfl
@[simp] theorem clearFreq_txtLen (s : State) : (clearFreq s).txtLen = s.txtLen := rfl
@[simp] theorem clearFreq_distinct (s : State) : (clearFreq s).distinct = 0 := rfl
@[simp] theorem clearFreq_codeNsym (s : State) : (clearFreq s).codeNsym = s.codeNsym := rfl
@[simp] theorem clearFreq_freq (s : State) : (clearFreq s).freq = filled 0 := rfl
@[simp] theorem clearFreq_code (s : State) : (clearFreq s).code = s.code := rfl
@[simp] theorem clearFreq_tree (s : State) : (clearFreq s).tree = s.tree := rfl
@[simp] theorem clearFreq_inBuf (s : State) : (clearFreq s).inBuf = s.inBuf := rfl
@[simp] theorem clearFreq_outBuf (s : State) : (clearFreq s).outBuf = s.outBuf := rfl
@[simp] theorem clearFreq_txtBuf (s : State) : (clearFreq s).txtBuf = s.txtBuf := rfl
@[simp] theorem clearFreq_seq (s : State) : (clearFreq s).seq = s.seq := rfl
@[simp] theorem clearFreq_viol (s : State) : (clearFreq s).viol = s.viol := rfl
@[simp] theorem clearFreq_lastCmd (s : State) : (clearFreq s).lastCmd = s.lastCmd := rfl
@[simp] theorem clearFreq_caps (s : State) : (clearFreq s).caps = s.caps := rfl
@[simp] theorem clearFreq_host (s : State) : (clearFreq s).host = s.host := rfl
@[simp] theorem clearFreq_reads (s : State) : (clearFreq s).reads = s.reads := rfl
@[simp] theorem clearFreq_draws (s : State) : (clearFreq s).draws = s.draws := rfl
@[simp] theorem clearFreq_resetLast (s : State) : (clearFreq s).resetLast = s.resetLast := rfl

/-! ### setCode -/

@[simp] theorem setCode_bounded (c : Table Bits) (s : State) : (setCode c s).bounded = s.bounded := rfl
@[simp] theorem setCode_done (c : Table Bits) (s : State) : (setCode c s).done = s.done := rfl
@[simp] theorem setCode_error (c : Table Bits) (s : State) : (setCode c s).error = s.error := rfl
@[simp] theorem setCode_errCode (c : Table Bits) (s : State) : (setCode c s).errCode = s.errCode := rfl
@[simp] theorem setCode_errInfo (c : Table Bits) (s : State) : (setCode c s).errInfo = s.errInfo := rfl
@[simp] theorem setCode_inLen (c : Table Bits) (s : State) : (setCode c s).inLen = s.inLen := rfl
@[simp] theorem setCode_outLen (c : Table Bits) (s : State) : (setCode c s).outLen = s.outLen := rfl
@[simp] theorem setCode_symCount (c : Table Bits) (s : State) : (setCode c s).symCount = s.symCount := rfl
@[simp] theorem setCode_bitCount (c : Table Bits) (s : State) : (setCode c s).bitCount = s.bitCount := rfl
@[simp] theorem setCode_txtLen (c : Table Bits) (s : State) : (setCode c s).txtLen = s.txtLen := rfl
@[simp] theorem setCode_distinct (c : Table Bits) (s : State) : (setCode c s).distinct = s.distinct := rfl
@[simp] theorem setCode_codeNsym (c : Table Bits) (s : State) : (setCode c s).codeNsym = BitVec.ofNat 32 (countEntries (!·.isEmpty) c) := rfl
@[simp] theorem setCode_freq (c : Table Bits) (s : State) : (setCode c s).freq = s.freq := rfl
@[simp] theorem setCode_code (c : Table Bits) (s : State) : (setCode c s).code = c := rfl
@[simp] theorem setCode_tree (c : Table Bits) (s : State) : (setCode c s).tree = s.tree := rfl
@[simp] theorem setCode_inBuf (c : Table Bits) (s : State) : (setCode c s).inBuf = s.inBuf := rfl
@[simp] theorem setCode_outBuf (c : Table Bits) (s : State) : (setCode c s).outBuf = s.outBuf := rfl
@[simp] theorem setCode_txtBuf (c : Table Bits) (s : State) : (setCode c s).txtBuf = s.txtBuf := rfl
@[simp] theorem setCode_seq (c : Table Bits) (s : State) : (setCode c s).seq = s.seq := rfl
@[simp] theorem setCode_viol (c : Table Bits) (s : State) : (setCode c s).viol = s.viol := rfl
@[simp] theorem setCode_lastCmd (c : Table Bits) (s : State) : (setCode c s).lastCmd = s.lastCmd := rfl
@[simp] theorem setCode_caps (c : Table Bits) (s : State) : (setCode c s).caps = s.caps := rfl
@[simp] theorem setCode_host (c : Table Bits) (s : State) : (setCode c s).host = s.host := rfl
@[simp] theorem setCode_reads (c : Table Bits) (s : State) : (setCode c s).reads = s.reads := rfl
@[simp] theorem setCode_draws (c : Table Bits) (s : State) : (setCode c s).draws = s.draws := rfl
@[simp] theorem setCode_resetLast (c : Table Bits) (s : State) : (setCode c s).resetLast = s.resetLast := rfl

/-! ### clearCode -/

@[simp] theorem clearCode_bounded (s : State) : (clearCode s).bounded = s.bounded := rfl
@[simp] theorem clearCode_done (s : State) : (clearCode s).done = s.done := rfl
@[simp] theorem clearCode_error (s : State) : (clearCode s).error = s.error := rfl
@[simp] theorem clearCode_errCode (s : State) : (clearCode s).errCode = s.errCode := rfl
@[simp] theorem clearCode_errInfo (s : State) : (clearCode s).errInfo = s.errInfo := rfl
@[simp] theorem clearCode_inLen (s : State) : (clearCode s).inLen = s.inLen := rfl
@[simp] theorem clearCode_outLen (s : State) : (clearCode s).outLen = s.outLen := rfl
@[simp] theorem clearCode_symCount (s : State) : (clearCode s).symCount = s.symCount := rfl
@[simp] theorem clearCode_bitCount (s : State) : (clearCode s).bitCount = s.bitCount := rfl
@[simp] theorem clearCode_txtLen (s : State) : (clearCode s).txtLen = s.txtLen := rfl
@[simp] theorem clearCode_distinct (s : State) : (clearCode s).distinct = s.distinct := rfl
@[simp] theorem clearCode_codeNsym (s : State) : (clearCode s).codeNsym = 0 := rfl
@[simp] theorem clearCode_freq (s : State) : (clearCode s).freq = s.freq := rfl
@[simp] theorem clearCode_code (s : State) : (clearCode s).code = filled [] := rfl
@[simp] theorem clearCode_tree (s : State) : (clearCode s).tree = s.tree := rfl
@[simp] theorem clearCode_inBuf (s : State) : (clearCode s).inBuf = s.inBuf := rfl
@[simp] theorem clearCode_outBuf (s : State) : (clearCode s).outBuf = s.outBuf := rfl
@[simp] theorem clearCode_txtBuf (s : State) : (clearCode s).txtBuf = s.txtBuf := rfl
@[simp] theorem clearCode_seq (s : State) : (clearCode s).seq = s.seq := rfl
@[simp] theorem clearCode_viol (s : State) : (clearCode s).viol = s.viol := rfl
@[simp] theorem clearCode_lastCmd (s : State) : (clearCode s).lastCmd = s.lastCmd := rfl
@[simp] theorem clearCode_caps (s : State) : (clearCode s).caps = s.caps := rfl
@[simp] theorem clearCode_host (s : State) : (clearCode s).host = s.host := rfl
@[simp] theorem clearCode_reads (s : State) : (clearCode s).reads = s.reads := rfl
@[simp] theorem clearCode_draws (s : State) : (clearCode s).draws = s.draws := rfl
@[simp] theorem clearCode_resetLast (s : State) : (clearCode s).resetLast = s.resetLast := rfl

/-! ### failPack -/

@[simp] theorem failPack_bounded (s : State) : (failPack s).bounded = s.bounded := rfl
@[simp] theorem failPack_done (s : State) : (failPack s).done = s.done := rfl
@[simp] theorem failPack_error (s : State) : (failPack s).error = s.error := rfl
@[simp] theorem failPack_errCode (s : State) : (failPack s).errCode = s.errCode := rfl
@[simp] theorem failPack_errInfo (s : State) : (failPack s).errInfo = s.errInfo := rfl
@[simp] theorem failPack_inLen (s : State) : (failPack s).inLen = s.inLen := rfl
@[simp] theorem failPack_outLen (s : State) : (failPack s).outLen = 0 := rfl
@[simp] theorem failPack_symCount (s : State) : (failPack s).symCount = 0 := rfl
@[simp] theorem failPack_bitCount (s : State) : (failPack s).bitCount = 0 := rfl
@[simp] theorem failPack_txtLen (s : State) : (failPack s).txtLen = s.txtLen := rfl
@[simp] theorem failPack_distinct (s : State) : (failPack s).distinct = s.distinct := rfl
@[simp] theorem failPack_codeNsym (s : State) : (failPack s).codeNsym = s.codeNsym := rfl
@[simp] theorem failPack_freq (s : State) : (failPack s).freq = s.freq := rfl
@[simp] theorem failPack_code (s : State) : (failPack s).code = s.code := rfl
@[simp] theorem failPack_tree (s : State) : (failPack s).tree = s.tree := rfl
@[simp] theorem failPack_inBuf (s : State) : (failPack s).inBuf = s.inBuf := rfl
@[simp] theorem failPack_outBuf (s : State) : (failPack s).outBuf = [] := rfl
@[simp] theorem failPack_txtBuf (s : State) : (failPack s).txtBuf = s.txtBuf := rfl
@[simp] theorem failPack_seq (s : State) : (failPack s).seq = s.seq := rfl
@[simp] theorem failPack_viol (s : State) : (failPack s).viol = s.viol := rfl
@[simp] theorem failPack_lastCmd (s : State) : (failPack s).lastCmd = s.lastCmd := rfl
@[simp] theorem failPack_caps (s : State) : (failPack s).caps = s.caps := rfl
@[simp] theorem failPack_host (s : State) : (failPack s).host = s.host := rfl
@[simp] theorem failPack_reads (s : State) : (failPack s).reads = s.reads := rfl
@[simp] theorem failPack_draws (s : State) : (failPack s).draws = s.draws := rfl
@[simp] theorem failPack_resetLast (s : State) : (failPack s).resetLast = s.resetLast := rfl

/-! ### failUnpack -/

@[simp] theorem failUnpack_bounded (s : State) : (failUnpack s).bounded = s.bounded := rfl
@[simp] theorem failUnpack_done (s : State) : (failUnpack s).done = s.done := rfl
@[simp] theorem failUnpack_error (s : State) : (failUnpack s).error = s.error := rfl
@[simp] theorem failUnpack_errCode (s : State) : (failUnpack s).errCode = s.errCode := rfl
@[simp] theorem failUnpack_errInfo (s : State) : (failUnpack s).errInfo = s.errInfo := rfl
@[simp] theorem failUnpack_inLen (s : State) : (failUnpack s).inLen = s.inLen := rfl
@[simp] theorem failUnpack_outLen (s : State) : (failUnpack s).outLen = 0 := rfl
@[simp] theorem failUnpack_symCount (s : State) : (failUnpack s).symCount = s.symCount := rfl
@[simp] theorem failUnpack_bitCount (s : State) : (failUnpack s).bitCount = 0 := rfl
@[simp] theorem failUnpack_txtLen (s : State) : (failUnpack s).txtLen = s.txtLen := rfl
@[simp] theorem failUnpack_distinct (s : State) : (failUnpack s).distinct = s.distinct := rfl
@[simp] theorem failUnpack_codeNsym (s : State) : (failUnpack s).codeNsym = s.codeNsym := rfl
@[simp] theorem failUnpack_freq (s : State) : (failUnpack s).freq = s.freq := rfl
@[simp] theorem failUnpack_code (s : State) : (failUnpack s).code = s.code := rfl
@[simp] theorem failUnpack_tree (s : State) : (failUnpack s).tree = s.tree := rfl
@[simp] theorem failUnpack_inBuf (s : State) : (failUnpack s).inBuf = s.inBuf := rfl
@[simp] theorem failUnpack_outBuf (s : State) : (failUnpack s).outBuf = [] := rfl
@[simp] theorem failUnpack_txtBuf (s : State) : (failUnpack s).txtBuf = s.txtBuf := rfl
@[simp] theorem failUnpack_seq (s : State) : (failUnpack s).seq = s.seq := rfl
@[simp] theorem failUnpack_viol (s : State) : (failUnpack s).viol = s.viol := rfl
@[simp] theorem failUnpack_lastCmd (s : State) : (failUnpack s).lastCmd = s.lastCmd := rfl
@[simp] theorem failUnpack_caps (s : State) : (failUnpack s).caps = s.caps := rfl
@[simp] theorem failUnpack_host (s : State) : (failUnpack s).host = s.host := rfl
@[simp] theorem failUnpack_reads (s : State) : (failUnpack s).reads = s.reads := rfl
@[simp] theorem failUnpack_draws (s : State) : (failUnpack s).draws = s.draws := rfl
@[simp] theorem failUnpack_resetLast (s : State) : (failUnpack s).resetLast = s.resetLast := rfl

/-! ### setCtrl -/

@[simp] theorem setCtrl_bounded (v : Word) (s : State) : (setCtrl v s).bounded = v.getLsbD 0 := rfl
@[simp] theorem setCtrl_done (v : Word) (s : State) : (setCtrl v s).done = s.done := rfl
@[simp] theorem setCtrl_error (v : Word) (s : State) : (setCtrl v s).error = s.error := rfl
@[simp] theorem setCtrl_errCode (v : Word) (s : State) : (setCtrl v s).errCode = s.errCode := rfl
@[simp] theorem setCtrl_errInfo (v : Word) (s : State) : (setCtrl v s).errInfo = s.errInfo := rfl
@[simp] theorem setCtrl_inLen (v : Word) (s : State) : (setCtrl v s).inLen = s.inLen := rfl
@[simp] theorem setCtrl_outLen (v : Word) (s : State) : (setCtrl v s).outLen = s.outLen := rfl
@[simp] theorem setCtrl_symCount (v : Word) (s : State) : (setCtrl v s).symCount = s.symCount := rfl
@[simp] theorem setCtrl_bitCount (v : Word) (s : State) : (setCtrl v s).bitCount = s.bitCount := rfl
@[simp] theorem setCtrl_txtLen (v : Word) (s : State) : (setCtrl v s).txtLen = s.txtLen := rfl
@[simp] theorem setCtrl_distinct (v : Word) (s : State) : (setCtrl v s).distinct = s.distinct := rfl
@[simp] theorem setCtrl_codeNsym (v : Word) (s : State) : (setCtrl v s).codeNsym = s.codeNsym := rfl
@[simp] theorem setCtrl_freq (v : Word) (s : State) : (setCtrl v s).freq = s.freq := rfl
@[simp] theorem setCtrl_code (v : Word) (s : State) : (setCtrl v s).code = s.code := rfl
@[simp] theorem setCtrl_tree (v : Word) (s : State) : (setCtrl v s).tree = s.tree := rfl
@[simp] theorem setCtrl_inBuf (v : Word) (s : State) : (setCtrl v s).inBuf = s.inBuf := rfl
@[simp] theorem setCtrl_outBuf (v : Word) (s : State) : (setCtrl v s).outBuf = s.outBuf := rfl
@[simp] theorem setCtrl_txtBuf (v : Word) (s : State) : (setCtrl v s).txtBuf = s.txtBuf := rfl
@[simp] theorem setCtrl_seq (v : Word) (s : State) : (setCtrl v s).seq = s.seq := rfl
@[simp] theorem setCtrl_viol (v : Word) (s : State) : (setCtrl v s).viol = s.viol := rfl
@[simp] theorem setCtrl_lastCmd (v : Word) (s : State) : (setCtrl v s).lastCmd = s.lastCmd := rfl
@[simp] theorem setCtrl_caps (v : Word) (s : State) : (setCtrl v s).caps = s.caps := rfl
@[simp] theorem setCtrl_host (v : Word) (s : State) : (setCtrl v s).host = s.host := rfl
@[simp] theorem setCtrl_reads (v : Word) (s : State) : (setCtrl v s).reads = s.reads := rfl
@[simp] theorem setCtrl_draws (v : Word) (s : State) : (setCtrl v s).draws = s.draws := rfl
@[simp] theorem setCtrl_resetLast (v : Word) (s : State) : (setCtrl v s).resetLast = s.resetLast := rfl

/-! ### setViol -/

@[simp] theorem setViol_bounded (s : State) : (setViol s).bounded = s.bounded := rfl
@[simp] theorem setViol_done (s : State) : (setViol s).done = s.done := rfl
@[simp] theorem setViol_error (s : State) : (setViol s).error = s.error := rfl
@[simp] theorem setViol_errCode (s : State) : (setViol s).errCode = s.errCode := rfl
@[simp] theorem setViol_errInfo (s : State) : (setViol s).errInfo = s.errInfo := rfl
@[simp] theorem setViol_inLen (s : State) : (setViol s).inLen = s.inLen := rfl
@[simp] theorem setViol_outLen (s : State) : (setViol s).outLen = s.outLen := rfl
@[simp] theorem setViol_symCount (s : State) : (setViol s).symCount = s.symCount := rfl
@[simp] theorem setViol_bitCount (s : State) : (setViol s).bitCount = s.bitCount := rfl
@[simp] theorem setViol_txtLen (s : State) : (setViol s).txtLen = s.txtLen := rfl
@[simp] theorem setViol_distinct (s : State) : (setViol s).distinct = s.distinct := rfl
@[simp] theorem setViol_codeNsym (s : State) : (setViol s).codeNsym = s.codeNsym := rfl
@[simp] theorem setViol_freq (s : State) : (setViol s).freq = s.freq := rfl
@[simp] theorem setViol_code (s : State) : (setViol s).code = s.code := rfl
@[simp] theorem setViol_tree (s : State) : (setViol s).tree = s.tree := rfl
@[simp] theorem setViol_inBuf (s : State) : (setViol s).inBuf = s.inBuf := rfl
@[simp] theorem setViol_outBuf (s : State) : (setViol s).outBuf = s.outBuf := rfl
@[simp] theorem setViol_txtBuf (s : State) : (setViol s).txtBuf = s.txtBuf := rfl
@[simp] theorem setViol_seq (s : State) : (setViol s).seq = s.seq := rfl
@[simp] theorem setViol_viol (s : State) : (setViol s).viol = true := rfl
@[simp] theorem setViol_lastCmd (s : State) : (setViol s).lastCmd = s.lastCmd := rfl
@[simp] theorem setViol_caps (s : State) : (setViol s).caps = s.caps := rfl
@[simp] theorem setViol_host (s : State) : (setViol s).host = s.host := rfl
@[simp] theorem setViol_reads (s : State) : (setViol s).reads = s.reads := rfl
@[simp] theorem setViol_draws (s : State) : (setViol s).draws = s.draws := rfl
@[simp] theorem setViol_resetLast (s : State) : (setViol s).resetLast = s.resetLast := rfl

/-! ### resetEvent -/

@[simp] theorem resetEvent_seq (s : State) : (resetEvent s).seq = .idle := rfl
@[simp] theorem resetEvent_viol (s : State) : (resetEvent s).viol = false := rfl
@[simp] theorem resetEvent_lastCmd (s : State) : (resetEvent s).lastCmd = 0 := rfl
@[simp] theorem resetEvent_caps (s : State) : (resetEvent s).caps = s.caps := rfl
@[simp] theorem resetEvent_host (s : State) : (resetEvent s).host = s.host := rfl
@[simp] theorem resetEvent_reads (s : State) : (resetEvent s).reads = s.reads := rfl
@[simp] theorem resetEvent_draws (s : State) : (resetEvent s).draws = s.draws := rfl
@[simp] theorem resetEvent_resetLast (s : State) : (resetEvent s).resetLast = true := rfl
@[simp] theorem resetEvent_toBlock (s : State) : (resetEvent s).toBlock = Block.reset := rfl

/-! ### served -/

@[simp] theorem served_seq (s : State) : (served s).seq = s.seq := rfl
@[simp] theorem served_viol (s : State) : (served s).viol = s.viol := rfl
@[simp] theorem served_lastCmd (s : State) : (served s).lastCmd = s.lastCmd := rfl
@[simp] theorem served_caps (s : State) : (served s).caps = s.caps := rfl
@[simp] theorem served_host (s : State) : (served s).host = s.host := rfl
@[simp] theorem served_reads (s : State) : (served s).reads = s.reads := rfl
@[simp] theorem served_draws (s : State) : (served s).draws = s.draws + 1 := rfl
@[simp] theorem served_resetLast (s : State) : (served s).resetLast = false := rfl
@[simp] theorem served_toBlock (s : State) : (served s).toBlock = s.toBlock := rfl

end Sys2Proof.Machine
end

