-- ==== Sys2Proof/Laws/Commands.lean ====
section
/-! SUPPORT. Everything each command can answer, command by command, so that no later proof unfolds a meaning. -/

namespace Sys2Proof.Machine

/-- The capacities fit the 32-bit registers that report them. -/
theorem caps_lt (c : Caps) : c.inCap < 2 ^ 32 ∧ c.outCap < 2 ^ 32 ∧ c.txtCap < 2 ^ 32 := by
  have := c.inCap_bounds
  have := c.outCap_bounds
  have := c.txtCap_bounds
  omega

theorem word_ne_zero {w : Word} : w ≠ 0 ↔ 0 < w.toNat := by
  rw [ne_eq, BitVec.toNat_eq]
  show ¬ w.toNat = 0 ↔ _
  omega

/-- COUNT: too long, no bytes, an unspecified byte, or the tally. -/
theorem execCount_cases (s : State) :
    (s.caps.inCap < s.inLen.toNat ∧ execCount s = .next (raiseErr .lengthOutOfRange s.inLen (clearFreq s))) ∨
      (s.inLen.toNat = 0 ∧ execCount s = .next (raiseErr .emptyInput 0 (clearFreq s))) ∨
      (0 < s.inLen.toNat ∧ s.inLen.toNat ≤ s.caps.inCap ∧
        ((∃ bs : List Byte, bs.length = s.inLen.toNat ∧ BytesAt s.inBuf bs ∧
            execCount s = .next (finish (setFreq (tally bs) s))) ∨
          ∃ k, k < s.inLen.toNat ∧ Memory.read s.inBuf k = none ∧ (∀ j, j < k → (Memory.read s.inBuf j).isSome = true) ∧
            execCount s = .fault (.uninitRead .inBuf k))) := by
  unfold execCount
  by_cases h1 : s.caps.inCap < s.inLen.toNat
  · exact .inl ⟨h1, if_pos h1⟩
  · rw [if_neg h1]
    by_cases h2 : s.inLen = 0
    · exact .inr (.inl ⟨by rw [h2]; rfl, if_pos h2⟩)
    · rw [if_neg h2]
      refine .inr (.inr ⟨word_ne_zero.1 h2, by omega, ?_⟩)
      rcases consumeAll_cases (inOperands s s.inLen.toNat) with ⟨bs, e1, e2⟩ | ⟨bs, f, rest, e1, e2⟩
      · obtain ⟨g1, g2⟩ := operands_all_ok e1
        exact .inl ⟨bs, g1, g2, by rw [e2]⟩
      · obtain ⟨g1, g2, g3, rfl⟩ := operands_split e1
        refine .inr ⟨bs.length, g1, g3, ?_, by rw [e2]⟩
        intro j hj
        rw [g2 j hj, List.getElem?_eq_getElem hj]
        rfl

/-- BUILD: no present symbol, or the merge loop's tree. -/
theorem execBuild_cases (s : State) :
    ((∀ v, entry s.freq v = 0) ∧ execBuild s = .next (raiseErr .emptyInput 0 { s with tree := .empty })) ∨
      ∃ t, isFull t = true ∧ (leafSyms t).Perm (allSyms.filter fun v => entry s.freq v ≠ 0) ∧
        Merges (startQueue s.freq) (startQueue s.freq).length t ∧ execBuild s = .next (finish { s with tree := t }) := by
  unfold execBuild
  rcases buildTree_cases s.freq with ⟨h1, h2⟩ | ⟨t, h1, h2, h3, h4⟩
  · exact .inl ⟨h1, by rw [h2]⟩
  · exact .inr ⟨t, h2, h3, h4, by rw [h1]⟩

/-- PACK: too long, no bytes, a byte without a code, an unspecified byte, or the packed bits, which may not fit. -/
theorem execPack_cases (s : State) :
    (s.caps.inCap < s.inLen.toNat ∧ execPack s = .next (raiseErr .lengthOutOfRange s.inLen (failPack s))) ∨
      (s.inLen.toNat = 0 ∧ execPack s = .next (raiseErr .emptyInput 0 (failPack s))) ∨
      (0 < s.inLen.toNat ∧ s.inLen.toNat ≤ s.caps.inCap ∧
        ((∃ (bs : List Byte) (b : Byte), bs.length < s.inLen.toNat ∧ BytesAt s.inBuf (bs ++ [b]) ∧
            (∀ b ∈ bs, entry s.code b ≠ []) ∧ entry s.code b = [] ∧
            execPack s = .next (raiseErr .missingCode (BitVec.ofNat 32 bs.length) (failPack s))) ∨
          (∃ bs : List Byte, bs.length < s.inLen.toNat ∧ BytesAt s.inBuf bs ∧ (∀ b ∈ bs, entry s.code b ≠ []) ∧
            Memory.read s.inBuf bs.length = none ∧ execPack s = .fault (.uninitRead .inBuf bs.length)) ∨
          ∃ bs : List Byte, bs.length = s.inLen.toNat ∧ BytesAt s.inBuf bs ∧ (∀ b ∈ bs, entry s.code b ≠ []) ∧
            execPack s = .next (writePacked s.inLen (bs.flatMap (entry s.code)) s))) := by
  unfold execPack
  by_cases h1 : s.caps.inCap < s.inLen.toNat
  · exact .inl ⟨h1, if_pos h1⟩
  · rw [if_neg h1]
    by_cases h2 : s.inLen = 0
    · exact .inr (.inl ⟨by rw [h2]; rfl, if_pos h2⟩)
    · rw [if_neg h2]
      refine .inr (.inr ⟨word_ne_zero.1 h2, by omega, ?_⟩)
      rcases encodeBits_cases s.code 0 (inOperands s s.inLen.toNat) with
        ⟨bs, e1, e2, e3⟩ | ⟨bs, b, rest, e1, e2, e4, e3⟩ | ⟨bs, f, rest, e1, e2, e3⟩
      · obtain ⟨g1, g2⟩ := operands_all_ok e1
        exact .inr (.inr ⟨bs, g1, g2, e2, by rw [e3]⟩)
      · obtain ⟨g1, g2⟩ := bytesAt_of_operands (bs := bs ++ [b]) (rest := rest) (e1.trans (by simp))
        exact .inl ⟨bs, b, by simpa using g1, g2, e2, e4, by rw [e3, Nat.zero_add]⟩
      · obtain ⟨g1, g2, g3, rfl⟩ := operands_split e1
        exact .inr (.inl ⟨bs, g1, g2, e2, g3, by rw [e3]⟩)

/-- What the end of PACK writes: the overflow error, or the packed bytes and the three lengths. -/
theorem writePacked_cases (n : Word) (bits : Bits) (s : State) :
    (s.caps.outCap < bytesFor bits.length ∧ writePacked n bits s =
        raiseErr .outputOverflow (BitVec.ofNat 32 (min (bytesFor bits.length) 0xFFFFFFFF)) (failPack s)) ∨
      (bytesFor bits.length ≤ s.caps.outCap ∧ writePacked n bits s = finish { s with
        outBuf := Memory.writeAll s.outBuf 0 (packBits bits)
        outLen := BitVec.ofNat 32 (bytesFor bits.length)
        symCount := n
        bitCount := BitVec.ofNat 32 bits.length }) := by
  unfold writePacked
  by_cases h : s.caps.outCap < bytesFor bits.length
  · exact .inl ⟨h, if_pos h⟩
  · exact .inr ⟨by omega, if_neg h⟩

/-- DESERIALIZE: too long, a malformed line, an unspecified byte in an unfinished line, a prefix conflict, or the table of the
lines. -/
theorem execDeserialize_cases (s : State) :
    (s.caps.txtCap < s.txtLen.toNat ∧
        execDeserialize s = .next (raiseErr .lengthOutOfRange s.txtLen (clearCode s))) ∨
      (s.txtLen.toNat ≤ s.caps.txtCap ∧
        ((∃ line : Nat, execDeserialize s = .next (raiseErr .malformedEntry (BitVec.ofNat 32 line) (clearCode s))) ∨
          (∃ (lines : List (Sym × Bits)) (seen : List Byte), (lines.map (·.1)).Nodup ∧
            (∀ l ∈ lines, 1 ≤ l.2.length ∧ l.2.length ≤ 255) ∧ (linesText lines ++ seen).length < s.txtLen.toNat ∧
            BytesAt s.txtBuf (linesText lines ++ seen) ∧ Unfinished (s.txtLen.toNat - (linesText lines).length) seen ∧
            Memory.read s.txtBuf (linesText lines ++ seen).length = none ∧
            execDeserialize s = .fault (.uninitRead .txtBuf (linesText lines ++ seen).length)) ∨
          ∃ lines : List (Sym × Bits), (lines.map (·.1)).Nodup ∧ (∀ l ∈ lines, 1 ≤ l.2.length ∧ l.2.length ≤ 255) ∧
            s.txtLen.toNat = (linesText lines).length ∧ BytesAt s.txtBuf (linesText lines) ∧
            let c := lines.foldl (fun c e => setEntry c e.1 e.2) (filled [])
            ((∃ v, Conflicts c v ∧
                execDeserialize s = .next (raiseErr .prefixConflict (v.setWidth 32) (clearCode s))) ∨
              (PrefixFree c ∧ execDeserialize s =
                .next (finish { s with code := c, codeNsym := BitVec.ofNat 32 lines.length }))))) := by
  unfold execDeserialize
  by_cases h1 : s.caps.txtCap < s.txtLen.toNat
  · exact .inl ⟨h1, if_pos h1⟩
  · rw [if_neg h1]
    refine .inr ⟨by omega, ?_⟩
    obtain ⟨lines, rest, e1, e2, e3, -, e5⟩ := parseLines_cases s.txtLen.toNat 0 (filled [])
      (txtOperands s s.txtLen.toNat) (by simp [txtOperands])
    rcases e5 with ⟨rfl, e6⟩ | ⟨_, _, e6⟩ | ⟨seen, f, r, rfl, hu, e6⟩
    · rw [List.append_nil] at e1
      obtain ⟨g1, g2⟩ := operands_all_ok e1
      refine .inr (.inr ⟨lines, e2, e3, g1.symm, g2, ?_⟩)
      rw [e6]
      simp only [Nat.zero_add]
      cases hc : prefixConflict (lines.foldl (fun c e => setEntry c e.1 e.2) (filled [])) with
      | some v => exact .inl ⟨v, ((prefixConflict_some_iff _ v).1 hc).1, rfl⟩
      | none => exact .inr ⟨(prefixConflict_none_iff _).1 hc, rfl⟩
    · exact .inl ⟨_, by rw [e6]⟩
    · have hlen := congrArg List.length e1
      simp only [txtOperands, List.length_append, List.length_map, List.length_range] at hlen
      obtain ⟨g1, g2, g3, rfl⟩ := operands_split (bs := linesText lines ++ seen) (f := f) (rest := r)
        (e1.trans (by simp))
      have hroom : s.txtLen.toNat - (linesText lines).length = (seen.map Except.ok ++ Except.error
          (.uninitRead .txtBuf (linesText lines ++ seen).length) :: r : List Operand).length := by
        simp only [List.length_append, List.length_map, List.length_cons] at hlen ⊢
        omega
      exact .inr (.inl ⟨lines, seen, e2, e3, g1, g2, hroom ▸ hu, g3, by rw [e6]⟩)

/-- What the walk of R88 can answer over the bits of IN_BUF. -/
theorem walkBits_cases (limit : Option Nat) (cap : Nat) (root pos : PTree) (j k last : Nat)
    (bits : List (Except Fault Bool)) (hk : k ≤ cap) :
    (∃ syms last', walkBits limit cap root pos j k last bits = .ok (syms, last') ∧ k + syms.length ≤ cap) ∨
      (∃ f, .error f ∈ bits ∧ walkBits limit cap root pos j k last bits = .error (.fault f)) ∨
      ∃ code info, (code = .truncatedBitstream ∨ code = .invalidCodePath ∨ code = .outputOverflow) ∧
        walkBits limit cap root pos j k last bits = .error (.err code info) := by
  induction bits generalizing pos j k last with
  | nil =>
    simp only [walkBits]
    split
    · exact .inl ⟨[], last, rfl, by simpa using hk⟩
    · split
      · exact .inr (.inr ⟨_, _, .inl rfl, rfl⟩)
      · exact .inl ⟨[], last, rfl, by simpa using hk⟩
  | cons bit bits ih =>
    simp only [walkBits]
    split
    · exact .inl ⟨[], last, rfl, by simpa using hk⟩
    · cases bit with
      | error f => exact .inr (.inl ⟨f, by simp, rfl⟩)
      | ok b =>
        simp only []
        cases child pos b with
        | empty => exact .inr (.inr ⟨_, _, .inr (.inl rfl), rfl⟩)
        | leaf s =>
          simp only []
          split
          · exact .inr (.inr ⟨_, _, .inr (.inr rfl), rfl⟩)
          · rename_i hne
            rcases ih root (j + 1) (k + 1) (j + 1) (by omega) with ⟨syms, l, h, hl⟩ | ⟨f, hf, h⟩ | ⟨c, i, hc, h⟩
            · exact .inl ⟨s :: syms, l, by rw [h], by simp only [List.length_cons]; omega⟩
            · exact .inr (.inl ⟨f, List.mem_cons_of_mem _ hf, by rw [h]⟩)
            · exact .inr (.inr ⟨c, i, hc, by rw [h]⟩)
        | node l r =>
          rcases ih (.node l r) (j + 1) k last hk with ⟨syms, l', h, hl⟩ | ⟨f, hf, h⟩ | ⟨c, i, hc, h⟩
          · exact .inl ⟨syms, l', by rw [← h], hl⟩
          · exact .inr (.inl ⟨f, List.mem_cons_of_mem _ hf, by rw [← h]⟩)
          · exact .inr (.inr ⟨c, i, hc, by rw [← h]⟩)

/-- UNPACK: an error of one of its four codes, an unspecified byte that the walk reaches, or at most OUT_CAP emitted symbols. -/
theorem execUnpack_cases (s : State) :
    (∃ code info, (code = .lengthOutOfRange ∨ code = .outputOverflow ∨ code = .truncatedBitstream ∨
        code = .invalidCodePath) ∧ execUnpack s = .next (raiseErr code info (failUnpack s))) ∨
      (s.inLen.toNat ≤ s.caps.inCap ∧ (s.bounded = true → s.symCount.toNat ≤ s.caps.outCap) ∧
        ∃ (k : Nat) (paths : List Bits) (tail : Bits), k < s.inLen.toNat ∧ Memory.read s.inBuf k = none ∧
          BitsAt s.inBuf (paths.flatten ++ tail) ∧ (paths.flatten ++ tail).length = 8 * k ∧
          (∀ p ∈ paths, ∃ v, subtreeAt (walkRoot s.tree) p = .leaf v) ∧
          (∃ l r, subtreeAt (walkRoot s.tree) tail = .node l r) ∧ paths.length ≤ s.caps.outCap ∧
          (s.bounded = true → paths.length < s.symCount.toNat) ∧ execUnpack s = .fault (.uninitRead .inBuf k)) ∨
      ∃ syms last, syms.length ≤ s.caps.outCap ∧ execUnpack s = .next (writeUnpacked syms last s) := by
  unfold execUnpack
  by_cases h1 : s.caps.inCap < s.inLen.toNat
  · exact .inl ⟨_, _, .inl rfl, if_pos h1⟩
  rw [if_neg h1]
  by_cases h2 : s.bounded ∧ s.caps.outCap < s.symCount.toNat
  · exact .inl ⟨_, _, .inr (.inl rfl), if_pos h2⟩
  rw [if_neg h2]
  rcases walkBits_cases (if s.bounded then some s.symCount.toNat else none) s.caps.outCap (walkRoot s.tree)
    (walkRoot s.tree) 0 0 0 (inBits s s.inLen.toNat) (Nat.zero_le _) with ⟨syms, l, h, hl⟩ | ⟨f, hf, h⟩ | ⟨c, i, hc, h⟩
  · exact .inr (.inr ⟨syms, l, by omega, by simp only [h]⟩)
  · obtain ⟨paths, tail, r, e1, e2, e3, e4, e5⟩ := walkBits_fault _ _ _ [] 0 0 0 _ f (walkRoot_isNode _)
      (by simpa using walkRoot_isNode s.tree) (Nat.zero_le _) (fun _ _ => Nat.zero_le _) (by simpa using h)
    rw [List.map_nil, List.nil_append] at e1
    obtain ⟨k, g1, g2, g3, g4, rfl⟩ := inBits_split e1
    refine .inr (.inl ⟨by omega, fun hb => ?_, k, paths, tail, g1, g4, g3, g2, e2, e3, by omega, fun hb => ?_,
      by simp only [h]⟩)
    · simp only [hb, true_and] at h2
      omega
    · simpa using e5 _ (if_pos hb)
  · refine .inl ⟨c, i, ?_, by simp only [h]⟩
    rcases hc with rfl | rfl | rfl <;> simp

/-- RECONSTRUCT of a prefix code: its trie. -/
theorem execReconstruct_of_prefixFree {s : State} (h : PrefixFree s.code) :
    ∃ t, execReconstruct s = .next (finish { s with tree := t }) ∧
      (∀ q u, subtreeAt t q = .leaf u ↔ entry s.code u = q ∧ q ≠ []) ∧
      (∀ q, (∃ l r, subtreeAt t q = .node l r) ↔ ∃ v, q <+: entry s.code v ∧ q ≠ entry s.code v) ∧
      (leafSyms t).Nodup ∧ isTrimmed t = true := by
  obtain ⟨t, h1, h2⟩ := insertCodes_entries h
  exact ⟨t, by unfold execReconstruct; rw [h1], h2⟩

/-- RECONSTRUCT in general: the tree, or the unreachable case. -/
theorem execReconstruct_cases (s : State) :
    (∃ t, execReconstruct s = .next (finish { s with tree := t })) ∨
      ∃ v, execReconstruct s = .fault (.insertUnreachable v) := by
  unfold execReconstruct
  cases insertCodes .empty (entries s.code) with
  | ok t => exact .inl ⟨t, rfl⟩
  | error v => exact .inr ⟨v, rfl⟩

end Sys2Proof.Machine
end

