-- ==== Sys2Proof/Laws/Huffman.lean ====
section
/-! SUPPORT. Why the merge loop's tree has the least weighted depth: the depths of the leaves of a full tree, and the
exchange of weights between depths. -/

namespace Sys2Proof.Machine

/-- The depth lists of full binary trees, in any order. -/
inductive Depths : List Nat → Prop where
  | root : Depths [0]
  | split (d : Nat) (ds : List Nat) (h : Depths (d :: ds)) : Depths ((d + 1) :: (d + 1) :: ds)
  | perm (ds ds' : List Nat) (h : Depths ds) (hp : ds.Perm ds') : Depths ds'

theorem Depths_ne_nil {ds : List Nat} (h : Depths ds) : ds ≠ [] := by
  induction h with
  | root => simp
  | split => simp
  | perm ds ds' _ hp ih => rintro rfl; exact ih hp.eq_nil

/-- A full tree may hang below any leaf of a full tree. -/
theorem Depths_graft {ds : List Nat} (h : Depths ds) (d : Nat) (rest : List Nat) (hr : Depths (d :: rest)) :
    Depths (ds.map (· + d) ++ rest) := by
  induction h with
  | root => simpa using hr
  | split e es _ ih =>
    have h1 := Depths.split (e + d) (es.map (· + d) ++ rest) (by simpa using ih)
    have e1 : e + d + 1 = e + 1 + d := by omega
    simpa [e1] using h1
  | perm ds ds' _ hp ih => exact .perm _ _ ih ((hp.map _).append_right _)

/-- In the depth list of a full tree of two or more leaves the greatest depth occurs twice, and joining those two leaves
gives a depth list again. -/
theorem Depths_join {ds : List Nat} (h : Depths ds) (hl : 2 ≤ ds.length) :
    ∃ D rest, ds.Perm ((D + 1) :: (D + 1) :: rest) ∧ (∀ x ∈ rest, x ≤ D + 1) ∧ Depths (D :: rest) := by
  induction h with
  | root => simp at hl
  | perm ds ds' _ hp ih =>
    obtain ⟨D, rest, h1, h2⟩ := ih (by rw [hp.length_eq]; exact hl)
    exact ⟨D, rest, hp.symm.trans h1, h2⟩
  | split d ds hd ih =>
    cases ds with
    | nil =>
      exact ⟨d, [], .refl _, by simp, hd⟩
    | cons x xs =>
      obtain ⟨D, rest, h1, h2, h3⟩ := ih (by simp)
      by_cases hmax : d = D + 1
      · refine ⟨d, x :: xs, .refl _, ?_, hd⟩
        intro y hy
        have : y ∈ (D + 1) :: (D + 1) :: rest := h1.mem_iff.1 (List.mem_cons_of_mem _ hy)
        rcases List.mem_cons.1 this with rfl | this
        · omega
        · rcases List.mem_cons.1 this with rfl | this
          · omega
          · have := h2 y this; omega
      · have hm : d ∈ rest := by
          have : d ∈ (D + 1) :: (D + 1) :: rest := h1.mem_iff.1 (List.mem_cons_self ..)
          simpa [hmax] using this
        have hr : rest.Perm (d :: rest.erase d) := List.perm_cons_erase hm
        have hds : (x :: xs).Perm ((D + 1) :: (D + 1) :: rest.erase d) := by
          refine List.perm_cons d |>.1 (h1.trans ?_)
          refine ((hr.cons _).cons _).trans ?_
          exact ((List.Perm.swap ..).cons _).trans (List.Perm.swap ..)
        refine ⟨D, (d + 1) :: (d + 1) :: rest.erase d, ?_, ?_, ?_⟩
        · refine ((hds.cons _).cons _).trans ?_
          have : ((d + 1) :: (d + 1) :: (D + 1) :: (D + 1) :: rest.erase d).Perm
              ([(d + 1), (d + 1)] ++ ([(D + 1), (D + 1)] ++ rest.erase d)) := .refl _
          refine this.trans ?_
          rw [← List.append_assoc]
          exact (List.perm_append_comm.append_right _).trans (by simp)
        · intro y hy
          have hd' := h2 d hm
          rcases List.mem_cons.1 hy with rfl | hy
          · omega
          · rcases List.mem_cons.1 hy with rfl | hy
            · omega
            · exact h2 y (List.mem_of_mem_erase hy)
        · have h4 : Depths (d :: D :: rest.erase d) :=
            .perm _ _ h3 ((hr.cons _).trans (List.Perm.swap ..))
          refine .perm _ _ (.split d _ h4) ?_
          exact (((List.Perm.swap ..).cons _).trans (List.Perm.swap ..))

/-- A full tree of `n` ≤ 2^k leaves need not be deeper than `k`. -/
theorem exists_shallow (k n : Nat) (h1 : 1 ≤ n) (h2 : n ≤ 2 ^ k) : ∃ ds, Depths ds ∧ ds.length = n ∧ ∀ d ∈ ds, d ≤ k := by
  induction k generalizing n with
  | zero =>
    obtain rfl : n = 1 := by simp at h2; omega
    exact ⟨[0], .root, rfl, by simp⟩
  | succ k ih =>
    by_cases hn : n = 1
    · subst hn
      exact ⟨[0], .root, rfl, by simp⟩
    · have hp : 2 ^ (k + 1) = 2 * 2 ^ k := by rw [Nat.pow_succ, Nat.mul_comm]
      obtain ⟨a, ha, la, da⟩ := ih (n / 2) (by omega) (by omega)
      obtain ⟨b, hb, lb, db⟩ := ih (n - n / 2) (by omega) (by omega)
      have g1 := Depths_graft ha 1 [1] (.split 0 [] .root)
      have g2 := Depths_graft hb 1 (a.map (· + 1)) (.perm _ _ g1 List.perm_append_comm)
      refine ⟨_, g2, by simp; omega, ?_⟩
      intro d hd
      simp only [List.mem_append, List.mem_map] at hd
      rcases hd with ⟨x, hx, rfl⟩ | ⟨x, hx, rfl⟩
      · have := db x hx; omega
      · have := da x hx; omega

/-- The cost of leaves given as (weight, depth). -/
def cost (P : List (Nat × Nat)) : Nat := (P.map fun e => e.1 * e.2).sum

theorem cost_perm {P P' : List (Nat × Nat)} (h : P.Perm P') : cost P = cost P' := (h.map _).sum_eq

theorem cost_cons (e : Nat × Nat) (P : List (Nat × Nat)) : cost (e :: P) = e.1 * e.2 + cost P := by simp [cost]

/-- The least weight may stand at the greatest depth at no greater cost. -/
theorem cost_exchange (P : List (Nat × Nat)) (D a : Nat) (hD : D ∈ P.map (·.2)) (hmax : ∀ x ∈ P.map (·.2), x ≤ D)
    (ha : a ∈ P.map (·.1)) (hmin : ∀ x ∈ P.map (·.1), a ≤ x) :
    ∃ P', (P.map (·.1)).Perm (a :: P'.map (·.1)) ∧ (P.map (·.2)).Perm (D :: P'.map (·.2)) ∧
      a * D + cost P' ≤ cost P := by
  obtain ⟨⟨x, D'⟩, hx, rfl⟩ := List.mem_map.1 hD
  simp only at hmax hD ⊢
  have hp := List.perm_cons_erase hx
  by_cases hax : a = x
  · subst hax
    refine ⟨P.erase (a, D'), by simpa using hp.map (·.1), by simpa using hp.map (·.2), ?_⟩
    rw [cost_perm hp, cost_cons]
  · obtain ⟨⟨a', d⟩, hm, rfl⟩ := List.mem_map.1 ha
    have hm' : (a', d) ∈ P.erase (x, D') := by
      rcases List.mem_cons.1 (hp.mem_iff.1 hm) with h | h
      · simp only [Prod.mk.injEq] at h; exact absurd h.1 hax
      · exact h
    have hp' := List.perm_cons_erase hm'
    have hpp := hp.trans (hp'.cons _)
    refine ⟨(x, d) :: (P.erase (x, D')).erase (a', d), ?_, ?_, ?_⟩
    · exact (hpp.map (·.1)).trans (List.Perm.swap ..)
    · exact hpp.map (·.2)
    · rw [cost_perm hpp]
      simp only [cost_cons]
      have h1 : a' ≤ x := hmin x (List.mem_map_of_mem hx)
      have h2 : d ≤ D' := hmax d (List.mem_map_of_mem hm)
      obtain ⟨u, rfl⟩ := Nat.exists_eq_add_of_le h1
      obtain ⟨v, rfl⟩ := Nat.exists_eq_add_of_le h2
      nlinarith

/-- The weights of a tree's leaves added up. -/
def weight (f : Table Word) : PTree → Nat
  | .empty => 0
  | .leaf s => (entry f s).toNat
  | .node l r => weight f l + weight f r

theorem weightedDepth_succ (f : Table Word) (t : PTree) (d : Nat) :
    weightedDepth f t (d + 1) = weightedDepth f t d + weight f t := by
  induction t generalizing d with
  | empty => rfl
  | leaf s => simp [weightedDepth, weight, Nat.mul_succ]
  | node l r ihl ihr => simp only [weightedDepth, weight, ihl, ihr]; omega

/-- Whatever full tree the queued elements are put into, at depths `P.map (·.2)`, its weighted depth is at least that of
the merge loop's tree, under every tie policy. -/
theorem mergesAnyPolicy_le {f : Table Word} {Q : List QElem} {t : PTree} (h : MergesAnyPolicy Q t)
    (hw : ∀ e ∈ Q, e.w = weight f e.t) (P : List (Nat × Nat)) (hP : (P.map (·.1)).Perm (Q.map (·.w)))
    (hd : Depths (P.map (·.2))) :
    weightedDepth f t 0 ≤ (Q.map fun e => weightedDepth f e.t 0).sum + cost P := by
  induction h generalizing P with
  | done e => simp
  | merge Q a b R q t hp ha hb _ ih =>
    have hQ : (P.map (·.1)).Perm (a.w :: b.w :: R.map (·.w)) := hP.trans (hp.map _)
    have hlen : 2 ≤ (P.map (·.2)).length := by
      have := hQ.length_eq
      simp only [List.length_map, List.length_cons] at this ⊢
      omega
    obtain ⟨D, rest, hD, hle, hjoin⟩ := Depths_join hd hlen
    have hmin : ∀ x ∈ P.map (·.1), a.w ≤ x := by
      intro x hx
      rcases List.mem_cons.1 (hQ.mem_iff.1 hx) with rfl | hx
      · exact le_refl _
      · obtain ⟨y, hy, rfl⟩ := List.mem_map.1 (show x ∈ (b :: R).map (·.w) from hx)
        exact ha y hy
    obtain ⟨P1, h1, h2, h3⟩ := cost_exchange P (D + 1) a.w (hD.mem_iff.2 (by simp)) (by
      intro x hx
      have := hD.mem_iff.1 hx
      simp only [List.mem_cons] at this
      rcases this with rfl | rfl | this
      · exact le_refl _
      · exact le_refl _
      · exact hle x this) (hQ.mem_iff.2 (by simp)) hmin
    have hP1w : (P1.map (·.1)).Perm (b.w :: R.map (·.w)) := List.perm_cons a.w |>.1 (h1.symm.trans hQ)
    have hP1d : (P1.map (·.2)).Perm ((D + 1) :: rest) := List.perm_cons (D + 1) |>.1 (h2.symm.trans hD)
    obtain ⟨P2, g1, g2, g3⟩ := cost_exchange P1 (D + 1) b.w (hP1d.mem_iff.2 (by simp)) (by
      intro x hx
      rcases List.mem_cons.1 (hP1d.mem_iff.1 hx) with rfl | hx
      · exact le_refl _
      · exact hle x hx) (hP1w.mem_iff.2 (by simp)) (by
      intro x hx
      rcases List.mem_cons.1 (hP1w.mem_iff.1 hx) with rfl | hx
      · exact le_refl _
      · obtain ⟨y, hy, rfl⟩ := List.mem_map.1 hx
        exact hb y hy)
    have hP2w : (P2.map (·.1)).Perm (R.map (·.w)) := List.perm_cons b.w |>.1 (g1.symm.trans hP1w)
    have hP2d : (P2.map (·.2)).Perm rest := List.perm_cons (D + 1) |>.1 (g2.symm.trans hP1d)
    have haw := hw a (hp.mem_iff.2 (by simp))
    have hbw := hw b (hp.mem_iff.2 (by simp))
    have := ih (by
      intro e he
      rcases List.mem_cons.1 he with rfl | he
      · simp [weight, haw, hbw]
      · exact hw e (hp.mem_iff.2 (by simp [he]))) ((a.w + b.w, D) :: P2) (by simpa using hP2w) (by
      simpa using Depths.perm _ _ hjoin (hP2d.symm.cons D))
    rw [(hp.map _).sum_eq]
    simp only [List.map_cons, List.sum_cons, cost_cons, weightedDepth, weightedDepth_succ, ← haw, ← hbw] at this ⊢
    have e1 : a.w * (D + 1) = a.w * D + a.w := Nat.mul_succ ..
    have e2 : b.w * (D + 1) = b.w * D + b.w := Nat.mul_succ ..
    have e3 : (a.w + b.w) * D = a.w * D + b.w * D := Nat.add_mul ..
    omega

/-- The fixed policy of R67 is one of the policies. -/
theorem mergesAnyPolicy_of_merges {Q : List QElem} {q : Nat} {t : PTree} (h : Merges Q q t) : MergesAnyPolicy Q t := by
  have le_of_before : ∀ x y : QElem, x.before y = true → x.w ≤ y.w := by
    intro x y
    simp only [QElem.before, Bool.or_eq_true, Bool.and_eq_true, decide_eq_true_eq, beq_iff_eq]
    omega
  induction h with
  | done e q => exact .done e
  | merge Q a b R q t hp ha hb _ ih =>
    exact .merge Q a b R q t hp (fun x hx => le_of_before _ _ (ha x hx)) (fun x hx => le_of_before _ _ (hb x hx)) ih

/-- The leaves of a tree with their depths, the root at depth `d`. -/
def leafDepths : PTree → (d : Nat) → List (Sym × Nat)
  | .empty, _ => []
  | .leaf s, d => [(s, d)]
  | .node l r, d => leafDepths l (d + 1) ++ leafDepths r (d + 1)

theorem leafDepths_map_fst (t : PTree) (d : Nat) : (leafDepths t d).map (·.1) = leafSyms t := by
  induction t generalizing d with
  | empty => rfl
  | leaf s => rfl
  | node l r ihl ihr => simp [leafDepths, leafSyms, ihl, ihr]

theorem mem_leafDepths {t : PTree} {p : Bits} {s : Sym} (h : subtreeAt t p = .leaf s) (d : Nat) :
    (s, d + p.length) ∈ leafDepths t d := by
  induction t generalizing p d with
  | empty => simp at h
  | leaf u => cases p <;> simp_all [leafDepths]
  | node l r ihl ihr =>
    cases p with
    | nil => simp at h
    | cons b p =>
      have e : d + (b :: p).length = d + 1 + p.length := by simp only [List.length_cons]; omega
      rw [e, leafDepths, List.mem_append]
      cases b
      · exact .inl (ihl (by simpa using h) (d + 1))
      · exact .inr (ihr (by simpa using h) (d + 1))

theorem weightedDepth_eq_cost (f : Table Word) (t : PTree) (d : Nat) :
    weightedDepth f t d = cost ((leafDepths t d).map fun e => ((entry f e.1).toNat, e.2)) := by
  induction t generalizing d with
  | empty => rfl
  | leaf s => simp [weightedDepth, leafDepths, cost]
  | node l r ihl ihr => simp [weightedDepth, leafDepths, ihl, ihr, cost]

/-- The leaf depths of a full tree. -/
theorem depths_of_full {t : PTree} (h : isFull t = true) : Depths ((leafDepths t 0).map (·.2)) := by
  have shift : ∀ (t : PTree) (d : Nat), (leafDepths t (d + 1)).map (·.2) = ((leafDepths t d).map (·.2)).map (· + 1) := by
    intro t
    induction t with
    | empty => intro d; rfl
    | leaf s => intro d; rfl
    | node l r ihl ihr => intro d; simp only [leafDepths, List.map_append, ihl, ihr]
  induction t with
  | empty => simp [isFull] at h
  | leaf s => exact .root
  | node l r ihl ihr =>
    simp only [isFull, Bool.and_eq_true] at h
    simp only [leafDepths, List.map_append, shift]
    have h1 := Depths_graft (ihl h.1) 1 [1] (.split 0 [] .root)
    have h2 := Depths_graft (ihr h.2) 1 ((List.map (·.2) (leafDepths l 0)).map (· + 1))
      (.perm _ _ h1 (List.perm_append_comm))
    exact .perm _ _ h2 List.perm_append_comm

/-- The tree of a merge loop under any policy: full when the queued trees are, with exactly their leaves. -/
theorem mergesAnyPolicy_full {Q : List QElem} {t : PTree} (h : MergesAnyPolicy Q t) (hQ : ∀ x ∈ Q, isFull x.t = true) :
    isFull t = true ∧ (leafSyms t).Perm (Q.flatMap fun x => leafSyms x.t) := by
  induction h with
  | done e => exact ⟨hQ e (by simp), by simp⟩
  | merge Q a b R q t hp _ _ _ ih =>
    have hR : ∀ y ∈ a :: b :: R, isFull y.t = true := fun y hy => hQ y (hp.mem_iff.2 hy)
    obtain ⟨h1, h2⟩ := ih (by
      intro y hy
      rcases List.mem_cons.1 hy with rfl | hy
      · simp [isFull, hR a (by simp), hR b (by simp)]
      · exact hR y (by simp [hy]))
    refine ⟨h1, h2.trans ?_⟩
    refine List.Perm.trans ?_ (hp.flatMap_right _).symm
    simp [leafSyms]

theorem startQueue_weights (f : Table Word) :
    (startQueue f).map (·.w) = (allSyms.filter fun s => entry f s ≠ 0).map fun s => (entry f s).toNat := by
  simp only [startQueue, List.map_map]
  rw [show ((fun x : QElem => x.w) ∘ fun e : Sym × Nat => (⟨(entry f e.1).toNat, e.2, .leaf e.1⟩ : QElem)) =
    (fun s => (entry f s).toNat) ∘ Prod.fst from rfl, ← List.map_map, List.zipIdx_map_fst]

/-- The weighted depth of a tree made from the first queue, under any policy, is least: for every way `P` to put the
present symbols' counts at the depths of a full tree. -/
theorem weightedDepth_le_cost {f : Table Word} {t : PTree} (h : MergesAnyPolicy (startQueue f) t) (P : List (Nat × Nat))
    (hP : (P.map (·.1)).Perm ((allSyms.filter fun s => entry f s ≠ 0).map fun s => (entry f s).toNat))
    (hd : Depths (P.map (·.2))) : weightedDepth f t 0 ≤ cost P := by
  have leaf : ∀ e ∈ startQueue f, e.w = weight f e.t ∧ weightedDepth f e.t 0 = 0 := by
    intro e he
    obtain ⟨x, _, rfl⟩ := List.mem_map.1 he
    simp [weight, weightedDepth]
  have h1 := mergesAnyPolicy_le h (fun e he => (leaf e he).1) P (by rw [startQueue_weights]; exact hP) hd
  have h2 : ((startQueue f).map fun e => weightedDepth f e.t 0).sum = 0 := by
    apply List.sum_eq_zero
    intro x hx
    obtain ⟨e, he, rfl⟩ := List.mem_map.1 hx
    exact (leaf e he).2
  omega

/-- ... and so at most eight bits for each byte counted. -/
theorem weightedDepth_le_eight {f : Table Word} {t : PTree} (h : MergesAnyPolicy (startQueue f) t)
    (hne : ∃ v, entry f v ≠ 0) :
    weightedDepth f t 0 ≤ 8 * ((allSyms.filter fun s => entry f s ≠ 0).map fun s => (entry f s).toNat).sum := by
  obtain ⟨v, hv⟩ := hne
  have hlen : (allSyms.filter fun s => entry f s ≠ 0).length ≤ 2 ^ 8 :=
    (List.length_filter_le _ _).trans (by rw [length_allSyms]; decide)
  have hpos : 1 ≤ (allSyms.filter fun s => entry f s ≠ 0).length :=
    List.length_pos_of_mem (List.mem_filter.2 ⟨mem_allSyms v, by simpa using hv⟩)
  obtain ⟨ds, h1, h2, h3⟩ := exists_shallow 8 _ hpos hlen
  generalize hW : ((allSyms.filter fun s => entry f s ≠ 0).map fun s => (entry f s).toNat) = W
  have hWl : W.length = ds.length := by rw [← hW, List.length_map, h2]
  have hle := weightedDepth_le_cost h (W.zip ds)
    (by rw [← hW] at hWl ⊢; rw [List.map_fst_zip (by omega)])
    (by rw [List.map_snd_zip (by omega)]; exact h1)
  refine hle.trans ?_
  clear hle hW h1 h2
  induction W generalizing ds with
  | nil => simp [cost]
  | cons w W ih =>
    cases ds with
    | nil => simp at hWl
    | cons d ds =>
      have := ih ds (fun x hx => h3 x (by simp [hx])) (by simpa using hWl)
      have hd : d ≤ 8 := h3 d (by simp)
      simp only [List.zip_cons_cons, cost_cons, List.sum_cons]
      have : w * d ≤ w * 8 := Nat.mul_le_mul_left _ hd
      omega

end Sys2Proof.Machine
end

