-- ==== Sys2Proof/WellFormed.lean ====
section
/-! DEFINITION. Well-formed instructions, capacities and assembly. A command has no operand, so every `Instr` is well
formed (30_encoding R59); an assembly name is well formed when it denotes a place of 20_memory R43 as 30_encoding R63 says. -/

namespace Sys2Proof

open Sys2Proof.Machine

/-- A command word has no operand field to be out of range (R59). -/
def WellFormed (_ : Instr) : Bool := true

/-- The bounds of 00_scope R9 as a check on plain numbers, for a reader who builds `Caps`. -/
def capsOk (inCap outCap txtCap : Nat) : Bool :=
  decide (1 ≤ inCap) && decide (inCap ≤ 2 ^ 29 - 1) && decide (1 ≤ outCap) && decide (outCap ≤ 2 ^ 29 - 1) &&
    decide (66816 ≤ txtCap) && decide (txtCap ≤ 131072)

/-- The size of a buffer window in bytes (20_memory R43). -/
def windowSize : Buffer → Nat
  | .inBuf => 0x20000000
  | .outBuf => 0x20000000
  | .txtBuf => 0x20000

/-- A window offset of R63: a multiple of 4, inside the window. -/
def offsetOk (b : Buffer) (k : Nat) : Bool := k % 4 == 0 && decide (k < windowSize b)

/-- A name of R63 is in range: symbols 0 to 255, words 0 to 15 of a CODE entry, window offsets. -/
def Loc.ok : Loc → Bool
  | .addr _ => true
  | .reg _ => true
  | .freq s => decide (s < 256)
  | .code s w => decide (s < 256) && decide (w < 16)
  | .win b k => offsetOk b k

/-- A line of assembly is well formed: its name is in range, `wrbytes` starts at a window offset and stays inside the
window, `wrtext` holds ASCII characters only. -/
def asmOk : Asm → Bool
  | .wr l _ => Loc.ok l
  | .rd l => Loc.ok l
  | .cmd i => WellFormed i
  | .wait => true
  | .wrbytes b k bytes => offsetOk b k && decide (k + bytes.length ≤ windowSize b)
  | .wrtext k text => offsetOk .txtBuf k && decide (k + text.length ≤ windowSize .txtBuf) &&
      text.all fun c => decide (c.toNat < 128)
  | .expect l _ => Loc.ok l
  | .compress => true
  | .decompress => true

end Sys2Proof
end

