-- ==== Sys2Proof/Laws/PerInstr.lean ====
section
/-! SUPPORT. What holds of every command as syntax, one lemma per constructor: it is well formed, its word has RSV = 0, and
decoding its word gives it back, from the word and from the opcode table's numbering of its bits. -/

namespace Sys2Proof.Laws.RoundTrip

open Sys2Proof

/-- A command and its word (30_encoding R58, R60, R61). -/
def Statement (i : Instr) : Prop :=
  WellFormed i = true ∧ reservedField (encode i) = 0 ∧ decode (encode i) = .ok i ∧
    decodeTableWord 32 (encode i).toNat = some i

theorem nop : Statement .nop := by refine ⟨?_, ?_, ?_, ?_⟩ <;> decide
theorem count : Statement .count := by refine ⟨?_, ?_, ?_, ?_⟩ <;> decide
theorem build : Statement .build := by refine ⟨?_, ?_, ?_, ?_⟩ <;> decide
theorem gen : Statement .gen := by refine ⟨?_, ?_, ?_, ?_⟩ <;> decide
theorem pack : Statement .pack := by refine ⟨?_, ?_, ?_, ?_⟩ <;> decide
theorem serialize : Statement .serialize := by refine ⟨?_, ?_, ?_, ?_⟩ <;> decide
theorem deserialize : Statement .deserialize := by refine ⟨?_, ?_, ?_, ?_⟩ <;> decide
theorem reconstruct : Statement .reconstruct := by refine ⟨?_, ?_, ?_, ?_⟩ <;> decide
theorem unpack : Statement .unpack := by refine ⟨?_, ?_, ?_, ?_⟩ <;> decide
theorem clear : Statement .clear := by refine ⟨?_, ?_, ?_, ?_⟩ <;> decide

end Sys2Proof.Laws.RoundTrip
end

