-- ==== Sys2Proof/Laws/Step.lean ====
section
/-! SUPPORT. What one step does, operation by operation, and what the address map answers, so that no later proof unfolds
`step`, `serve` or `placeOf`. -/

namespace Sys2Proof.Machine

theorem isBusy_of_idle {s : State} (h : s.seq = .idle) : isBusy s = false := by simp [isBusy, h]

theorem isBusy_of_busy {s : State} {n : Nat} {p : Pending} (h : s.seq = .busy n p) : isBusy s = true := by
  simp [isBusy, h]

/-- An access while idle is served and nothing more. -/
theorem countDown_of_idle {s : State} (h : s.seq = .idle) : countDown s = .next (served s) := by
  simp [countDown, h]

/-- An access while busy counts the window down, or ends it. -/
theorem countDown_of_busy {s : State} {n : Nat} {p : Pending} (h : s.seq = .busy n p) : countDown s = busyNext n p s := by
  unfold countDown
  rw [h]
  cases n with
  | zero => cases p <;> rfl
  | succ n => rfl

/-- When acceptance leads to a next state: BUSY_LEN is 0 and it is the completed one, or the block is busy with the result or
the fault pending. -/
theorem publish_next {k : Nat} {s t : State} {o : Host.Outcome State Fault Refusal} (h : publish k s o = .next t) :
    (k = 0 ∧ o = .next t) ∨ ∃ n, k = n + 1 ∧
      ((∃ u, o = .next u ∧ t = { s with seq := .busy n (.block u.toBlock) }) ∨
        ∃ f, o = .fault f ∧ t = { s with seq := .busy n (.fault f) }) := by
  cases o with
  | next u =>
    cases k with
    | zero => exact .inl ⟨rfl, h⟩
    | succ n => cases h; exact .inr ⟨n, rfl, .inl ⟨u, rfl, rfl⟩⟩
  | fault f =>
    cases k with
    | zero => cases h
    | succ n => cases h; exact .inr ⟨n, rfl, .inr ⟨f, rfl, rfl⟩⟩
  | refused r => cases h

/-- With no host operation pending the block waits. -/
theorem step_of_nil {s : State} (h : s.host = []) : step s = .next s := by
  simp [step, serveNext, h]

theorem step_of_read {s : State} {a : Word} {rest : List HostOp} (h : s.host = .read a :: rest) :
    step s = countDown { s with host := rest, reads := s.reads ++ [readValue s a] } := by
  simp only [step, serveNext, h, serve, hostRead]
  rfl

theorem step_of_reset {s : State} {rest : List HostOp} (h : s.host = .reset :: rest) :
    step s = .next (resetEvent { s with host := rest }) := by
  simp only [step, serveNext, h, serve]

/-- A write to any place but CMD while idle. -/
theorem step_of_write_idle {s : State} {a v : Word} {rest : List HostOp} (h : s.host = .write a v :: rest)
    (hs : s.seq = .idle) (hp : placeOf s.caps a ≠ .reg .cmd) :
    step s = .next (served (writeIdle { s with host := rest } (placeOf s.caps a) v)) := by
  have hb : isBusy { s with host := rest } = false := isBusy_of_idle hs
  simp only [step, serveNext, h, serve, hostWrite, hb]
  split
  · contradiction
  · rfl

/-- A write to CMD while idle is a command request. -/
theorem step_of_write_cmd {s : State} {a v : Word} {rest : List HostOp} (h : s.host = .write a v :: rest)
    (hs : s.seq = .idle) (hp : placeOf s.caps a = .reg .cmd) :
    step s = acceptCommand (Config.busyLen s.draws) v { s with host := rest, draws := s.draws + 1, resetLast := false } := by
  have hb : isBusy { s with host := rest } = false := isBusy_of_idle hs
  simp only [step, serveNext, h, serve, hostWrite, hb, hp, Bool.false_eq_true, if_false]
  rfl

/-- A write while busy is dropped. -/
theorem step_of_write_busy {s : State} {a v : Word} {rest : List HostOp} (h : s.host = .write a v :: rest)
    (hs : isBusy s = true) :
    step s = countDown (writeBusy { s with host := rest } (placeOf s.caps a)) := by
  have hb : isBusy { s with host := rest } = true := hs
  simp only [step, serveNext, h, serve, hostWrite, hb]
  rfl

/-- The address of STATUS names STATUS. -/
theorem placeOf_statusAddr (c : Caps) : placeOf c statusAddr = .reg .status := by
  simp [placeOf, statusAddr, regPlace, regAt]

/-- The address of CMD names CMD. -/
theorem placeOf_cmdAddr (c : Caps) : placeOf c cmdAddr = .reg .cmd := by
  simp [placeOf, cmdAddr, regPlace, regAt]

theorem readValue_status (s : State) : readValue s statusAddr = statusWord s := by
  simp only [readValue, placeOf_statusAddr]
  split <;> rfl

/-- Bit 0 of STATUS is BUSY. -/
theorem statusWord_busy (s : State) : (statusWord s).getLsbD 0 = isBusy s := by
  unfold statusWord
  rw [BitVec.getLsbD_append]
  simp

/-- One turn of `wait` while busy: STATUS is read and the host waits on. -/
theorem step_of_wait_busy {s : State} {rest : List HostOp} (h : s.host = .wait :: rest) (hs : isBusy s = true) :
    step s = countDown { s with reads := s.reads ++ [statusWord s] } := by
  have e : readValue { s with host := rest } statusAddr = statusWord s := readValue_status _
  simp only [step, serveNext, h, serve, hostWait, e, statusWord_busy, hs, if_true, hostRead]
  rw [show readValue { s with host := .wait :: rest } statusAddr = statusWord s from readValue_status _, ← h]

/-- The last turn of `wait`: STATUS is read with bit 0 clear. -/
theorem step_of_wait_idle {s : State} {rest : List HostOp} (h : s.host = .wait :: rest) (hs : s.seq = .idle) :
    step s = .next { s with
      host := rest, reads := s.reads ++ [statusWord s], draws := s.draws + 1, resetLast := false } := by
  have e : readValue { s with host := rest } statusAddr = statusWord s := readValue_status _
  simp only [step, serveNext, h, serve, hostWait, e, statusWord_busy, isBusy_of_idle hs, hostRead]
  rw [if_neg (by decide), countDown_of_idle (by exact hs)]
  rfl

/-- The register at word offset `k`. -/
theorem placeOf_reg (c : Caps) {a : Word} {k : Nat} {r : Reg} (hk : a.toNat / 4 = k) (hr : regAt k = some r) :
    placeOf c a = .reg r := by
  have hlt : k < 13 := by
    by_contra hn
    obtain ⟨m, rfl⟩ : ∃ m, k = m + 13 := ⟨k - 13, by omega⟩
    simp [regAt] at hr
  have h4 : 4 * (a.toNat / 4) / 4 = k := by omega
  unfold placeOf
  simp only [h4, regPlace, hr]
  rw [if_pos (by omega)]

/-- Only word offsets 0 to 12 hold a register. -/
theorem regAt_none {k : Nat} (h : 13 ≤ k) : regAt k = none := by
  obtain ⟨m, rfl⟩ : ∃ m, k = m + 13 := ⟨k - 13, by omega⟩
  rfl

/-- The bits [1:0] of an address do not matter. -/
theorem placeOf_congr (c : Caps) {a b : Word} (h : a.toNat / 4 = b.toNat / 4) : placeOf c a = placeOf c b := by
  simp only [placeOf, h]

/-- The place of an address, range by range (20_memory R43). -/
theorem placeOf_freq (c : Caps) {a : Word} (v : Sym) (h : wordOffset a = 0x400 + 4 * v.toNat) :
    placeOf c a = .freq v := by
  have hv := v.isLt
  unfold wordOffset at h
  simp only [placeOf, h]
  rw [if_neg (by omega), if_pos (by omega)]
  congr 1
  apply BitVec.eq_of_toNat_eq
  simp only [BitVec.toNat_ofNat]
  omega

theorem placeOf_code (c : Caps) {a : Word} (v : Sym) (w : Nat) (hw : w < 16)
    (h : wordOffset a = 0x4000 + 0x40 * v.toNat + 4 * w) :
    placeOf c a = if w ≤ 8 then .code v w else .reserved := by
  have hv := v.isLt
  unfold wordOffset at h
  simp only [placeOf, h]
  simp (disch := omega) only [if_neg, if_pos]
  have e1 : (0x4000 + 0x40 * v.toNat + 4 * w - 0x4000) / 4 % 16 = w := by omega
  have e2 : (0x4000 + 0x40 * v.toNat + 4 * w - 0x4000) / 4 / 16 = v.toNat := by omega
  rw [e1, e2]
  simp

theorem placeOf_txt (c : Caps) {a : Word} (i : Nat) (hi : i < 0x20000) (h : wordOffset a = 0x20000 + i) :
    placeOf c a = windowPlace c .txtBuf i := by
  unfold wordOffset at h
  simp only [placeOf, h]
  simp (disch := omega) only [if_neg, if_pos, Nat.add_sub_cancel_left]

theorem placeOf_in (c : Caps) {a : Word} (i : Nat) (hi : i < 0x20000000) (h : wordOffset a = 0x40000000 + i) :
    placeOf c a = windowPlace c .inBuf i := by
  unfold wordOffset at h
  simp only [placeOf, h]
  simp (disch := omega) only [if_neg, if_pos, Nat.add_sub_cancel_left]

theorem placeOf_out (c : Caps) {a : Word} (i : Nat) (hi : i < 0x20000000) (h : wordOffset a = 0x80000000 + i) :
    placeOf c a = windowPlace c .outBuf i := by
  unfold wordOffset at h
  simp only [placeOf, h]
  simp (disch := omega) only [if_neg, if_pos, Nat.add_sub_cancel_left]

theorem windowPlace_reserved_iff (c : Caps) (b : Buffer) (i : Nat) :
    windowPlace c b i = .reserved ↔ capOf c b ≤ i := by
  unfold windowPlace
  by_cases h : i < capOf c b
  · rw [if_pos h]
    exact ⟨(by intro h; cases h), fun h' => absurd h (by omega)⟩
  · rw [if_neg h]
    simp only [true_iff]
    omega

theorem regAt_none_iff (k : Nat) : regAt k = none ↔ 13 ≤ k := by
  constructor
  · intro h
    by_contra hn
    have : k < 13 := by omega
    interval_cases k <;> simp [regAt] at h
  · exact regAt_none

/-- The address map answers `reserved` exactly on the reserved words. -/
theorem placeOf_reserved_iff (c : Caps) (a : Word) : placeOf c a = .reserved ↔ IsReserved c a := by
  have hlt := a.isLt
  unfold placeOf IsReserved wordOffset
  simp only []
  generalize hx : 4 * (a.toNat / 4) = x
  have hx32 : x < 2 ^ 32 := by omega
  clear hx hlt
  by_cases h1 : x < 0x400
  · rw [if_pos h1]
    have key : regPlace (x / 4) = Place.reserved ↔ regAt (x / 4) = none := by
      unfold regPlace
      cases regAt (x / 4) <;> simp
    rw [key, regAt_none_iff]
    omega
  rw [if_neg h1]
  by_cases h2 : x < 0x800
  · rw [if_pos h2]
    exact ⟨(by intro h; cases h), by omega⟩
  rw [if_neg h2]
  by_cases h3 : x < 0x4000
  · rw [if_pos h3]; simp only [true_iff]; omega
  rw [if_neg h3]
  by_cases h4 : x < 0x8000
  · rw [if_pos h4]
    by_cases h5 : (x - 0x4000) / 4 % 16 ≤ 8
    · rw [if_pos h5]
      exact ⟨(by intro h; cases h), by omega⟩
    · rw [if_neg h5]; simp only [true_iff]; omega
  rw [if_neg h4]
  by_cases h6 : x < 0x20000
  · rw [if_pos h6]; simp only [true_iff]; omega
  rw [if_neg h6]
  by_cases h7 : x < 0x40000
  · rw [if_pos h7, windowPlace_reserved_iff, show capOf c .txtBuf = c.txtCap from rfl]; omega
  rw [if_neg h7]
  by_cases h8 : x < 0x40000000
  · rw [if_pos h8]; simp only [true_iff]; omega
  rw [if_neg h8]
  by_cases h9 : x < 0x60000000
  · rw [if_pos h9, windowPlace_reserved_iff, show capOf c .inBuf = c.inCap from rfl]; omega
  rw [if_neg h9]
  by_cases h10 : x < 0x80000000
  · rw [if_pos h10]; simp only [true_iff]; omega
  rw [if_neg h10]
  by_cases h11 : x < 0xA0000000
  · rw [if_pos h11, windowPlace_reserved_iff, show capOf c .outBuf = c.outCap from rfl]; omega
  rw [if_neg h11]
  simp only [true_iff]
  omega

end Sys2Proof.Machine
end

