-- ==== Sys2Proof/Laws/Port.lean ====
section
/-! SUPPORT. What the host port answers while idle: a read or write of an address from the place it names, the lanes of a
buffer read and the bits of a CODE word. -/

namespace Sys2Proof.Machine

/-- An idle read does not depend on the host's own fields. -/
theorem readIdle_host (s : State) (p : Place) (h : List HostOp) (r : List Word) :
    readIdle { s with seq := .idle, host := h, reads := r } p = readIdle { s with seq := .idle } p := by
  cases p with
  | reg r => cases r <;> rfl
  | buf b i => cases b <;> rfl
  | _ => rfl

/-- An idle read answers the value of the place the address names. -/
theorem idleReads_of_place (s : State) (a : Word) : IdleReads s a (readIdle { s with seq := .idle } (placeOf s.caps a)) := by
  intro rest
  rw [step_of_read rfl, countDown_of_idle rfl]
  have : readValue { s with seq := .idle, host := .read a :: rest } a =
      readIdle { s with seq := .idle } (placeOf s.caps a) := by
    unfold readValue
    rw [isBusy_of_idle rfl, if_neg (by decide)]
    exact readIdle_host s _ _ s.reads
  rw [this]
  rfl

/-- An idle write to any place but CMD does what `writeIdle` does to that place. -/
theorem idleWrites_of_place {s t : State} {a v : Word} (hp : placeOf s.caps a ≠ .reg .cmd)
    (h : ∀ rest, writeIdle { s with seq := .idle, host := rest } (placeOf s.caps a) v =
      { t with seq := .idle, host := rest }) (hd : t.draws = s.draws) : IdleWrites s a v t := by
  intro rest
  rw [step_of_write_idle (s := { s with seq := .idle, host := .write a v :: rest }) rfl rfl hp]
  rw [show writeIdle { s with seq := .idle, host := rest } (placeOf s.caps a) v = _ from h rest]
  rw [← hd]
  rfl

/-- Bits [8i + 7 : 8i] of a buffer read are lane `i`. -/
theorem readBuf_lane (s : State) (b : Buffer) (k i : Nat) (hi : i < 4) :
    (readBuf s b k).extractLsb' (8 * i) 8 = readLane s b k i := by
  unfold readBuf
  generalize readLane s b k = g
  obtain rfl | rfl | rfl | rfl : i = 0 ∨ i = 1 ∨ i = 2 ∨ i = 3 := by omega
  all_goals
    ext j hj
    simp only [BitVec.getElem_extractLsb', BitVec.getLsbD_append]
    rw [← BitVec.getLsbD_eq_getElem]
    simp
    try (repeat rw [if_neg (by omega)])
    try (repeat rw [if_pos (by omega)])
    try (congr 1; omega)

/-- Bit 31 − i of word w + 1 of a CODE entry is code bit 32w + i, and 0 from the code's end on (20_memory R47). -/
theorem codeWord_bit (c : Bits) (w i : Nat) (hi : i < 32) :
    (codeWord c (w + 1)).getLsbD (31 - i) = c.getD (32 * w + i) false := by
  simp only [codeWord]
  rw [getLsbD_wordOf, if_pos (by omega), show 31 - (31 - i) = i by omega]

/-- A busy write changes nothing but VIOL. -/
theorem writeBusy_eq (s : State) (p : Place) : writeBusy s p = { s with viol := (writeBusy s p).viol } := by
  unfold writeBusy
  split <;> rfl

end Sys2Proof.Machine
end

