-- ==== Sys2Proof/Tests/Slice0.lean ====
section
/-! SUPPORT. Tests against the vectors of 95_test_vectors and against words written out from 30_encoding, ill-formed terms the
checks refuse, and for every obligation with hypotheses a witness that meets them, at the boundaries of its clauses. -/

namespace Sys2Proof.Machine

-- One theorem after another: kernel evaluations side by side need a stack each.
set_option Elab.async false

/-! ## Helpers -/

/-- Capacities well above every small test. -/
def wideCaps : Caps := ⟨1000, 1000, 70000, by decide, by decide, by decide⟩

/-- Capacities that "aab" and its packed form fill exactly, and the least TXT_CAP. -/
def tightCaps : Caps := ⟨3, 1, 66816, by decide, by decide, by decide⟩

/-- The block after reset, with the given capacities. -/
def base (c : Caps) : State := { State.reset with caps := c }

/-- IN_BUF and IN_LEN hold the bytes. -/
def withIn (bs : List Byte) (s : State) : State :=
  { s with inBuf := Memory.writeAll [] 0 bs, inLen := BitVec.ofNat 32 bs.length }

/-- TXT_BUF and TXT_LEN hold the bytes. -/
def withTxt (bs : List Byte) (s : State) : State :=
  { s with txtBuf := Memory.writeAll [] 0 bs, txtLen := BitVec.ofNat 32 bs.length }

/-- CODE holds the listed codes. -/
def withCodes (es : List (Sym × Bits)) (s : State) : State :=
  setCode (es.foldl (fun c e => setEntry c e.1 e.2) (filled [])) s

/-- FREQ holds the listed counts. -/
def withFreqs (es : List (Sym × Word)) (s : State) : State :=
  setFreq (es.foldl (fun c e => setEntry c e.1 e.2) (filled 0)) s

/-- The next state, if there is one. -/
def nextOf : Host.Outcome State Fault Refusal → Option State
  | .next t => some t
  | .fault _ => none
  | .refused _ => none

/-- The fault, if there is one. -/
def faultOf : Host.Outcome State Fault Refusal → Option Fault
  | .next _ => none
  | .fault f => some f
  | .refused _ => none

theorem eq_fault_of {o : Host.Outcome State Fault Refusal} {f : Fault} (h : faultOf o = some f) : o = .fault f := by
  cases o with
  | fault g => cases h; rfl
  | next t => cases h
  | refused r => cases h

/-- The command word `w` accepted and completed at once (BUSY_LEN = 0). -/
def after (w : Word) (s : State) : Option State := nextOf (acceptCommand 0 w s)

def aab : List Byte := [0x61, 0x61, 0x62]

/-- A busy block with n + 1 accesses left, a completed block pending. -/
def busy (n : Nat) (op : HostOp) : State :=
  { base tightCaps with seq := .busy n (.block { (base tightCaps).toBlock with done := true }), host := [op] }

/-- A busy block with n + 1 accesses left, a fault pending. -/
def busyFault (n : Nat) (op : HostOp) : State :=
  { base tightCaps with seq := .busy n (.fault (.uninitRead .inBuf 0)), host := [op] }

/-- GEN1 of 95_test_vectors. -/
def gen1 : List (Sym × Bits) := [(0x61, [true]), (0x62, [false])]

/-- GEN3 of 95_test_vectors, the codes of "abracadabra". -/
def gen3 : List (Sym × Bits) :=
  [(0x61, [false]), (0x62, [true, true, false]), (0x63, [true, false, false]), (0x64, [true, false, true]),
    (0x72, [true, true, true])]

/-- BLD1 of 95_test_vectors. -/
def bld1 : PTree := .node (.leaf 0x62) (.leaf 0x61)

/-- BLD3 of 95_test_vectors. -/
def bld3 : PTree :=
  .node (.leaf 0x61) (.node (.node (.leaf 0x63) (.leaf 0x64)) (.node (.leaf 0x62) (.leaf 0x72)))

/-! ## Decoding (30_encoding R58, R60, R61, R62; words written out bit by bit: RSV 24 bits, OPCODE 8 bits) -/

theorem test_decode_nop : decode 0b000000000000000000000000_00000000#32 = .ok .nop := by decide
theorem test_decode_count : decode 0b000000000000000000000000_00000001#32 = .ok .count := by decide
theorem test_decode_build : decode 0b000000000000000000000000_00000010#32 = .ok .build := by decide
theorem test_decode_gen : decode 0b000000000000000000000000_00000011#32 = .ok .gen := by decide
theorem test_decode_pack : decode 0b000000000000000000000000_00000100#32 = .ok .pack := by decide
theorem test_decode_serialize : decode 0b000000000000000000000000_00000101#32 = .ok .serialize := by decide
theorem test_decode_deserialize : decode 0b000000000000000000000000_00000110#32 = .ok .deserialize := by decide
theorem test_decode_reconstruct : decode 0b000000000000000000000000_00000111#32 = .ok .reconstruct := by decide
theorem test_decode_unpack : decode 0b000000000000000000000000_00001000#32 = .ok .unpack := by decide
theorem test_decode_clear : decode 0b000000000000000000000000_00001111#32 = .ok .clear := by decide

/-- The illegal words at the edges of R62 are refused by name. -/
theorem test_decode_illegal :
    decode 0x00000009 = .error .opcode ∧ decode 0x0000000E = .error .opcode ∧ decode 0x00000010 = .error .opcode ∧
    decode 0x000000FF = .error .opcode ∧ decode 0x00000100 = .error .reservedBits ∧
    decode 0x00000101 = .error .reservedBits ∧ decode 0x80000001 = .error .reservedBits ∧
    decode 0xFFFFFFFF = .error .reservedBits := by decide

/-- A table row's bits, 32 of them or only its low 8, are read as the row's command. -/
theorem test_decode_table_word :
    decodeTableWord 32 0x0F = some .clear ∧ decodeTableWord 8 0x08 = some .unpack ∧ decodeTableWord 32 0x0E = none := by
  decide

/-! ## Checks refuse ill-formed terms -/

/-- One number out of R9's bounds at a time is refused; the bounds themselves are taken. -/
theorem test_caps_check :
    capsOk 1 1 66816 = true ∧ capsOk 536870911 536870911 131072 = true ∧ capsOk 0 1 66816 = false ∧
    capsOk 536870912 1 66816 = false ∧ capsOk 1 0 66816 = false ∧ capsOk 1 536870912 66816 = false ∧
    capsOk 1 1 66815 = false ∧ capsOk 1 1 131073 = false := by decide

/-- Names of R63 out of range are refused: symbol 256, CODE word 16, a window offset that is no multiple of 4, and one past
the window. -/
theorem test_name_check :
    Loc.ok (.freq 255) = true ∧ Loc.ok (.freq 256) = false ∧ Loc.ok (.code 255 15) = true ∧
    Loc.ok (.code 256 0) = false ∧ Loc.ok (.code 0 16) = false ∧ Loc.ok (.win .txtBuf 0x1FFFC) = true ∧
    Loc.ok (.win .inBuf 2) = false ∧ Loc.ok (.win .txtBuf 0x20000) = false := by decide

/-- Lines of R63 and R64 that are refused: a name out of range, a run of bytes that leaves its window or starts between
words, text that is not ASCII or leaves its window. -/
theorem test_line_check :
    asmOk (.wr (.freq 256) 0) = false ∧ asmOk (.rd (.code 0 16)) = false ∧ asmOk (.expect (.win .outBuf 1) 0) = false ∧
    asmOk (.wrbytes .txtBuf 0x1FFFC [1, 2, 3, 4]) = true ∧ asmOk (.wrbytes .txtBuf 0x1FFFC [1, 2, 3, 4, 5]) = false ∧
    asmOk (.wrbytes .inBuf 3 []) = false ∧ asmOk (.wrtext 0 ['a', 'é']) = false ∧
    asmOk (.wrtext 0x1FFFC ['a', 'b', 'c', 'd', 'e']) = false ∧ asmOk (.cmd .nop) = true := by decide

/-- A list that is not in canonical form is refused: indexes that do not rise, an index twice, one at the capacity. -/
theorem test_memory_check :
    Memory.wf 3 [(0, 1), (2, 0)] = true ∧ Memory.wf 3 [(2, 0), (0, 1)] = false ∧ Memory.wf 3 [(1, 0), (1, 1)] = false ∧
    Memory.wf 3 [(3, 0)] = false := by decide

/-- Reset's buffers are in canonical form. -/
theorem test_reset_memory :
    Memory.wf State.reset.caps.inCap State.reset.inBuf = true ∧ Memory.wf State.reset.caps.outCap State.reset.outBuf = true ∧
    Memory.wf State.reset.caps.txtCap State.reset.txtBuf = true := ⟨rfl, rfl, rfl⟩

/-- `wrbytes IN+0, 61 61 62` is one write, lane 0 first, a missing byte 0 (R64, P1 step 1). -/
theorem test_wrbytes : expand (.wrbytes .inBuf 0 aab) = [.write 0x40000000 0x00626161] := by decide

/-- `wrtext TXT+0, "a 1\nb 0\n"` (P2 step 1). -/
theorem test_wrtext : expand (.wrtext 0 ['a', ' ', '1', '\n', 'b', ' ', '0', '\n']) =
    [.write 0x00020000 0x0A312061, .write 0x00020004 0x0A302062] := by decide

/-! ## The commands (95_test_vectors; STATUS includes LAST_CMD) -/

/-- CT1. -/
theorem test_nop : (after 0x00 (base wideCaps)).map (fun t => (statusWord t, t.errInfo)) = some (0x00000002, 0) := by
  decide +kernel

/-- CNT1. -/
theorem test_count_aab : (after 0x01 (withIn aab (base wideCaps))).map
    (fun t => (statusWord t, t.errInfo, entry t.freq 0x61, entry t.freq 0x62, entry t.freq 0x63, t.distinct)) =
    some (0x00000102, 0, 2, 1, 0, 2) := by decide +kernel

/-- CNT6, with IN_CAP = 3. -/
theorem test_count_too_long : (after 0x01 (withFreqs [(0x61, 7)] { base tightCaps with inLen := 4 })).map
    (fun t => (statusWord t, t.errInfo, entry t.freq 0x61, t.distinct)) = some (0x00080106, 4, 0, 0) := by decide +kernel

/-- BLD3: the ties at weight 2 are broken by the sequence numbers. -/
theorem test_build_abracadabra :
    (after 0x02 (withFreqs [(0x61, 5), (0x62, 2), (0x63, 1), (0x64, 1), (0x72, 2)] (base wideCaps))).map
      (fun t => (statusWord t, t.tree)) = some (0x00000202, bld3) := by decide +kernel

/-- BLD13. -/
theorem test_build_empty : (after 0x02 { base wideCaps with tree := bld1 }).map
    (fun t => (statusWord t, t.errInfo, t.tree)) = some (0x00010206, 0, .empty) := by decide +kernel

/-- GEN3. -/
theorem test_gen_abracadabra : (after 0x03 { base wideCaps with tree := bld3 }).map
    (fun t => (statusWord t, gen3.map fun e => entry t.code e.1, entry t.code 0x65, t.codeNsym)) =
    some (0x00000302, gen3.map (·.2), [], 5) := by decide +kernel

/-- GEN2, the degenerate tree. -/
theorem test_gen_leaf : (after 0x03 { base wideCaps with tree := .leaf 0x41 }).map
    (fun t => (entry t.code 0x41, t.codeNsym)) = some ([false], 1) := by decide +kernel

/-- PK4: 6E 8A DC. -/
theorem test_pack_abracadabra :
    (after 0x04 (withCodes gen3
      (withIn [0x61, 0x62, 0x72, 0x61, 0x63, 0x61, 0x64, 0x61, 0x62, 0x72, 0x61] (base wideCaps)))).map
      (fun t => (statusWord t, t.outBuf, t.outLen, t.symCount, t.bitCount)) =
    some (0x00000402, [(0, 0x6E), (1, 0x8A), (2, 0xDC)], 3, 11, 23) := by decide +kernel

/-- PK14: MISSING_CODE at position 2, OUT_BUF unspecified. -/
theorem test_pack_missing : (after 0x04 (withCodes gen1 { withIn [0x61, 0x62, 0x63] (base wideCaps) with
      outBuf := [(0, 1)] })).map (fun t => (statusWord t, t.errInfo, t.outBuf, [t.outLen, t.symCount, t.bitCount])) =
    some (0x00020406, 2, [], [0, 0, 0]) := by decide +kernel

/-- SER6: escaped symbol fields. -/
theorem test_serialize_escapes :
    (after 0x05 (withCodes [(0x20, [false]), (0x0A, [true, false]), (0x5C, [true, true])] (base wideCaps))).map
      (fun t => (statusWord t, t.txtLen, t.txtBuf.map (·.2))) =
    some (0x00000502, 23, [0x5C, 0x78, 0x30, 0x41, 0x20, 0x31, 0x30, 0x0A, 0x5C, 0x78, 0x32, 0x30, 0x20, 0x30, 0x0A,
      0x5C, 0x78, 0x35, 0x43, 0x20, 0x31, 0x31, 0x0A]) := by decide +kernel

/-- SER1 over text that was there: the byte after the text stays. -/
theorem test_serialize_literals : (after 0x05 (withCodes gen1 { base wideCaps with txtBuf := [(8, 0xAA)] })).map
    (fun t => (t.txtLen, t.txtBuf.map (·.2))) =
    some (8, [0x61, 0x20, 0x31, 0x0A, 0x62, 0x20, 0x30, 0x0A, 0xAA]) := by decide +kernel

/-- DS10: a literal symbol must not be escaped, and the lines before it are discarded. -/
theorem test_deserialize_strict :
    (after 0x06 (withTxt [0x61, 0x20, 0x30, 0x0A, 0x5C, 0x78, 0x34, 0x31, 0x20, 0x31, 0x0A] (base wideCaps))).map
      (fun t => (statusWord t, t.errInfo, entry t.code 0x61, t.codeNsym)) = some (0x00030606, 1, [], 0) := by
  decide +kernel

/-- DS4: hexadecimal digits of both kinds. -/
theorem test_deserialize_escapes :
    (after 0x06 (withTxt [0x5C, 0x78, 0x38, 0x30, 0x20, 0x30, 0x0A, 0x5C, 0x78, 0x46, 0x46, 0x20, 0x31, 0x0A]
      (base wideCaps))).map (fun t => (statusWord t, entry t.code 0x80, entry t.code 0xFF, t.codeNsym)) =
    some (0x00000602, [false], [true], 2) := by decide +kernel

/-- RC5. -/
theorem test_reconstruct_abracadabra : (after 0x07 (withCodes gen3 (base wideCaps))).map
    (fun t => (statusWord t, t.tree)) = some (0x00000702, bld3) := by decide +kernel

/-- RC4: an absent child. -/
theorem test_reconstruct_partial : (after 0x07 (withCodes [(0x61, [false]), (0x62, [true, true])] (base wideCaps))).map
    (fun t => t.tree) = some (.node (.leaf 0x61) (.node .empty (.leaf 0x62))) := by decide +kernel

/-- UP1: bounded. -/
theorem test_unpack_bounded : (after 0x08 { withIn [0xC0] (base wideCaps) with tree := bld1, symCount := 3 }).map
    (fun t => (statusWord t, t.outBuf.map (·.2), t.outLen, t.bitCount)) = some (0x00000802, [0x61, 0x61, 0x62], 3, 3) := by
  decide +kernel

/-- UP12: legacy, the trailing partial path is dropped. -/
theorem test_unpack_legacy :
    (after 0x08 { withIn [0xFF] (base wideCaps) with tree := bld3, symCount := 3, bounded := false }).map
      (fun t => (statusWord t, t.outBuf.map (·.2), t.outLen, t.bitCount)) = some (0x00000802, [0x72, 0x72], 2, 6) := by
  decide +kernel

/-- CT2: CLEAR keeps CTRL and the buffers. -/
theorem test_clear : (after 0x0F (withCodes gen1 { withIn aab (base wideCaps) with tree := bld1, bounded := false })).map
    (fun t => ([statusWord t, t.inLen], t.tree, entry t.code 0x61, t.inBuf.map (·.2), t.bounded)) =
    some ([0x00000F02, 0], .empty, [], aab, false) := by decide +kernel

/-- CT4 and CT6. -/
theorem test_illegal :
    (after 0x101 (base wideCaps)).map (fun t => (statusWord t, t.errInfo)) = some (0x00090106, 0x101) ∧
    (after 0xFFFFFFFF (base wideCaps)).map (fun t => (statusWord t, t.errInfo)) = some (0x0009FF06, 0xFFFFFFFF) := by
  decide +kernel

/-- HP15: a dropped write while BUSY(2) sets VIOL; the first STATUS read shows BUSY, the second completion. -/
theorem test_busy_write :
    let busy : State := { withIn aab (base wideCaps) with
      seq := .busy 1 (.block { (base wideCaps).toBlock with done := true }), lastCmd := 1, host := [.write 0x18 5, .read 0x10, .read 0x10] }
    (nextOf (Sys2Proof.core.run 3 busy)).map (fun t => (t.reads, t.done, t.viol)) =
      some ([0x00000109, 0x0000010A], true, true) := by decide +kernel

/-- CNT9 with BUSY_LEN = 3: the command is accepted, its fault comes with the third access, and a reset before that is served
and leaves nothing of it (R106). -/
theorem test_reset_before_fault :
    let s := (nextOf (acceptCommand 3 0x01 { base wideCaps with inLen := 3 })).getD (base wideCaps)
    s.seq = .busy 2 (.fault (.uninitRead .inBuf 0)) ∧
    faultOf (Sys2Proof.core.run 3 { s with host := [.read 0x10, .read 0x00, .read 0x10] }) = some (.uninitRead .inBuf 0) ∧
    (nextOf (Sys2Proof.core.run 4 { s with host := [.read 0x10, .read 0x00, .reset, .read 0x10] })).map
      (fun t => (t.seq, t.reads, t.inLen)) = some (.idle, [0x00000101, 0x48554646, 0x00000000], 0) := by decide +kernel

/-- A reset that comes last is not the end of a run, and a command still busy is none (R115, D39); a read after it is. -/
theorem test_run_ended :
    ¬ RunEnded (resetEvent (base wideCaps)) ∧ ¬ RunEnded { busy 0 .wait with host := [] } ∧
    ∃ t, step { resetEvent (base wideCaps) with host := [.read 0x10] } = .next t ∧ RunEnded t :=
  ⟨(fun h => nomatch h.2.2), (fun h => nomatch h.2.1), _, rfl, rfl, rfl, rfl⟩

/-- HP12, HP13, HP14: windows (the addresses as 95_test_vectors gives them). -/
theorem test_windows :
    let s := withCodes gen1 (withFreqs [(0x61, 2)] (base wideCaps))
    readValue s 0x00000584 = 2 ∧ readValue s 0x00005844 = 0x80000000 ∧ readValue s 0x00005864 = 0 ∧
    readValue s 0x00000100 = 0 := by decide +kernel

/-- After reset with nothing pending the machine waits; with a command placed, the next step accepts it (R17, R58). -/
theorem test_reset_steps : step State.reset = .next State.reset ∧
    step (State.reset.withFetchWord 32 0x01) = acceptCommand (Config.busyLen 0) 0x01 { State.reset with draws := 1 } :=
  ⟨rfl, step_of_write_cmd rfl rfl (placeOf_cmdAddr _)⟩

/-! ## Witnesses: the hypotheses of each obligation are met, at the boundaries of its clauses -/

/-- The words next to the two ends of the map. -/
theorem witness_DecodesTheOpcodeTable :
    0x08 < (0x09 : Word).toNat ∧ (0x09 : Word) ≠ 0x0000000F ∧ 0x08 < (0xFFFFFFFF : Word).toNat ∧
    (0xFFFFFFFF : Word) ≠ 0x0000000F := by decide

/-- Illegal words at the edges of both ranges of opcodes, and with the lowest RSV bit. -/
theorem witness_IllegalWordsComplete :
    (0x09 ≤ ((0x09 : Word).extractLsb' 0 8).toNat ∧ ((0x09 : Word).extractLsb' 0 8).toNat ≤ 0x0E) ∧
    (0x09 ≤ ((0x0E : Word).extractLsb' 0 8).toNat ∧ ((0x0E : Word).extractLsb' 0 8).toNat ≤ 0x0E) ∧
    0x10 ≤ ((0x10 : Word).extractLsb' 0 8).toNat ∧ (0x100 : Word).extractLsb' 8 24 ≠ 0 ∧
    ¬ ((0x0F : Word).extractLsb' 8 24 ≠ 0 ∨
      (0x09 ≤ ((0x0F : Word).extractLsb' 0 8).toNat ∧ ((0x0F : Word).extractLsb' 0 8).toNat ≤ 0x0E) ∨
      0x10 ≤ ((0x0F : Word).extractLsb' 0 8).toNat) := by decide

/-- The last byte address of the word of CMD, a legal word and an illegal one. -/
theorem witness_StepRunsDecodedCommand :
    (∃ (s : State) (a w : Word) (rest : List HostOp) (i : Instr),
      s.seq = .idle ∧ s.host = .write a w :: rest ∧ a.toNat / 4 = 3 ∧ decode w = .ok i) ∧
    ∃ (s : State) (a w : Word) (rest : List HostOp),
      s.seq = .idle ∧ s.host = .write a w :: rest ∧ a.toNat / 4 = 3 ∧ decode w = .error .reservedBits :=
  ⟨⟨{ base tightCaps with host := [.write 0xF 0x3] }, 0xF, 0x3, [], .gen, by decide +kernel⟩,
    { base tightCaps with host := [.write 0xC 0x101] }, 0xC, 0x101, [], by decide +kernel⟩

/-- A command that completes, and one that faults (CNT9). -/
theorem witness_AcceptanceWritesStatus :
    let u : Word → State → State := fun w s =>
      { s with done := false, error := false, errCode := .none, viol := false, lastCmd := w.extractLsb' 0 8 }
    (∃ (w : Word) (s t : State), runWord w (u w s) = .next t) ∧
    ∃ (w : Word) (s : State) (f : Fault), runWord w (u w s) = .fault f :=
  ⟨⟨0, base tightCaps, _, rfl⟩, 1, { base tightCaps with inLen := 3 }, .uninitRead .inBuf 0, eq_fault_of (by decide +kernel)⟩

theorem witness_BusyReadCountsDown :
    (∃ r, (busy 0 (.read 0x03)).seq = .busy 0 (.block r)) ∧ (∃ f, (busyFault 0 (.read 0x03)).seq = .busy 0 (.fault f)) ∧
    (∃ p m, (busy 1 (.read 0x03)).seq = .busy (m + 1) p) ∧ (busy 0 (.read 0x03)).host = [.read 0x03] ∧
    wordOffset 0x03 = 0x000 ∧ wordOffset 0x07 = 0x004 ∧ wordOffset 0x0B = 0x008 ∧ wordOffset 0x13 = 0x010 :=
  ⟨⟨_, rfl⟩, ⟨_, rfl⟩, ⟨_, _, rfl⟩, rfl, by decide, by decide, by decide, by decide⟩

/-- The first reserved address and the one before it; the last byte of TXT_BUF's capacity and the first word beyond it. -/
theorem witness_BusyWriteIsDropped :
    (∃ p, (busy 0 (.write 0x34 5)).seq = .busy 0 p ∧ (busy 0 (.write 0x34 5)).host = [.write 0x34 5]) ∧
    (∃ p, (busy 1 (.write 0x33 5)).seq = .busy 1 p ∧ (busy 1 (.write 0x33 5)).host = [.write 0x33 5]) ∧
    IsReserved tightCaps 0x34 ∧ ¬ IsReserved tightCaps 0x33 ∧ ¬ IsReserved tightCaps (0x20000 + 66812) ∧
    IsReserved tightCaps (0x20000 + 66816) :=
  ⟨⟨_, rfl, rfl⟩, ⟨_, rfl, rfl⟩, (placeOf_reserved_iff _ _).1 (by decide),
    fun h => absurd ((placeOf_reserved_iff _ _).2 h) (by decide), fun h => absurd ((placeOf_reserved_iff _ _).2 h) (by decide),
    (placeOf_reserved_iff _ _).1 (by decide)⟩

theorem witness_WaitReadsStatus :
    (base tightCaps).seq = .idle ∧ (∃ r, (busy 0 .wait).seq = .busy 0 (.block r)) ∧
    (∃ f, (busyFault 0 .wait).seq = .busy 0 (.fault f)) ∧ (∃ p, (busy 1 .wait).seq = .busy (0 + 1) p) ∧
    (busy 0 .wait).host = .wait :: [] ∧ (busyFault 0 .wait).host = .wait :: [] ∧
    { base tightCaps with host := [.wait] }.host = .wait :: [] :=
  ⟨rfl, ⟨_, rfl⟩, ⟨_, rfl⟩, ⟨_, rfl⟩, rfl, rfl, rfl⟩

theorem witness_WaitSeesCompletion :
    (∃ (n : Nat) (s : State) (rest : List HostOp) (r : Block), s.host = .wait :: rest ∧ s.seq = .busy n (.block r)) ∧
    ∃ (n : Nat) (s : State) (rest : List HostOp) (f : Fault), s.host = .wait :: rest ∧ s.seq = .busy n (.fault f) :=
  ⟨⟨0, busy 0 .wait, [], _, rfl, rfl⟩, 0, busyFault 0 .wait, [], _, rfl, rfl⟩

/-- Also while busy, and with a fault pending. -/
theorem witness_ResetEventRestoresReset :
    (∃ (s : State) (rest : List HostOp), s.host = .reset :: rest ∧ isBusy s = true) ∧
    ∃ (s : State) (f : Fault), s.host = .reset :: [] ∧ s.seq = .busy 0 (.fault f) :=
  ⟨⟨busy 3 .reset, [], rfl, rfl⟩, busyFault 0 .reset, _, rfl, rfl⟩

/-- Both ends of every reserved range; the first word beyond each capacity. -/
def reservedEdges : List Word :=
  [0x34, 0x3FF, 0x800, 0x3FFF, 0x4024, 0x7FFF, 0x8000, 0x1FFFF, 0x20000 + 66816, 0x3FFFF, 0x40000, 0x3FFFFFFF, 0x40000004,
    0x60000000, 0x7FFFFFFF, 0x80000004, 0xA0000000, 0xFFFFFFFF]

theorem witness_ReservedWords : ∀ a ∈ reservedEdges, IsReserved tightCaps a := by
  intro a ha
  have h : (reservedEdges.all fun a => decide (placeOf tightCaps a = .reserved)) = true := by decide +kernel
  exact (placeOf_reserved_iff _ _).1 (of_decide_eq_true (List.all_eq_true.1 h a ha))

/-- Each read-only register, both ends of FREQ and CODE, and the one word of OUT_BUF below OUT_CAP = 1; the last byte address
of the words of CMD and CTRL. -/
theorem witness_ReadOnlyWritesIgnored :
    IsReadOnly tightCaps 0x00 ∧ IsReadOnly tightCaps 0x07 ∧ IsReadOnly tightCaps 0x10 ∧ IsReadOnly tightCaps 0x17 ∧
    IsReadOnly tightCaps 0x1C ∧ IsReadOnly tightCaps 0x24 ∧ IsReadOnly tightCaps 0x2C ∧ IsReadOnly tightCaps 0x33 ∧
    IsReadOnly tightCaps 0x400 ∧ IsReadOnly tightCaps 0x7FF ∧ IsReadOnly tightCaps 0x4000 ∧
    IsReadOnly tightCaps 0x7FE3 ∧ IsReadOnly tightCaps 0x80000003 ∧ wordOffset 0x0F = 0x00C ∧ wordOffset 0x0B = 0x008 := by
  refine ⟨?_, ?_, ?_, ?_, ?_, ?_, ?_, ?_, ?_, ?_, ?_, ?_, ?_, by decide, by decide⟩ <;>
  · simp only [IsReadOnly]
    decide +kernel

theorem witness_ClearEmptiesTheWorkingSet : ∃ s : State, s.bounded = true := ⟨base tightCaps, rfl⟩

/-- A code of 255 bits, the longest. -/
theorem witness_CodeWindow :
    ∃ (s : State) (v : Sym), (entry s.code v).length ≤ 255 ∧ (entry s.code v).length = 255 ∧
      (0 < 8 ∧ 7 < 8) ∧ (9 ≤ 9 ∧ 9 ≤ 15) ∧ 9 ≤ 15 :=
  ⟨withCodes [(0xFF, List.replicate 255 true)] (base tightCaps), 0xFF, by decide +kernel⟩

/-- The first word of each window and the last; IN_CAP = 3 cuts the first word of IN_BUF. -/
theorem witness_BufferWindowWrites : 4 * 0 < 0x20000000 ∧ 4 * 0x7FFFFFF < 0x20000000 ∧ 4 * 0x7FFF < 0x20000 ∧
    (4 * 0 ≤ 2 ∧ 2 < 4 * 0 + 4 ∧ 2 < (base tightCaps).caps.inCap) ∧ ¬ 3 < (base tightCaps).caps.inCap := by decide

/-- Lane 2 of the first word of IN_BUF is its last byte, lane 3 is beyond the capacity. -/
theorem witness_BufferWindowReads :
    let s := withIn aab (base tightCaps)
    (.inBuf, 0x40000000, s.caps.inCap) ∈ [(Buffer.inBuf, 0x40000000, s.caps.inCap), (.txtBuf, 0x20000, s.caps.txtCap),
      (.outBuf, 0x80000000, s.caps.outCap)] ∧ 4 * 0 < (if Buffer.inBuf = .txtBuf then 0x20000 else 0x20000000) ∧
    4 * 0x7FFF < (if Buffer.txtBuf = .txtBuf then 0x20000 else 0x20000000) ∧
    s.caps.inCap ≤ 4 * 0 + 3 ∧ 4 * 0 + 2 < s.caps.inCap ∧ Memory.read (bufOf s .inBuf) (4 * 0 + 2) = some 0x62 := by
  decide

/-- IN_LEN = IN_CAP. -/
theorem witness_CountTallies :
    ∃ (s : State) (bs : List Byte), bs.length = s.inLen.toNat ∧ 0 < bs.length ∧ bs.length ≤ s.caps.inCap ∧
      bs.length = s.caps.inCap ∧ BytesAt s.inBuf bs :=
  ⟨withIn aab (base tightCaps), aab, by decide, by decide, by decide, by decide, bytesAt_writeAll _ _⟩

/-- IN_LEN = IN_CAP + 1, and 0. -/
theorem witness_CountErrors :
    ({ base tightCaps with inLen := 4 }.caps.inCap < ({ base tightCaps with inLen := 4 } : State).inLen.toNat) ∧
    (base tightCaps).inLen.toNat = 0 := by decide

/-- One present symbol, and two; and a tree a policy gives. -/
theorem witness_BuildGivesFullTree :
    (∃ (s : State) (n : Nat), n = countEntries (· != 0) s.freq ∧ 1 ≤ n ∧ n = 1 ∧
      MergesAnyPolicy (startQueue s.freq) (.leaf 0x41)) ∧
    ∃ (s : State) (n : Nat), n = countEntries (· != 0) s.freq ∧ 1 ≤ n ∧ 2 ≤ n :=
  ⟨⟨withFreqs [(0x41, 4)] (base tightCaps), 1, by decide +kernel, by decide, rfl, by
      have h : startQueue (withFreqs [(0x41, 4)] (base tightCaps)).freq = [⟨4, 0, .leaf 0x41⟩] := by decide +kernel
      rw [h]
      exact .done _⟩,
    withFreqs [(0x61, 2), (0x62, 1)] (base tightCaps), 2, by decide +kernel⟩

theorem witness_BuildFollowsQueueOrder : ∃ s : State, ∃ v, entry s.freq v ≠ 0 :=
  ⟨withFreqs [(0xFF, 1)] (base tightCaps), 0xFF, by decide +kernel⟩

/-- Two elements of equal weight: the one with the smaller sequence number is taken first. -/
theorem witness_QueueOrderIsDeterministic :
    let Q : List QElem := [⟨1, 1, .leaf 0x42⟩, ⟨1, 0, .leaf 0x41⟩]
    (Q.map (·.q)).Nodup ∧ (∀ x ∈ Q, x.q < 2) ∧ Merges Q 2 (.node (.leaf 0x41) (.leaf 0x42)) :=
  ⟨by decide, by decide,
    .merge _ ⟨1, 0, .leaf 0x41⟩ ⟨1, 1, .leaf 0x42⟩ [] 2 _ (by decide) (by decide) (by decide) (.done ⟨2, 2, _⟩ 3)⟩

theorem witness_BuildEmptyTable : ∃ s : State, ∀ v, entry s.freq v = 0 :=
  ⟨base tightCaps, fun v => entry_filled 0 v⟩

theorem witness_DegenerateTree :
    ∃ (s : State) (v : Sym), entry s.freq v ≠ 0 ∧ ∀ u, u ≠ v → entry s.freq u = 0 :=
  ⟨withFreqs [(0x41, 4)] (base tightCaps), 0x41, by decide +kernel, fun u hu => by
    show entry (setEntry (filled (0 : Word)) 0x41 4) u = 0
    rw [entry_setEntry, if_neg hu, entry_filled]⟩

/-- BLD1: the tree BUILD gives is N(L 62, L 61); and one present symbol. -/
theorem witness_BuildIsOptimal :
    (let s := withFreqs [(0x61, 2), (0x62, 1)] (base tightCaps)
     ∃ t, exec .build s = .next t ∧ t.error = false ∧ MergesAnyPolicy (startQueue s.freq) bld1 ∧
      ∃ u, isFull u = true ∧ (leafSyms u).Perm (leafSyms t.tree)) ∧
    ∃ t, exec .build (withFreqs [(0x41, 4)] (base tightCaps)) = .next t ∧ t.error = false ∧ t.tree = .leaf 0x41 := by
  refine ⟨⟨_, rfl, by decide +kernel, ?_, .node (.leaf 0x61) (.leaf 0x62), rfl, by decide +kernel⟩,
    _, rfl, by decide +kernel, by decide +kernel⟩
  refine .merge _ ⟨1, 1, .leaf 0x62⟩ ⟨2, 0, .leaf 0x61⟩ [] 2 bld1 ?_ (by decide) (by decide) (.done ⟨3, 2, bld1⟩)
  decide +kernel

/-- Counts 1 and 2: the least positive count, and one more. -/
theorem witness_CodeLengthsFollowFrequency :
    let s := withFreqs [(0x61, 2), (0x62, 1)] (base tightCaps)
    ∃ t u, exec .build s = .next t ∧ t.error = false ∧ exec .gen t = .next u ∧
      (entry s.freq 0x62).toNat < (entry s.freq 0x61).toNat ∧ 0 < (entry s.freq 0x62).toNat := by
  refine ⟨_, _, rfl, by decide +kernel, rfl, by decide +kernel, by decide +kernel⟩

theorem witness_GenAssignsPaths : ∃ s : State, (leafSyms s.tree).Nodup :=
  ⟨{ base tightCaps with tree := bld3 }, by decide⟩

theorem witness_GenGivesPrefixCode : ∃ s t : State, (leafSyms s.tree).Nodup ∧ exec .gen s = .next t :=
  ⟨{ base tightCaps with tree := bld3 }, _, by decide, rfl⟩

/-- IN_LEN = IN_CAP and ⌈T / 8⌉ = OUT_CAP. -/
theorem witness_PackEmitsCodes :
    ∃ (s : State) (bs : List Byte) (S : Bits), bs.length = s.inLen.toNat ∧ 0 < bs.length ∧ bs.length ≤ s.caps.inCap ∧
      BytesAt s.inBuf bs ∧ (∀ b ∈ bs, entry s.code b ≠ []) ∧ S = bs.flatMap (entry s.code) ∧
      (S.length + 7) / 8 ≤ s.caps.outCap :=
  ⟨withCodes gen1 (withIn aab (base tightCaps)), aab, [true, true, false], by decide, by decide, by decide,
    bytesAt_writeAll _ _, by decide +kernel, by decide +kernel, by decide⟩

/-- IN_CAP + 1; 0; a first byte without a code, and a last one; a packed form one byte longer than OUT_CAP. -/
theorem witness_PackErrors :
    ({ base tightCaps with inLen := 4 }.caps.inCap < ({ base tightCaps with inLen := 4 } : State).inLen.toNat) ∧
    (base tightCaps).inLen.toNat = 0 ∧
    (let s := withCodes gen1 (withIn [0x63, 0x61] (base tightCaps))
     0 < s.inLen.toNat ∧ s.inLen.toNat ≤ s.caps.inCap ∧ BytesAt s.inBuf [0x63] ∧ 0 < s.inLen.toNat ∧
      entry s.code 0x63 = []) ∧
    (let s := withCodes gen1 (withIn [0x61, 0x62, 0x63] (base tightCaps))
     s.inLen.toNat ≤ s.caps.inCap ∧ BytesAt s.inBuf [0x61, 0x62, 0x63] ∧ 2 < s.inLen.toNat ∧
      (∀ b ∈ [0x61, 0x62, 0x63].take 2, entry s.code b ≠ []) ∧ entry s.code 0x63 = []) ∧
    (let s := withCodes [(0x61, List.replicate 9 true)] (withIn [0x61] (base tightCaps))
     s.inLen.toNat = 1 ∧ s.inLen.toNat ≤ s.caps.inCap ∧ BytesAt s.inBuf [0x61] ∧
      (∀ b ∈ [0x61], entry s.code b ≠ []) ∧ s.caps.outCap < (([0x61].flatMap (entry s.code)).length + 7) / 8) := by
  refine ⟨by decide, by decide, ⟨by decide, by decide, ?_, by decide, by decide +kernel⟩,
    ⟨by decide, bytesAt_writeAll _ _, by decide, by decide +kernel, by decide +kernel⟩,
    ⟨by decide, by decide, bytesAt_writeAll _ _, by decide +kernel, by decide +kernel⟩⟩
  unfold BytesAt
  decide +kernel

theorem witness_PackMatchesAccumulator :
    ∃ (s t : State) (bs : List Byte), exec .pack s = .next t ∧ t.error = false ∧ bs.length = s.inLen.toNat ∧
      BytesAt s.inBuf bs :=
  ⟨withCodes gen1 (withIn aab (base tightCaps)), _, aab, rfl, by decide +kernel, by decide, bytesAt_writeAll _ _⟩

/-- Two states that differ in TREE and FREQ: PACK of one goes on, and a PACK that faults. -/
theorem witness_PackIsAFunctionOfItsOperands :
    (let s := withCodes gen1 (withIn aab (base tightCaps))
     let u := { s with tree := bld1, freq := filled 7 }
     s.inLen = u.inLen ∧ s.code = u.code ∧ s.caps = u.caps ∧
      (∀ i, i < s.inLen.toNat → Memory.read s.inBuf i = Memory.read u.inBuf i) ∧ ∃ t, exec .pack s = .next t) ∧
    exec .pack { base tightCaps with inLen := 1 } = .fault (.uninitRead .inBuf 0) :=
  ⟨⟨rfl, rfl, rfl, fun _ _ => rfl, _, rfl⟩, eq_fault_of (by decide +kernel)⟩

theorem witness_SerializeWritesText : ∃ s : State, ∀ v, (entry s.code v).length ≤ 255 :=
  ⟨withCodes [(0xFF, List.replicate 255 true)] (base tightCaps), by decide +kernel⟩

/-- Two lines out of order; TXT_CAP itself is far above. -/
theorem witness_DeserializeReadsLines :
    let lines : List (Sym × Bits) := [(0x62, [false]), (0x61, [true])]
    let s := withTxt (lines.flatMap fun l => tableLine l.1 l.2) (base tightCaps)
    (lines.map (·.1)).Nodup ∧ (∀ l ∈ lines, 1 ≤ l.2.length ∧ l.2.length ≤ 255) ∧
    (∀ l ∈ lines, ∀ l' ∈ lines, l.1 ≠ l'.1 → ¬ l.2 <+: l'.2) ∧
    s.txtLen.toNat = (lines.flatMap fun l => tableLine l.1 l.2).length ∧ s.txtLen.toNat ≤ s.caps.txtCap ∧
    BytesAt s.txtBuf (lines.flatMap fun l => tableLine l.1 l.2) :=
  ⟨by decide, by decide, by decide, by decide, by decide, bytesAt_writeAll _ _⟩

/-- DS24: the least symbol in conflict is the one with the longer code. -/
theorem witness_DeserializePrefixConflict :
    let lines : List (Sym × Bits) := [(0x61, [true, false]), (0x62, [true])]
    let s := withTxt (lines.flatMap fun l => tableLine l.1 l.2) (base tightCaps)
    let conflicts : Sym → Prop := fun u =>
      ∃ l ∈ lines, ∃ l' ∈ lines, l.1 = u ∧ l'.1 ≠ u ∧ (l.2 <+: l'.2 ∨ l'.2 <+: l.2)
    (lines.map (·.1)).Nodup ∧ (∀ l ∈ lines, 1 ≤ l.2.length ∧ l.2.length ≤ 255) ∧
    s.txtLen.toNat = (lines.flatMap fun l => tableLine l.1 l.2).length ∧ s.txtLen.toNat ≤ s.caps.txtCap ∧
    BytesAt s.txtBuf (lines.flatMap fun l => tableLine l.1 l.2) ∧ conflicts 0x61 ∧
    ∀ u, u.toNat < (0x61 : Sym).toNat → ¬ conflicts u :=
  ⟨by decide, by decide, by decide, by decide, bytesAt_writeAll _ _, by decide, by decide +kernel⟩

/-- TXT_LEN = TXT_CAP + 1. -/
def tooLong : State := { base tightCaps with txtLen := 66817 }

/-- What the parser shows of a line that an unspecified byte follows. -/
theorem not_unfinished {seen : List Byte} {f : Fault} {r : List Operand}
    (h : parseLine (seen.map Except.ok ++ .error f :: r) ≠ .fault f) :
    ¬ Unfinished (seen.map Except.ok ++ Except.error f :: r : List Operand).length seen :=
  fun hu => h (parseLine_unfinished hu)

/-- A fault that stands for any unspecified byte. -/
def anyFault : Fault := .uninitRead .txtBuf 0

/-- After "a 0" and a line feed, the line that begins "b 2" is malformed at the '2', though the bytes after it are unspecified;
a second line of 'a' is so at its line feed. An escape with three bytes of room is malformed at its backslash, with four it
is unfinished. -/
theorem witness_DeserializeErrorsDecided :
    (let s := { withTxt [0x61, 0x20, 0x30, 0x0A, 0x62, 0x20, 0x32] (base tightCaps) with txtLen := 12 }
     s.txtLen.toNat ≤ s.caps.txtCap ∧ (tableLine 0x61 [false]).length + ([0x62, 0x20] : List Byte).length < s.txtLen.toNat ∧
      BytesAt s.txtBuf (tableLine 0x61 [false] ++ [0x62, 0x20] ++ [0x32]) ∧
      Memory.read s.txtBuf 7 = none ∧ Unfinished 8 [0x62, 0x20] ∧ ¬ Unfinished 8 ([0x62, 0x20] ++ [0x32]) ∧
      ∀ v c, 1 ≤ c.length → c.length ≤ 255 → ([0x62, 0x20] ++ [0x32] : List Byte) = tableLine v c → v ∈ [(0x61 : Sym)]) ∧
    (Unfinished 8 [0x61, 0x20, 0x31] ∧ ¬ Unfinished 8 ([0x61, 0x20, 0x31] ++ [0x0A]) ∧
      ∀ v c, 1 ≤ c.length → c.length ≤ 255 → ([0x61, 0x20, 0x31] ++ [0x0A] : List Byte) = tableLine v c →
        v ∈ [(0x61 : Sym)]) ∧
    Unfinished 3 [] ∧ ¬ Unfinished 3 ([] ++ [0x5C]) ∧ Unfinished 4 ([] ++ [0x5C]) := by
  refine ⟨⟨by decide, by decide, bytesAt_writeAll _ _, by decide, .inr (.inr ⟨0x62, .inr ⟨[], by decide⟩⟩),
      not_unfinished (f := anyFault) (r := List.replicate 4 (.error anyFault)) nofun, ?_⟩,
    ⟨.inr (.inr ⟨0x61, .inr ⟨[true], by decide⟩⟩),
      not_unfinished (f := anyFault) (r := List.replicate 3 (.error anyFault)) nofun, ?_⟩,
    .inl rfl, not_unfinished (f := anyFault) (r := List.replicate 1 (.error anyFault)) nofun,
    .inr (.inl ⟨by decide, .inl rfl⟩)⟩
  · intro v c h1 h2 h
    have h3 := parseLine_tableLine v c [] h1 h2
    rw [← h] at h3
    cases h3
  · intro v c h1 h2 h
    have h3 := parseLine_tableLine v c [] h1 h2
    rw [← h] at h3
    cases h3
    decide

/-- A length above TXT_CAP; DS25's last line, after two lines; and DS9's, a symbol for the second time. -/
theorem witness_DeserializeErrors :
    tooLong.caps.txtCap < tooLong.txtLen.toNat ∧
    (let lines : List (Sym × Bits) := [(0x61, [false]), (0x62, [false, true])]
     let s := withTxt ((lines.flatMap fun l => tableLine l.1 l.2) ++ [0x63]) (base tightCaps)
     (lines.map (·.1)).Nodup ∧ (∀ l ∈ lines, 1 ≤ l.2.length ∧ l.2.length ≤ 255) ∧ s.txtLen.toNat ≤ s.caps.txtCap ∧
      (lines.flatMap fun l => tableLine l.1 l.2).length + ([0x63] : List Byte).length = s.txtLen.toNat ∧
      BytesAt s.txtBuf ((lines.flatMap fun l => tableLine l.1 l.2) ++ [0x63]) ∧ ([0x63] : List Byte) ≠ [] ∧
      ∀ v c rest, 1 ≤ c.length → c.length ≤ 255 → ([0x63] : List Byte) = tableLine v c ++ rest → v ∈ lines.map (·.1)) ∧
    ∀ v c rest, 1 ≤ c.length → c.length ≤ 255 → tableLine 0x61 [false] = tableLine v c ++ rest →
      v ∈ ([(0x61, [true])] : List (Sym × Bits)).map (·.1) := by
  refine ⟨by decide +kernel, ⟨by decide, by decide, by decide, by decide, bytesAt_writeAll _ _, by decide, ?_⟩, ?_⟩
  · intro v c rest _ _ h
    have := congrArg List.length h
    simp [tableLine] at this
    omega
  · intro v c rest h1 h2 h
    have h3 := parseLine_tableLine 0x61 [false] [] (by decide) (by decide)
    have h4 := parseLine_tableLine v c (rest.map Except.ok) h1 h2
    rw [List.append_nil, h, List.map_append, h4] at h3
    simp only [Parse.ok.injEq, Prod.mk.injEq] at h3
    rw [h3.1.1]
    decide

/-- GEN3's codes; and a text whose lines are out of order. -/
theorem witness_SerializeRoundTrip :
    (∃ s t : State, PrefixFree s.code ∧ (∀ v, (entry s.code v).length ≤ 255) ∧ exec .serialize s = .next t) ∧
    ∃ s t u : State, s.txtLen = 8 ∧ exec .deserialize s = .next t ∧ t.error = false ∧ exec .serialize t = .next u :=
  ⟨⟨withCodes gen3 (base tightCaps), _, (prefixConflict_none_iff _).1 (by decide +kernel), by decide +kernel, rfl⟩,
    withTxt [0x62, 0x20, 0x30, 0x0A, 0x61, 0x20, 0x31, 0x0A] (base tightCaps), _, _, rfl, rfl, by decide +kernel, rfl⟩

theorem witness_ReconstructBuildsTrie : ∃ s : State, PrefixFree s.code :=
  ⟨withCodes gen3 (base tightCaps), (prefixConflict_none_iff _).1 (by decide +kernel)⟩

theorem witness_GenInvertsReconstruct :
    ∃ s t u : State, PrefixFree s.code ∧ exec .reconstruct s = .next t ∧ exec .gen t = .next u := by
  have hp : PrefixFree (withCodes gen1 (base tightCaps)).code := (prefixConflict_none_iff _).1 (by decide +kernel)
  obtain ⟨t, h, -⟩ := execReconstruct_of_prefixFree hp
  exact ⟨_, _, _, hp, h, rfl⟩

/-- A full tree of several leaves, and the root leaf. -/
theorem witness_ReconstructInvertsGen :
    (∃ s t : State, isFull s.tree = true ∧ (leafSyms s.tree).Nodup ∧ exec .gen s = .next t) ∧
    isFull (.leaf 0x41) = true ∧ (leafSyms (.leaf 0x41)).Nodup :=
  ⟨⟨{ base tightCaps with tree := bld3 }, _, by decide, by decide, rfl⟩, by decide, by decide⟩

/-- A path of every symbol of a tree. -/
def pathIn (t : PTree) (v : Sym) : Bits := entry (genTable t) v

/-- UP1, with IN_LEN ≤ IN_CAP and SYM_COUNT = OUT_CAP = 3. -/
theorem witness_UnpackBounded :
    let caps : Caps := ⟨3, 3, 66816, by decide, by decide, by decide⟩
    let s := { withIn [0xC0] (base caps) with tree := bld1, symCount := 3 }
    s.bounded = true ∧ s.inLen.toNat ≤ s.caps.inCap ∧ aab.length = s.symCount.toNat ∧ aab.length ≤ s.caps.outCap ∧
    (∀ v ∈ aab, subtreeAt (walkRoot s.tree) (pathIn bld1 v) = .leaf v) ∧ BitsAt s.inBuf (aab.flatMap (pathIn bld1)) ∧
    (aab.flatMap (pathIn bld1)).length ≤ 8 * s.inLen.toNat := by
  refine ⟨by decide, by decide, by decide, by decide, by decide +kernel, ?_, by decide +kernel⟩
  unfold BitsAt
  decide +kernel

/-- UP12: two symbols, then the partial path 11. -/
theorem witness_UnpackLegacy :
    let s := { withIn [0xFF] (base wideCaps) with tree := bld3, bounded := false }
    s.bounded = false ∧ s.inLen.toNat ≤ s.caps.inCap ∧ ([0x72, 0x72] : List Sym).length ≤ s.caps.outCap ∧
    (∀ v ∈ ([0x72, 0x72] : List Sym), subtreeAt (walkRoot s.tree) (pathIn bld3 v) = .leaf v) ∧
    (∃ l r, subtreeAt (walkRoot s.tree) [true, true] = .node l r) ∧
    BitsAt s.inBuf (([0x72, 0x72] : List Sym).flatMap (pathIn bld3) ++ [true, true]) ∧
    (([0x72, 0x72] : List Sym).flatMap (pathIn bld3) ++ [true, true]).length = 8 * s.inLen.toNat := by
  refine ⟨by decide, by decide, by decide, by decide +kernel, ⟨_, _, rfl⟩, ?_, by decide +kernel⟩
  unfold BitsAt
  decide +kernel

/-- IN_CAP + 1; OUT_CAP + 1 symbols; UP16, a bit into an absent child after one symbol; OUT_CAP symbols and one more in legacy
mode; the bits end in bounded mode. -/
theorem witness_UnpackErrors :
    ({ base tightCaps with inLen := 4 }.caps.inCap < ({ base tightCaps with inLen := 4 } : State).inLen.toNat) ∧
    (let s := { base tightCaps with symCount := 2 }
     s.inLen.toNat ≤ s.caps.inCap ∧ s.bounded = true ∧ s.caps.outCap < s.symCount.toNat) ∧
    (let s := { withIn [0x40] (base wideCaps) with tree := .node (.leaf 0x41) .empty, symCount := 2 }
     s.inLen.toNat ≤ s.caps.inCap ∧ (s.bounded = true → s.symCount.toNat ≤ s.caps.outCap ∧ 1 < s.symCount.toNat) ∧
      1 ≤ s.caps.outCap ∧ subtreeAt (walkRoot s.tree) [false] = .leaf 0x41 ∧
      (∃ l r, subtreeAt (walkRoot s.tree) [] = .node l r) ∧ BitsAt s.inBuf [false, true] ∧ 1 < 8 * s.inLen.toNat ∧
      subtreeAt (walkRoot s.tree) [true] = .empty) ∧
    (let s := { withIn [0x00] (base tightCaps) with tree := .leaf 0x41, bounded := false }
     (s.bounded = true → s.symCount.toNat ≤ s.caps.outCap ∧ 1 < s.symCount.toNat) ∧ 1 = s.caps.outCap ∧
      subtreeAt (walkRoot s.tree) [false] = .leaf 0x41 ∧ BitsAt s.inBuf [false, false] ∧ 1 < 8 * s.inLen.toNat) ∧
    (let s := { base tightCaps with tree := bld1, symCount := 1 }
     s.bounded = true ∧ s.symCount.toNat ≤ s.caps.outCap ∧ 0 < s.symCount.toNat ∧ BitsAt s.inBuf [] ∧
      ([] : Bits).length = 8 * s.inLen.toNat) := by
  refine ⟨by decide, by decide, ⟨by decide, by decide, by decide, by decide, ⟨_, _, rfl⟩, ?_, by decide, by decide⟩,
    ⟨by decide, by decide, by decide, ?_, by decide⟩, ⟨by decide, by decide, by decide, ?_, by decide⟩⟩ <;>
  · unfold BitsAt
    decide +kernel

/-- A command that completes, one that fails and one that faults. -/
theorem witness_CommandsWriteOnlyTheirResults : ∃ (i : Instr) (s t : State), exec i s = .next t :=
  ⟨.clear, base tightCaps, _, rfl⟩

theorem witness_ErrorCodesByCommand :
    ∃ (i : Instr) (s t : State), exec i s = .next t ∧ t.errCode = .emptyInput ∧ i ∈ [Instr.count, .build, .pack] :=
  ⟨.count, base tightCaps, _, rfl, by decide +kernel, by decide⟩

theorem witness_FailedCommandsLeaveNoResult :
    (∃ s t : State, exec .count s = .next t ∧ t.error = true) ∧ (∃ s t : State, exec .build s = .next t ∧ t.error = true) ∧
    (∃ s t : State, exec .pack s = .next t ∧ t.error = true) ∧ (∃ s t : State, exec .unpack s = .next t ∧ t.error = true) ∧
    ∃ s t : State, exec .deserialize s = .next t ∧ t.error = true :=
  ⟨⟨base tightCaps, _, rfl, by decide +kernel⟩, ⟨base tightCaps, _, rfl, by decide +kernel⟩,
    ⟨base tightCaps, _, rfl, by decide +kernel⟩, ⟨{ base tightCaps with symCount := 1 }, _, rfl, by decide +kernel⟩,
    ⟨withTxt [0x61] (base tightCaps), _, rfl, by decide +kernel⟩⟩

/-- CNT9: the last byte COUNT consumes is the only unspecified one; and DS27's form. -/
theorem witness_UninitReadOnlyOfOperands :
    (let s := { withIn [0x61, 0x61] (base tightCaps) with inLen := 3 }
     s.inLen.toNat ≤ s.caps.inCap ∧ 2 < s.inLen.toNat ∧ (∀ j, j < 2 → (Memory.read s.inBuf j).isSome = true) ∧
      Memory.read s.inBuf 2 = none ∧ exec .count s = .fault (.uninitRead .inBuf 2)) ∧
    exec .deserialize { withTxt [0x61, 0x20, 0x31, 0x0A] (base tightCaps) with txtLen := 8 } =
      .fault (.uninitRead .txtBuf 4) :=
  ⟨⟨by decide, by decide, by decide, by decide, eq_fault_of (by decide +kernel)⟩, eq_fault_of (by decide +kernel)⟩

/-- CNT9; PK21; DS27; UP26. UP25 reads byte 0 only and completes. -/
theorem witness_UninitReadAtFirstConsumedByte :
    let up := { withIn [0xC0, 0x00, 0x00, 0x00] (base wideCaps) with tree := bld1, symCount := 3, inLen := 5 }
    exec .count { base wideCaps with inLen := 3 } = .fault (.uninitRead .inBuf 0) ∧
    exec .pack (withCodes gen1 { withIn [0x61, 0x61, 0x61, 0x62] (base wideCaps) with inLen := 5 }) =
      .fault (.uninitRead .inBuf 4) ∧
    exec .deserialize { withTxt [0x61, 0x20, 0x31, 0x0A] (base wideCaps) with txtLen := 8 } =
      .fault (.uninitRead .txtBuf 4) ∧
    exec .unpack { up with bounded := false } = .fault (.uninitRead .inBuf 4) ∧
    (nextOf (exec .unpack up)).map (fun t => (statusWord t, t.outLen, t.bitCount)) = some (0x00000002, 3, 3) :=
  ⟨eq_fault_of (by decide +kernel), eq_fault_of (by decide +kernel), eq_fault_of (by decide +kernel),
    eq_fault_of (by decide +kernel), by decide +kernel⟩

/-- Reset's block is sound, and it steps. -/
theorem witness_StepKeepsSound : ∃ s t : State, Sound s ∧ step s = .next t := by
  have hf : ∀ v, entry (filled (0 : Word)) v = 0 := entry_filled 0
  have hc : ∀ v, entry (filled ([] : Bits)) v = [] := entry_filled []
  refine ⟨base tightCaps, base tightCaps, ⟨⟨rfl, rfl, rfl, fun i h => absurd h (by simp [base, State.reset, Block.reset]),
    fun v => ?_, (countEntries_filled _ 0 rfl).symm, fun v _ _ h => absurd (hc v) h, fun v => ?_,
    (countEntries_filled _ [] rfl).symm, List.nodup_nil, rfl, Nat.zero_le _, by decide, (fun h => nomatch h),
    (fun h => nomatch h)⟩, (fun h => nomatch h)⟩, rfl⟩
  · rw [show entry (base tightCaps).freq v = 0 from hf v]; exact Nat.zero_le _
  · rw [show entry (base tightCaps).code v = [] from hc v]; exact Nat.zero_le _

theorem witness_OnlyUninitReadFaults : ∃ s : State, Sound s := witness_StepKeepsSound.imp fun _ h => h.choose_spec.1

/-- No command; and two, of which the second reports an error and goes on; and two with nothing after them. -/
theorem witness_CommandSequencesRun :
    (base tightCaps).seq = .idle ∧ (base tightCaps).host = runAll [] ++ [] ∧
    runCommands [] (base tightCaps) = some (base tightCaps) ∧
    let s := { base tightCaps with host := runAll [.gen, .count] ++ [.read 0x10] }
    s.seq = .idle ∧ s.host = runAll [.gen, .count] ++ [.read 0x10] ∧ (∃ t, runCommands [.gen, .count] s = some t) ∧
    (base tightCaps).resetLast = false ∧ [Instr.gen, .count] ≠ [] ∧
    ∃ t, runCommands [.gen, .count] { base tightCaps with host := runAll [.gen, .count] ++ [] } = some t :=
  ⟨rfl, rfl, rfl, rfl, rfl, ⟨_, rfl⟩, rfl, by decide, _, rfl⟩

/-- One byte, IN_LEN = 1 = OUT_CAP: the least buffer, with its own packed form as the new contents of IN_BUF. -/
theorem witness_CompressDecompressRoundTrip :
    let s := withIn [0x41] (base tightCaps)
    s.bounded = true ∧ ([0x41] : List Byte).length = s.inLen.toNat ∧ 0 < ([0x41] : List Byte).length ∧
    ([0x41] : List Byte).length ≤ s.caps.inCap ∧ ([0x41] : List Byte).length ≤ s.caps.outCap ∧ BytesAt s.inBuf [0x41] :=
  ⟨by decide, by decide, by decide, by decide, by decide, bytesAt_writeAll _ _⟩

end Sys2Proof.Machine
end

section
/-! From a state that meets the invariant, a step ends in a next state or in the fault of an unspecified byte (O57).
The commands are taken first, then the two ways a step reaches an outcome: acceptance and the count-down of a busy window. -/

namespace Sys2Proof.Machine

/-- The outcomes O57 allows: a next state, or the fault of having consumed an unspecified byte (00_scope R13). -/
def NextOrUninitRead (o : Host.Outcome State Fault Refusal) : Prop :=
  (∃ t, o = .next t) ∨ ∃ b k, o = .fault (.uninitRead b k)

theorem NextOrUninitRead.next (t : State) : NextOrUninitRead (.next t) := .inl ⟨t, rfl⟩

/-! ### The commands -/

theorem execCount_nextOrUninitRead (s : State) : NextOrUninitRead (execCount s) := by
  rcases execCount_cases s with ⟨-, h⟩ | ⟨-, h⟩ | ⟨-, -, ⟨_, -, -, h⟩ | ⟨_, -, -, -, h⟩⟩
  · exact .inl ⟨_, h⟩
  · exact .inl ⟨_, h⟩
  · exact .inl ⟨_, h⟩
  · exact .inr ⟨_, _, h⟩

theorem execBuild_nextOrUninitRead (s : State) : NextOrUninitRead (execBuild s) := by
  rcases execBuild_cases s with ⟨-, h⟩ | ⟨_, -, -, -, h⟩
  · exact .inl ⟨_, h⟩
  · exact .inl ⟨_, h⟩

theorem execPack_nextOrUninitRead (s : State) : NextOrUninitRead (execPack s) := by
  rcases execPack_cases s with ⟨-, h⟩ | ⟨-, h⟩ |
    ⟨-, -, ⟨_, _, -, -, -, -, h⟩ | ⟨_, -, -, -, -, h⟩ | ⟨_, -, -, -, h⟩⟩
  · exact .inl ⟨_, h⟩
  · exact .inl ⟨_, h⟩
  · exact .inl ⟨_, h⟩
  · exact .inr ⟨_, _, h⟩
  · exact .inl ⟨_, h⟩

theorem execDeserialize_nextOrUninitRead (s : State) : NextOrUninitRead (execDeserialize s) := by
  rcases execDeserialize_cases s with ⟨-, h⟩ |
    ⟨-, ⟨_, h⟩ | ⟨_, _, -, -, -, -, -, -, h⟩ | ⟨_, -, -, -, -, ⟨_, -, h⟩ | ⟨-, h⟩⟩⟩
  · exact .inl ⟨_, h⟩
  · exact .inl ⟨_, h⟩
  · exact .inr ⟨_, _, h⟩
  · exact .inl ⟨_, h⟩
  · exact .inl ⟨_, h⟩

/-- What R32 says of CODE keeps RECONSTRUCT from the cases of `insert` that R85 marks unreachable. -/
theorem execReconstruct_nextOrUninitRead {s : State} (hc : PrefixFree s.code) : NextOrUninitRead (execReconstruct s) := by
  obtain ⟨_, h, -⟩ := execReconstruct_of_prefixFree hc
  exact .inl ⟨_, h⟩

theorem execUnpack_nextOrUninitRead (s : State) : NextOrUninitRead (execUnpack s) := by
  rcases execUnpack_cases s with ⟨_, _, -, h⟩ | ⟨-, -, _, _, _, -, -, -, -, -, -, -, -, h⟩ | ⟨_, _, -, h⟩
  · exact .inl ⟨_, h⟩
  · exact .inr ⟨_, _, h⟩
  · exact .inl ⟨_, h⟩

theorem exec_nextOrUninitRead (i : Instr) {s : State} (hc : PrefixFree s.code) : NextOrUninitRead (exec i s) := by
  cases i with
  | nop => exact .next _
  | count => exact execCount_nextOrUninitRead s
  | build => exact execBuild_nextOrUninitRead s
  | gen => exact .next _
  | pack => exact execPack_nextOrUninitRead s
  | serialize => exact .next _
  | deserialize => exact execDeserialize_nextOrUninitRead s
  | reconstruct => exact execReconstruct_nextOrUninitRead hc
  | unpack => exact execUnpack_nextOrUninitRead s
  | clear => exact .next _

/-! ### Acceptance and the busy window -/

/-- Any command word: a legal one runs its command, an illegal one completes with an error (R62, R93). -/
theorem runWord_nextOrUninitRead (w : Word) {s : State} (hc : PrefixFree s.code) : NextOrUninitRead (runWord w s) := by
  unfold runWord
  cases decode w with
  | ok i => exact exec_nextOrUninitRead i hc
  | error _ => exact .next _

/-- A busy window only delays the outcome: whatever is pending, acceptance itself has a next state (R36). -/
theorem publish_nextOrUninitRead (k : Nat) (s : State) {o : Host.Outcome State Fault Refusal} (h : NextOrUninitRead o) :
    NextOrUninitRead (publish k s o) := by
  rcases h with ⟨t, rfl⟩ | ⟨b, i, rfl⟩
  · exact .next _
  · cases k with
    | zero => exact .inr ⟨b, i, rfl⟩
    | succ n => exact .next _

theorem acceptCommand_nextOrUninitRead (k : Nat) (w : Word) {s : State} (hc : PrefixFree s.code) :
    NextOrUninitRead (acceptCommand k w s) :=
  publish_nextOrUninitRead k _ (runWord_nextOrUninitRead w hc)

/-- What ends a busy window is a pending block or a pending fault, and the invariant knows the fault (R102). -/
theorem countDown_busy_nextOrUninitRead {c : Caps} {b : Block} {n : Nat} {p : Pending} {s : State}
    (hs : s.seq = .busy n p) (hp : PendingSound c b p) : NextOrUninitRead (countDown s) := by
  rw [countDown_of_busy hs]
  cases n with
  | succ m => exact .next _
  | zero =>
    cases p with
    | block r => exact .next _
    | fault f =>
      obtain ⟨buf, i, rfl⟩ := hp
      exact .inr ⟨buf, i, rfl⟩

theorem writeBusy_seq (s : State) (p : Place) : (writeBusy s p).seq = s.seq := by rw [writeBusy_eq]

/-! ### One step -/

/-- While idle, only a CMD write can do more than go on; it accepts a command. -/
theorem step_idle_nextOrUninitRead {s : State} (hs : s.seq = .idle) (hc : PrefixFree s.code) :
    NextOrUninitRead (step s) := by
  rcases hh : s.host with _ | ⟨op, rest⟩
  · exact .inl ⟨_, step_of_nil hh⟩
  cases op with
  | read a => exact .inl ⟨_, (step_of_read hh).trans (countDown_of_idle hs)⟩
  | write a v =>
    by_cases hp : placeOf s.caps a = .reg .cmd
    · rw [step_of_write_cmd hh hs hp]
      exact acceptCommand_nextOrUninitRead _ v hc
    · exact .inl ⟨_, step_of_write_idle hh hs hp⟩
  | wait => exact .inl ⟨_, step_of_wait_idle hh hs⟩
  | reset => exact .inl ⟨_, step_of_reset hh⟩

/-- While busy, every access is one access of the window, and a reset abandons what is pending (R50, R106). -/
theorem step_busy_nextOrUninitRead {s : State} {n : Nat} {p : Pending} (hs : s.seq = .busy n p)
    (hp : PendingSound s.caps s.toBlock p) : NextOrUninitRead (step s) := by
  have hb : isBusy s = true := isBusy_of_busy hs
  rcases hh : s.host with _ | ⟨op, rest⟩
  · exact .inl ⟨_, step_of_nil hh⟩
  cases op with
  | read a =>
    rw [step_of_read hh]
    exact countDown_busy_nextOrUninitRead hs hp
  | write a v =>
    rw [step_of_write_busy hh hb]
    exact countDown_busy_nextOrUninitRead ((writeBusy_seq _ _).trans hs) hp
  | wait =>
    rw [step_of_wait_busy hh hb]
    exact countDown_busy_nextOrUninitRead hs hp
  | reset => exact .inl ⟨_, step_of_reset hh⟩

/-- Settles O57: an idle step needs only what R32 says of CODE, a busy step only that a pending fault is UninitRead,
and the invariant holds both. -/
theorem onlyUninitReadFaults : Obligations.OnlyUninitReadFaults := by
  intro s ⟨hblock, hseq⟩
  unfold SeqSound at hseq
  split at hseq
  next hs => exact step_idle_nextOrUninitRead hs hblock.code_prefix
  next n p hs => exact step_busy_nextOrUninitRead hs hseq.2

end Sys2Proof.Machine
end

section
/-! What a command answers when it completes: the fields it writes, then a completion (R97, R98). The frame of every
command (O51) and the invariant (O56) both go through this one inversion. -/

namespace Sys2Proof.Machine

/-- What command `i` leaves of the state `s` before it completes: one constructor for each way it can end. -/
inductive Effect (s : State) : Instr → State → Prop where
  | nop : Effect s .nop s
  | countFailed : Effect s .count (clearFreq s)
  | counted (bs : List Byte) (h : bs.length ≤ s.caps.inCap) : Effect s .count (setFreq (tally bs) s)
  | buildFailed : Effect s .build { s with tree := .empty }
  | built (t : PTree) (hfull : isFull t = true)
      (hleaves : (leafSyms t).Perm (allSyms.filter fun v => entry s.freq v ≠ 0)) : Effect s .build { s with tree := t }
  | generated : Effect s .gen (setCode (genTable s.tree) s)
  | packFailed : Effect s .pack (failPack s)
  | packed (bits : Bits) (n : Word) (h : bytesFor bits.length ≤ s.caps.outCap) : Effect s .pack { s with
      outBuf := Memory.writeAll s.outBuf 0 (packBits bits), outLen := BitVec.ofNat 32 (bytesFor bits.length)
      symCount := n, bitCount := BitVec.ofNat 32 bits.length }
  | serialized : Effect s .serialize { s with
      txtBuf := Memory.writeAll s.txtBuf 0 (tableText s.code), txtLen := BitVec.ofNat 32 (tableText s.code).length }
  | deserializeFailed : Effect s .deserialize (clearCode s)
  | deserialized (lines : List (Sym × Bits)) (hn : (lines.map (·.1)).Nodup)
      (hl : ∀ l ∈ lines, 1 ≤ l.2.length ∧ l.2.length ≤ 255)
      (hp : PrefixFree (lines.foldl (fun c e => setEntry c e.1 e.2) (filled []))) : Effect s .deserialize { s with
      code := lines.foldl (fun c e => setEntry c e.1 e.2) (filled []), codeNsym := BitVec.ofNat 32 lines.length }
  | reconstructed (t : PTree) (h : insertCodes .empty (entries s.code) = .ok t) :
      Effect s .reconstruct { s with tree := t }
  | unpackFailed : Effect s .unpack (failUnpack s)
  | unpacked (syms : List Sym) (last : Word) (h : syms.length ≤ s.caps.outCap) : Effect s .unpack { s with
      outBuf := Memory.writeAll s.outBuf 0 syms, outLen := BitVec.ofNat 32 syms.length, bitCount := last }
  | cleared : Effect s .clear { s with
      freq := filled 0, code := filled [], tree := .empty, inLen := 0, outLen := 0, symCount := 0, bitCount := 0
      txtLen := 0, distinct := 0, codeNsym := 0 }

/-- `t` is `u` completed, with success (R97) or with an error (R98). -/
def Completes (u t : State) : Prop := t = finish u ∨ ∃ code info, code ≠ .none ∧ t = raiseErr code info u

theorem completes_finish (u : State) : Completes u (finish u) := .inl rfl

theorem completes_raiseErr (u : State) {code : ErrCode} (info : Word) (h : code ≠ .none) :
    Completes u (raiseErr code info u) := .inr ⟨code, info, h, rfl⟩

/-- Completion writes the sequencer, DONE, ERROR, ERR_CODE and ERR_INFO, and nothing else. -/
theorem Completes.eq_update {u t : State} (h : Completes u t) : ∃ e c w,
    t = { u with seq := .idle, done := true, error := e, errCode := c, errInfo := w } := by
  obtain rfl | ⟨c, w, -, rfl⟩ := h
  · exact ⟨_, _, _, rfl⟩
  · exact ⟨_, _, _, rfl⟩

/-- What it means that command `i`, run on `s`, can only answer a completed effect of its own. -/
def AnswersEffect (s : State) (i : Instr) (o : Host.Outcome State Fault Refusal) : Prop :=
  ∀ t, o = .next t → ∃ u, Effect s i u ∧ Completes u t

theorem answersEffect_fault (s : State) (i : Instr) (f : Fault) : AnswersEffect s i (.fault f) := by
  rintro t ⟨⟩

theorem answersEffect_finish {s u : State} {i : Instr} (h : Effect s i u) : AnswersEffect s i (.next (finish u)) := by
  rintro t ⟨⟩
  exact ⟨u, h, completes_finish u⟩

theorem answersEffect_raiseErr {s u : State} {i : Instr} (h : Effect s i u) {code : ErrCode} (info : Word)
    (hc : code ≠ .none) : AnswersEffect s i (.next (raiseErr code info u)) := by
  rintro t ⟨⟩
  exact ⟨u, h, completes_raiseErr u info hc⟩

theorem execCount_effect (s : State) : AnswersEffect s .count (execCount s) := by
  rcases execCount_cases s with ⟨-, h⟩ | ⟨-, h⟩ | ⟨-, hcap, ⟨bs, hlen, -, h⟩ | ⟨_, -, -, -, h⟩⟩ <;> rw [h]
  · exact answersEffect_raiseErr .countFailed _ nofun
  · exact answersEffect_raiseErr .countFailed _ nofun
  · exact answersEffect_finish (.counted bs (hlen.trans_le hcap))
  · exact answersEffect_fault s _ _

theorem execBuild_effect (s : State) : AnswersEffect s .build (execBuild s) := by
  rcases execBuild_cases s with ⟨-, h⟩ | ⟨t, hfull, hleaves, -, h⟩ <;> rw [h]
  · exact answersEffect_raiseErr .buildFailed _ nofun
  · exact answersEffect_finish (.built t hfull hleaves)

theorem writePacked_effect (n : Word) (bits : Bits) (s : State) :
    AnswersEffect s .pack (.next (writePacked n bits s)) := by
  rcases writePacked_cases n bits s with ⟨-, h⟩ | ⟨hcap, h⟩ <;> rw [h]
  · exact answersEffect_raiseErr .packFailed _ nofun
  · exact answersEffect_finish (.packed bits n hcap)

theorem execPack_effect (s : State) : AnswersEffect s .pack (execPack s) := by
  rcases execPack_cases s with ⟨-, h⟩ | ⟨-, h⟩ |
    ⟨-, -, ⟨_, _, -, -, -, -, h⟩ | ⟨_, -, -, -, -, h⟩ | ⟨_, -, -, -, h⟩⟩ <;> rw [h]
  · exact answersEffect_raiseErr .packFailed _ nofun
  · exact answersEffect_raiseErr .packFailed _ nofun
  · exact answersEffect_raiseErr .packFailed _ nofun
  · exact answersEffect_fault s _ _
  · exact writePacked_effect _ _ s

theorem execDeserialize_effect (s : State) : AnswersEffect s .deserialize (execDeserialize s) := by
  rcases execDeserialize_cases s with ⟨-, h⟩ |
    ⟨-, ⟨_, h⟩ | ⟨_, _, -, -, -, -, -, -, h⟩ | ⟨lines, hn, hl, -, -, ⟨_, -, h⟩ | ⟨hp, h⟩⟩⟩ <;> rw [h]
  · exact answersEffect_raiseErr .deserializeFailed _ nofun
  · exact answersEffect_raiseErr .deserializeFailed _ nofun
  · exact answersEffect_fault s _ _
  · exact answersEffect_raiseErr .deserializeFailed _ nofun
  · exact answersEffect_finish (.deserialized lines hn hl hp)

theorem execReconstruct_effect (s : State) : AnswersEffect s .reconstruct (execReconstruct s) := by
  unfold execReconstruct
  split
  next t h => exact answersEffect_finish (.reconstructed t h)
  next => exact answersEffect_fault s _ _

theorem execUnpack_effect (s : State) : AnswersEffect s .unpack (execUnpack s) := by
  rcases execUnpack_cases s with ⟨code, _, hcode, h⟩ | ⟨-, -, _, _, _, -, -, -, -, -, -, -, -, h⟩ | ⟨syms, _, hcap, h⟩ <;>
    rw [h]
  · exact answersEffect_raiseErr .unpackFailed _ (by rintro rfl; simp at hcode)
  · exact answersEffect_fault s _ _
  · exact answersEffect_finish (.unpacked syms _ hcap)

/-- Every command that completes completes one of its effects. -/
theorem exec_effect (i : Instr) (s : State) : AnswersEffect s i (exec i s) := by
  cases i with
  | nop => exact answersEffect_finish .nop
  | count => exact execCount_effect s
  | build => exact execBuild_effect s
  | gen => exact answersEffect_finish .generated
  | pack => exact execPack_effect s
  | serialize => exact answersEffect_finish .serialized
  | deserialize => exact execDeserialize_effect s
  | reconstruct => exact execReconstruct_effect s
  | unpack => exact execUnpack_effect s
  | clear => exact answersEffect_finish .cleared

/-- R39: what no command writes. -/
theorem Effect.kept {s u : State} {i : Instr} (h : Effect s i u) :
    u.bounded = s.bounded ∧ u.inBuf = s.inBuf ∧ u.viol = s.viol ∧ u.lastCmd = s.lastCmd ∧ u.caps = s.caps ∧
    u.host = s.host ∧ u.reads = s.reads ∧ u.draws = s.draws ∧ u.resetLast = s.resetLast := by
  cases h <;> exact ⟨rfl, rfl, rfl, rfl, rfl, rfl, rfl, rfl, rfl⟩

/-- Settles O51: completion writes STATUS and ERR_INFO only, and each effect writes only the results of its command. -/
theorem commandsWriteOnlyTheirResults : Obligations.CommandsWriteOnlyTheirResults := by
  intro i s t h
  obtain ⟨u, hu, hut⟩ := exec_effect i s t h
  obtain ⟨hbounded, hinBuf, hviol, hlastCmd, hcaps, hhost, hreads, hdraws, hresetLast⟩ := hu.kept
  obtain ⟨_, _, _, rfl⟩ := hut.eq_update
  refine ⟨rfl, rfl, hbounded, hinBuf, hviol, hlastCmd, hcaps, hhost, hreads, hdraws, hresetLast, ?_⟩
  cases hu <;> simp

end Sys2Proof.Machine
end

section
/-! Every step keeps the invariant (O56), from reset on (O55): first the block's invariant through the effects of the
commands and their completion, then the sequencer's through acceptance and the busy window. -/

namespace Sys2Proof.Machine

/-! ### Reset -/

theorem blockSound_reset (c : Caps) : BlockSound c Block.reset where
  inBuf_wf := rfl
  outBuf_wf := rfl
  txtBuf_wf := rfl
  out_specified i hi := absurd hi (Nat.not_lt_zero i)
  freq_le v := (congrArg BitVec.toNat (entry_filled 0 v)).trans_le (Nat.zero_le _)
  distinct_eq := (countEntries_filled _ 0 rfl).symm
  code_prefix v _ _ hv := absurd (entry_filled [] v) hv
  code_len v := (congrArg List.length (entry_filled [] v)).trans_le (Nat.zero_le _)
  codeNsym_eq := (countEntries_filled _ [] rfl).symm
  tree_nodup := List.nodup_nil
  tree_trimmed := rfl
  tree_height := Nat.zero_le _
  error_iff := by decide
  error_done := nofun
  info_zero := nofun

/-- Settles O55: reset's tables are empty, nothing is specified, and no command has completed. -/
theorem resetIsSound : Obligations.ResetIsSound := ⟨blockSound_reset _, nofun⟩

/-! ### What each effect writes, piece by piece

Each lemma says what one piece of the block's state may become. -/

section
variable {c : Caps} {b : Block}

theorem BlockSound.freq_update (h : BlockSound c b) {f : Table Word} (hf : ∀ v, (entry f v).toNat ≤ c.inCap)
    {d : Word} (hd : d.toNat = countEntries (· != 0) f) : BlockSound c { b with freq := f, distinct := d } :=
  { h with freq_le := hf, distinct_eq := hd }

theorem BlockSound.code_update (h : BlockSound c b) {t : Table Bits} (hp : PrefixFree t)
    (hl : ∀ v, (entry t v).length ≤ 255) {n : Word} (hn : n.toNat = countEntries (!·.isEmpty) t) :
    BlockSound c { b with code := t, codeNsym := n } :=
  { h with code_prefix := hp, code_len := hl, codeNsym_eq := hn }

theorem BlockSound.tree_update (h : BlockSound c b) {t : PTree} (hn : (leafSyms t).Nodup) (ht : isTrimmed t = true)
    (hh : height t ≤ 255) : BlockSound c { b with tree := t } :=
  { h with tree_nodup := hn, tree_trimmed := ht, tree_height := hh }

/-- A run of bytes that fits is written at the start of OUT_BUF and its length to OUT_LEN. -/
theorem BlockSound.out_update (h : BlockSound c b) {bs : List Byte} (hb : bs.length ≤ c.outCap) (sc bc : Word) :
    BlockSound c { b with
      outBuf := Memory.writeAll b.outBuf 0 bs, outLen := BitVec.ofNat 32 bs.length, symCount := sc, bitCount := bc } :=
  { h with
    outBuf_wf := wf_writeAll _ _ _ _ (by omega) h.outBuf_wf
    out_specified := fun i hi => by
      have hlt : i < bs.length := hi.trans_le (Nat.mod_le _ _)
      simp [read_writeAll_zero, hlt] }

/-- A failed PACK or UNPACK leaves OUT_BUF unspecified and OUT_LEN 0 (R99). -/
theorem BlockSound.out_clear (h : BlockSound c b) (sc bc : Word) :
    BlockSound c { b with outBuf := [], outLen := 0, symCount := sc, bitCount := bc } :=
  { h with outBuf_wf := rfl, out_specified := fun i hi => absurd hi (Nat.not_lt_zero i) }

theorem BlockSound.txt_update (h : BlockSound c b) {bs : List Byte} (hb : bs.length ≤ c.txtCap) (n : Word) :
    BlockSound c { b with txtBuf := Memory.writeAll b.txtBuf 0 bs, txtLen := n } :=
  { h with txtBuf_wf := wf_writeAll _ _ _ _ (by omega) h.txtBuf_wf }

end

/-! ### The values the commands write meet the bounds -/

theorem toNat_ofNat_countEntries {α : Type} (p : α → Bool) (t : Table α) :
    (BitVec.ofNat 32 (countEntries p t)).toNat = countEntries p t := by
  have := countEntries_le p t
  exact Nat.mod_eq_of_lt (by omega)

theorem entry_tally_le {c : Caps} {bs : List Byte} (h : bs.length ≤ c.inCap) (v : Sym) :
    (entry (tally bs) v).toNat ≤ c.inCap := by
  rw [entry_tally bs (h.trans_lt (caps_lt c).1) v]
  exact List.count_le_length.trans h

theorem height_walkRoot_le {t : PTree} (h : height t ≤ 255) : height (walkRoot t) ≤ 255 := by
  cases t with
  | empty => decide
  | leaf v => exact Nat.le_of_ble_eq_true rfl
  | node l r => exact h

/-- A code GEN assigns is a path from the walk's root, so the tree's height bounds it. -/
theorem length_entry_genTable_le {t : PTree} (hn : (leafSyms t).Nodup) (hh : height t ≤ 255) (v : Sym) :
    (entry (genTable t) v).length ≤ 255 := by
  by_cases hv : entry (genTable t) v = []
  · simp [hv]
  · exact (length_le_height ((entry_genTable hn v _).1 ⟨rfl, hv⟩)).trans (height_walkRoot_le hh)

theorem length_entry_lines_le {lines : List (Sym × Bits)} (hn : (lines.map (·.1)).Nodup)
    (hl : ∀ l ∈ lines, 1 ≤ l.2.length ∧ l.2.length ≤ 255) (v : Sym) :
    (entry (lines.foldl (fun c e => setEntry c e.1 e.2) (filled [])) v).length ≤ 255 := by
  obtain ⟨listed, unlisted⟩ := entry_lines hn v
  by_cases hv : v ∈ lines.map (·.1)
  · obtain ⟨l, hmem, rfl⟩ := List.mem_map.1 hv
    rw [listed l.2 hmem]
    exact (hl l hmem).2
  · simp [unlisted hv]

/-- BUILD's tree has at most 256 leaves, and a full tree is less high than it has leaves. -/
theorem BlockSound.tree_built {c : Caps} {b : Block} (h : BlockSound c b) {t : PTree} (hfull : isFull t = true)
    (hleaves : (leafSyms t).Perm (allSyms.filter fun v => entry b.freq v ≠ 0)) : BlockSound c { b with tree := t } := by
  have hlen : (leafSyms t).length ≤ 256 :=
    hleaves.length_eq.trans_le ((List.length_filter_le _ _).trans_eq length_allSyms)
  have hheight := height_lt_of_full hfull
  exact h.tree_update (hleaves.nodup_iff.2 (allSyms_nodup.sublist List.filter_sublist)) (isTrimmed_of_full hfull)
    (by omega)

/-- RECONSTRUCT's tree has its leaves at the ends of the codes, and codes have at most 255 bits. -/
theorem BlockSound.tree_reconstructed {c : Caps} {b : Block} (h : BlockSound c b) {t : PTree}
    (ht : insertCodes .empty (entries b.code) = .ok t) : BlockSound c { b with tree := t } := by
  obtain ⟨t', ht', hleaf, -, hnodup, htrimmed⟩ := insertCodes_entries h.code_prefix
  obtain rfl : t = t' := Except.ok.inj (ht.symm.trans ht')
  refine h.tree_update hnodup htrimmed (height_le_of_trimmed htrimmed 255 fun p v hp => ?_)
  rw [← ((hleaf p v).1 hp).1]
  exact h.code_len v

/-! ### Effects and completion -/

/-- CLEAR leaves the buffers and STATUS, and reset's values in every table and length. -/
theorem BlockSound.cleared {c : Caps} {b : Block} (h : BlockSound c b) : BlockSound c { b with
    freq := filled 0, code := filled [], tree := .empty, inLen := 0, outLen := 0, symCount := 0, bitCount := 0
    txtLen := 0, distinct := 0, codeNsym := 0 } :=
  { blockSound_reset c with
    inBuf_wf := h.inBuf_wf
    outBuf_wf := h.outBuf_wf
    txtBuf_wf := h.txtBuf_wf
    out_specified := fun i hi => absurd hi (Nat.not_lt_zero i)
    error_iff := h.error_iff
    error_done := h.error_done
    info_zero := h.info_zero }

/-- What a command leaves before it completes meets the block's invariant. -/
theorem Effect.blockSound {s u : State} {i : Instr} (hu : Effect s i u) (h : BlockSound s.caps s.toBlock) :
    BlockSound s.caps u.toBlock := by
  have hreset := blockSound_reset s.caps
  cases hu with
  | nop => exact h
  | countFailed => exact h.freq_update hreset.freq_le hreset.distinct_eq
  | counted bs hbs => exact h.freq_update (entry_tally_le hbs) (toNat_ofNat_countEntries _ _)
  | buildFailed => exact h.tree_update List.nodup_nil rfl (Nat.zero_le _)
  | built t hfull hleaves => exact h.tree_built hfull hleaves
  | generated =>
    exact h.code_update (prefixFree_genTable h.tree_nodup) (length_entry_genTable_le h.tree_nodup h.tree_height)
      (toNat_ofNat_countEntries _ _)
  | packFailed => exact h.out_clear 0 0
  | packed bits n hbits =>
    rw [← length_packBits] at hbits ⊢
    exact h.out_update hbits _ _
  | serialized => exact h.txt_update ((length_tableText_le _ h.code_len).trans s.caps.txtCap_bounds.1) _
  | deserializeFailed => exact h.code_update hreset.code_prefix hreset.code_len hreset.codeNsym_eq
  | deserialized lines hn hl hp =>
    refine h.code_update hp (length_entry_lines_le hn hl) ?_
    rw [← countEntries_lines hn fun l hmem => (hl l hmem).1, toNat_ofNat_countEntries]
  | reconstructed t ht => exact h.tree_reconstructed ht
  | unpackFailed => exact h.out_clear _ 0
  | unpacked syms last hsyms => exact h.out_update hsyms _ _
  | cleared => exact h.cleared

theorem Completes.blockSound {c : Caps} {u t : State} (ht : Completes u t) (h : BlockSound c u.toBlock) :
    BlockSound c t.toBlock := by
  obtain rfl | ⟨code, info, hcode, rfl⟩ := ht
  · exact { h with error_iff := by simp, error_done := nofun, info_zero := fun _ _ => rfl }
  · exact { h with error_iff := by simp [hcode], error_done := fun _ => rfl, info_zero := fun _ => nofun }

/-- Whatever the command word, what completes is an effect: an illegal word leaves what NOP leaves (R93). -/
theorem runWord_effect {w : Word} {s t : State} (h : runWord w s = .next t) : ∃ i u, Effect s i u ∧ Completes u t := by
  unfold runWord at h
  split at h
  next i _ => exact ⟨i, exec_effect i s t h⟩
  next => exact ⟨.nop, answersEffect_raiseErr (code := .illegalCommand) .nop w nofun t h⟩

/-! ### The sequencer -/

theorem sound_of_idle {s : State} (hs : s.seq = .idle) (hb : BlockSound s.caps s.toBlock)
    (hv : s.viol = true → s.done = true) : Sound s := by
  refine ⟨hb, ?_⟩
  unfold SeqSound
  rw [hs]
  exact hv

theorem sound_of_busy {s : State} {n : Nat} {p : Pending} (hs : s.seq = .busy n p) (hb : BlockSound s.caps s.toBlock)
    (hd : s.done = false) (hp : PendingSound s.caps s.toBlock p) : Sound s := by
  refine ⟨hb, ?_⟩
  unfold SeqSound
  rw [hs]
  exact ⟨hd, hp⟩

theorem Sound.viol_done {s : State} (h : Sound s) (hs : s.seq = .idle) : s.viol = true → s.done = true := by
  have hseq := h.2
  unfold SeqSound at hseq
  rwa [hs] at hseq

theorem Sound.busy {s : State} (h : Sound s) {n : Nat} {p : Pending} (hs : s.seq = .busy n p) :
    s.done = false ∧ PendingSound s.caps s.toBlock p := by
  have hseq := h.2
  unfold SeqSound at hseq
  rwa [hs] at hseq

theorem accept_blockSound {c : Caps} {w : Word} {s : State} (h : BlockSound c s.toBlock) :
    BlockSound c (accept w s).toBlock :=
  { h with error_iff := by simp, error_done := nofun, info_zero := nofun }

/-- Acceptance of any word keeps the invariant: the completed state meets it, or the pending result, or fault, does. -/
theorem acceptCommand_keeps_sound {k : Nat} {w : Word} {s t : State} (h : BlockSound s.caps s.toBlock)
    (ht : acceptCommand k w s = .next t) : Sound t := by
  have ha : BlockSound (accept w s).caps (accept w s).toBlock := accept_blockSound h
  rcases publish_next ht with ⟨-, hrun⟩ | ⟨n, -, ⟨r, hrun, rfl⟩ | ⟨f, hrun, rfl⟩⟩
  · obtain ⟨i, u, hu, hut⟩ := runWord_effect hrun
    have hb := hut.blockSound (hu.blockSound ha)
    obtain ⟨-, -, -, -, hcaps, -⟩ := hu.kept
    obtain ⟨_, _, _, rfl⟩ := hut.eq_update
    rw [← hcaps] at hb
    exact sound_of_idle rfl hb fun _ => rfl
  · obtain ⟨i, u, hu, hut⟩ := runWord_effect hrun
    have hb := hut.blockSound (hu.blockSound ha)
    obtain ⟨hbounded, hinBuf, -⟩ := hu.kept
    obtain ⟨_, _, _, rfl⟩ := hut.eq_update
    exact sound_of_busy rfl ha rfl ⟨rfl, hinBuf, hbounded, hb⟩
  · refine sound_of_busy rfl ha rfl ?_
    rcases runWord_nextOrUninitRead w ha.code_prefix with ⟨t, hnext⟩ | ⟨b, i, hfault⟩
    · cases hrun.symm.trans hnext
    · cases hrun.symm.trans hfault
      exact ⟨b, i, rfl⟩

/-- A host access that is served keeps the invariant: nothing visible changes, or the pending block becomes visible. -/
theorem countDown_keeps_sound {s t : State} (h : Sound s) (ht : countDown s = .next t) : Sound t := by
  rcases hs : s.seq with _ | ⟨n, p⟩
  · cases (countDown_of_idle hs).symm.trans ht
    exact sound_of_idle hs h.1 (h.viol_done hs)
  obtain ⟨hdone, hp⟩ := h.busy hs
  rw [countDown_of_busy hs] at ht
  cases n with
  | succ m =>
    cases ht
    exact sound_of_busy rfl h.1 hdone hp
  | zero =>
    cases p with
    | fault f => cases ht
    | block r =>
      cases ht
      obtain ⟨hrdone, -, -, hr⟩ := hp
      exact sound_of_idle rfl hr fun _ => hrdone

/-! ### The host's writes -/

/-- An idle write to any place but CMD keeps the block's invariant: what it can write is CTRL, a length, or bytes of
IN_BUF or TXT_BUF below the capacity. -/
theorem writeIdle_blockSound {s : State} (h : BlockSound s.caps s.toBlock) (p : Place) (v : Word) :
    BlockSound s.caps (writeIdle s p v).toBlock := by
  cases p with
  | reg r => cases r <;> exact { h with }
  | buf b i =>
    cases b with
    | inBuf => exact { h with inBuf_wf := wf_writeLanes _ _ i v h.inBuf_wf }
    | txtBuf => exact { h with txtBuf_wf := wf_writeLanes _ _ i v h.txtBuf_wf }
    | outBuf => exact h
  | freq _ => exact h
  | code _ _ => exact h
  | reserved => exact h

theorem writeIdle_kept (s : State) (p : Place) (v : Word) : (writeIdle s p v).caps = s.caps ∧
    (writeIdle s p v).seq = s.seq ∧ (writeIdle s p v).viol = s.viol ∧ (writeIdle s p v).done = s.done := by
  unfold writeIdle
  split <;> exact ⟨rfl, rfl, rfl, rfl⟩

theorem writeIdle_keeps_sound {s : State} (h : Sound s) (hs : s.seq = .idle) (p : Place) (v : Word) :
    Sound (writeIdle s p v) := by
  obtain ⟨hcaps, hseq, hviol, hdone⟩ := writeIdle_kept s p v
  refine sound_of_idle (hseq.trans hs) ?_ ?_
  · rw [hcaps]
    exact writeIdle_blockSound h.1 p v
  · rw [hviol, hdone]
    exact h.viol_done hs

/-- A dropped write can set VIOL, of which the invariant says nothing while busy. -/
theorem writeBusy_keeps_sound {s : State} (h : Sound s) {n : Nat} {p : Pending} (hs : s.seq = .busy n p)
    (pl : Place) : Sound (writeBusy s pl) := by
  obtain ⟨hdone, hp⟩ := h.busy hs
  rw [writeBusy_eq]
  exact sound_of_busy hs h.1 hdone hp

theorem write_keeps_sound {s t : State} {a v : Word} {rest : List HostOp} (h : Sound s)
    (hh : s.host = .write a v :: rest) (ht : step s = .next t) : Sound t := by
  have h' : Sound { s with host := rest } := h
  rcases hs : s.seq with _ | ⟨n, p⟩
  · by_cases hp : placeOf s.caps a = .reg .cmd
    · exact acceptCommand_keeps_sound (s := { s with host := rest, draws := s.draws + 1, resetLast := false }) h.1
        ((step_of_write_cmd hh hs hp).symm.trans ht)
    · cases (step_of_write_idle hh hs hp).symm.trans ht
      exact writeIdle_keeps_sound h' hs _ v
  · exact countDown_keeps_sound (writeBusy_keeps_sound h' hs _)
      ((step_of_write_busy hh (isBusy_of_busy hs)).symm.trans ht)

theorem wait_keeps_sound {s t : State} {rest : List HostOp} (h : Sound s) (hh : s.host = .wait :: rest)
    (ht : step s = .next t) : Sound t := by
  rcases hs : s.seq with _ | ⟨n, p⟩
  · cases (step_of_wait_idle hh hs).symm.trans ht
    exact h
  · have h' : Sound { s with reads := s.reads ++ [statusWord s] } := h
    exact countDown_keeps_sound h' ((step_of_wait_busy hh (isBusy_of_busy hs)).symm.trans ht)

/-- Settles O56, by the host's next operation. Fields of the host alone do not occur in the invariant. -/
theorem stepKeepsSound : Obligations.StepKeepsSound := by
  intro s t h ht
  rcases hh : s.host with _ | ⟨op, rest⟩
  · cases (step_of_nil hh).symm.trans ht
    exact h
  cases op with
  | read a =>
    have h' : Sound { s with host := rest, reads := s.reads ++ [readValue s a] } := h
    exact countDown_keeps_sound h' ((step_of_read hh).symm.trans ht)
  | write a v => exact write_keeps_sound h hh ht
  | wait => exact wait_keeps_sound h hh ht
  | reset =>
    cases (step_of_reset hh).symm.trans ht
    exact sound_of_idle rfl (blockSound_reset s.caps) nofun

end Sys2Proof.Machine
end

section
/-! Which unspecified byte a command faults on (O60, and what follows of it for O54). For each of the four commands that
read a buffer one predicate says that byte `k` is the one, and one lemma that the command faults exactly there. -/

namespace Sys2Proof.Machine

/-- The outcome `o` is a fault exactly when `P k` holds of some byte `k` of `b`, and then it is the fault of that byte. -/
def FaultsExactlyAt (o : Host.Outcome State Fault Refusal) (b : Buffer) (P : Nat → Prop) : Prop :=
  ∀ f, o = .fault f ↔ ∃ k, f = .uninitRead b k ∧ P k

theorem FaultsExactlyAt.uninitRead_iff {o : Host.Outcome State Fault Refusal} {b : Buffer} {P : Nat → Prop}
    (h : FaultsExactlyAt o b P) (k : Nat) : o = .fault (.uninitRead b k) ↔ P k := by
  simp [h (.uninitRead b k)]

theorem FaultsExactlyAt.of_uninitRead {o : Host.Outcome State Fault Refusal} {b b' : Buffer} {P : Nat → Prop} {k : Nat}
    (h : FaultsExactlyAt o b P) (ho : o = .fault (.uninitRead b' k)) : b' = b ∧ P k := by
  obtain ⟨k, ⟨⟩, hk⟩ := (h _).1 ho
  exact ⟨rfl, hk⟩

/-- A run of bytes that stands in a buffer ends before any unspecified byte. -/
theorem BytesAt.length_le {m : Memory} {bs : List Byte} {k : Nat} (h : BytesAt m bs) (hk : Memory.read m k = none) :
    bs.length ≤ k := by
  by_contra hlt
  have hread := h k (by omega)
  rw [hk, List.getElem?_eq_getElem (by omega)] at hread
  cases hread

/-- The bytes of a run that stands in a buffer are specified. -/
theorem BytesAt.exists_mem {m : Memory} {bs : List Byte} {j : Nat} (h : BytesAt m bs) (hj : j < bs.length) :
    ∃ b ∈ bs, Memory.read m j = some b :=
  ⟨bs[j], List.getElem_mem hj, (h j hj).trans (List.getElem?_eq_getElem hj)⟩

/-! ### COUNT -/

/-- COUNT consumes the bytes in order, and byte `k` is the first unspecified one (R66). -/
def CountStopsAt (s : State) (k : Nat) : Prop :=
  s.inLen.toNat ≤ s.caps.inCap ∧ k < s.inLen.toNat ∧ Memory.read s.inBuf k = none ∧
    ∀ j, j < k → (Memory.read s.inBuf j).isSome = true

theorem execCount_of_stopsAt {s : State} {k : Nat} (h : CountStopsAt s k) :
    execCount s = .fault (.uninitRead .inBuf k) := by
  obtain ⟨hcap, hk, hnone, hbefore⟩ := h
  rcases execCount_cases s with ⟨hlong, -⟩ | ⟨hzero, -⟩ | ⟨-, -, ⟨bs, hlen, hbs, -⟩ | ⟨i, -, hi, hibefore, hfault⟩⟩
  · omega
  · omega
  · have := hbs.length_le hnone
    omega
  · obtain rfl : i = k := by
      by_contra hne
      rcases Nat.lt_or_gt_of_ne hne with hlt | hlt
      · simpa [hi] using hbefore i hlt
      · simpa [hnone] using hibefore k hlt
    exact hfault

theorem execCount_faultsExactlyAt (s : State) : FaultsExactlyAt (execCount s) .inBuf (CountStopsAt s) := by
  refine fun f => ⟨fun hf => ?_, by rintro ⟨k, rfl, hk⟩; exact execCount_of_stopsAt hk⟩
  rcases execCount_cases s with ⟨-, h⟩ | ⟨-, h⟩ | ⟨-, hcap, ⟨_, -, -, h⟩ | ⟨k, hk, hnone, hbefore, h⟩⟩ <;>
    cases h.symm.trans hf
  exact ⟨k, rfl, hcap, hk, hnone, hbefore⟩

/-! ### PACK -/

/-- PACK consumes the bytes up to the first without a code, and byte `k` is the first unspecified one (R75). -/
def PackStopsAt (s : State) (k : Nat) : Prop :=
  s.inLen.toNat ≤ s.caps.inCap ∧ k < s.inLen.toNat ∧ Memory.read s.inBuf k = none ∧
    ∀ j, j < k → ∃ b, Memory.read s.inBuf j = some b ∧ entry s.code b ≠ []

theorem execPack_of_stopsAt {s : State} {k : Nat} (h : PackStopsAt s k) :
    execPack s = .fault (.uninitRead .inBuf k) := by
  obtain ⟨hcap, hk, hnone, hbefore⟩ := h
  rcases execPack_cases s with ⟨hlong, -⟩ | ⟨hzero, -⟩ |
    ⟨-, -, ⟨bs, b, -, hbs, -, hb, -⟩ | ⟨bs, -, hbs, -, hend, hfault⟩ | ⟨bs, hlen, hbs, -, -⟩⟩
  · omega
  · omega
  · have hle := hbs.length_le hnone
    simp only [List.length_append, List.length_singleton] at hle
    have hread : Memory.read s.inBuf bs.length = some b := by simpa using hbs bs.length (by simp)
    obtain ⟨b', hread', hcode⟩ := hbefore bs.length (by omega)
    cases hread.symm.trans hread'
    exact absurd hb hcode
  · obtain rfl : bs.length = k := by
      by_contra hne
      have hle := hbs.length_le hnone
      obtain ⟨b, hread, -⟩ := hbefore bs.length (by omega)
      cases hread.symm.trans hend
    exact hfault
  · have := hbs.length_le hnone
    omega

theorem execPack_faultsExactlyAt (s : State) : FaultsExactlyAt (execPack s) .inBuf (PackStopsAt s) := by
  refine fun f => ⟨fun hf => ?_, by rintro ⟨k, rfl, hk⟩; exact execPack_of_stopsAt hk⟩
  rcases execPack_cases s with ⟨-, h⟩ | ⟨-, h⟩ |
    ⟨-, hcap, ⟨_, _, -, -, -, -, h⟩ | ⟨bs, hk, hbs, hcode, hnone, h⟩ | ⟨_, -, -, -, h⟩⟩ <;> cases h.symm.trans hf
  refine ⟨bs.length, rfl, hcap, hk, hnone, fun j hj => ?_⟩
  obtain ⟨b, hmem, hread⟩ := hbs.exists_mem hj
  exact ⟨b, hread, hcode b hmem⟩

/-! ### DESERIALIZE -/

/-- DESERIALIZE consumes the bytes of whole lines and then of an unfinished one, and byte `k`, the next, is unspecified
(R82). -/
def DeserializeStopsAt (s : State) (k : Nat) : Prop :=
  s.txtLen.toNat ≤ s.caps.txtCap ∧ k < s.txtLen.toNat ∧ Memory.read s.txtBuf k = none ∧
    ∃ (lines : List (Sym × Bits)) (seen : List Byte), (lines.map (·.1)).Nodup ∧
      (∀ l ∈ lines, 1 ≤ l.2.length ∧ l.2.length ≤ 255) ∧ BytesAt s.txtBuf (linesText lines ++ seen) ∧
      (linesText lines).length + seen.length = k ∧ Unfinished (s.txtLen.toNat - (linesText lines).length) seen

theorem parseLines_of_fault {fuel line : Nat} {c : Table Bits} {text : List Operand} {f : Fault}
    (h : parseLine text = .fault f) (hf : text.length ≤ fuel) : parseLines fuel line c text = .error (.fault f) := by
  cases text with
  | nil => cases h
  | cons o text =>
    cases fuel with
    | zero => cases hf
    | succ fuel => simp only [parseLines, h]

/-- The loop of R82 enters the whole lines and faults in the unfinished one. -/
theorem parseLines_unfinished {lines : List (Sym × Bits)} {seen : List Byte} {f : Fault} {r : List Operand} {fuel : Nat}
    (hn : (lines.map (·.1)).Nodup) (hl : ∀ l ∈ lines, 1 ≤ l.2.length ∧ l.2.length ≤ 255)
    (hu : Unfinished (seen.map Except.ok ++ Except.error f :: r : List Operand).length seen)
    (hf : (linesText lines).length + (seen.map Except.ok ++ Except.error f :: r : List Operand).length ≤ fuel) :
    parseLines fuel 0 (filled []) ((linesText lines ++ seen).map Except.ok ++ .error f :: r) = .error (.fault f) := by
  obtain ⟨fuel', hfuel', hparse⟩ :=
    parseLines_linesText lines fuel 0 (filled []) _ hn hl (fun l _ => entry_filled [] l.1) hf
  rw [List.map_append, List.append_assoc, hparse]
  exact parseLines_of_fault (parseLine_unfinished hu) hfuel'

theorem execDeserialize_of_stopsAt {s : State} {k : Nat} (h : DeserializeStopsAt s k) :
    execDeserialize s = .fault (.uninitRead .txtBuf k) := by
  obtain ⟨hcap, hk, hnone, lines, seen, hn, hl, hbytes, rfl, hu⟩ := h
  rw [← List.length_append] at hk hnone ⊢
  obtain ⟨r, hr⟩ := operands_of_unspecified (b := .txtBuf) hbytes hk hnone
  have hlen := congrArg List.length hr
  simp only [List.length_append, List.length_map, List.length_range, List.length_cons] at hlen
  have hroom : (seen.map Except.ok ++ Except.error (.uninitRead .txtBuf (linesText lines ++ seen).length) :: r :
      List Operand).length = s.txtLen.toNat - (linesText lines).length := by
    simp only [List.length_append, List.length_map, List.length_cons]
    omega
  have hparse := parseLines_unfinished (fuel := s.txtLen.toNat) hn hl (hroom ▸ hu) (by omega)
  unfold execDeserialize
  rw [if_neg (by omega), txtOperands, hr, hparse]

theorem execDeserialize_faultsExactlyAt (s : State) :
    FaultsExactlyAt (execDeserialize s) .txtBuf (DeserializeStopsAt s) := by
  refine fun f => ⟨fun hf => ?_, by rintro ⟨k, rfl, hk⟩; exact execDeserialize_of_stopsAt hk⟩
  rcases execDeserialize_cases s with ⟨-, h⟩ |
    ⟨hcap, ⟨_, h⟩ | ⟨lines, seen, hn, hl, hk, hbytes, hu, hnone, h⟩ | ⟨_, -, -, -, -, ⟨_, -, h⟩ | ⟨-, h⟩⟩⟩ <;>
    cases h.symm.trans hf
  exact ⟨_, rfl, hcap, hk, hnone, lines, seen, hn, hl, hbytes, List.length_append.symm, hu⟩

/-! ### UNPACK -/

/-- UNPACK reads the paths of some symbols and then a path to a Node, which are the bits before byte `k`, so it goes on to
read byte `k`, which is unspecified (R88). -/
def UnpackStopsAt (s : State) (k : Nat) : Prop :=
  s.inLen.toNat ≤ s.caps.inCap ∧ k < s.inLen.toNat ∧ Memory.read s.inBuf k = none ∧
    (s.bounded = true → s.symCount.toNat ≤ s.caps.outCap) ∧
    ∃ (paths : List Bits) (tail : Bits), BitsAt s.inBuf (paths.flatten ++ tail) ∧
      (paths.flatten ++ tail).length = 8 * k ∧ (∀ p ∈ paths, ∃ v, subtreeAt (walkRoot s.tree) p = .leaf v) ∧
      (∃ l r, subtreeAt (walkRoot s.tree) tail = .node l r) ∧ paths.length ≤ s.caps.outCap ∧
      (s.bounded = true → paths.length < s.symCount.toNat)

/-- The walk along paths of symbols and then to a Node faults at the unspecified bit it reads next. -/
theorem walkBits_unspecified {limit : Option Nat} {cap : Nat} {root : PTree} {paths : List Bits} {tail : Bits}
    {f : Fault} {r : List (Except Fault Bool)} (hroot : ∃ l r, root = .node l r)
    (hpaths : ∀ p ∈ paths, ∃ v, subtreeAt root p = .leaf v) (htail : ∃ l r, subtreeAt root tail = .node l r)
    (hcap : paths.length ≤ cap) (hlim : ∀ n, limit = some n → paths.length < n) :
    walkBits limit cap root root 0 0 0 ((paths.flatten ++ tail).map Except.ok ++ .error f :: r) =
      .error (.fault f) := by
  choose! sym hsym using hpaths
  have hgo : limit ≠ some (0 + paths.length) := fun h => absurd (hlim _ h) (by omega)
  have hwalked := walkBits_walked limit cap root (paths.map fun p => (sym p, p)) 0 0 0
    (tail.map Except.ok ++ .error f :: r) hroot (fun n hn => by have := hlim n hn; simp; omega) (by simpa using hcap)
    (by simpa using hsym)
  have hflat : (paths.map fun p => (sym p, p)).flatMap (·.2) = paths.flatten := by simp [List.flatMap_map]
  rw [hflat, List.length_map] at hwalked
  have hpartial := fun j last => walkBits_partial limit cap root [] tail j (0 + paths.length) last (.error f :: r) hgo
    (by simpa using htail)
  simp only [subtreeAt_nil, walkBits, if_neg hgo] at hpartial
  rw [List.map_append, List.append_assoc, hwalked, hpartial]

theorem execUnpack_of_stopsAt {s : State} {k : Nat} (h : UnpackStopsAt s k) :
    execUnpack s = .fault (.uninitRead .inBuf k) := by
  obtain ⟨hcap, hk, hnone, hsymCount, paths, tail, hbits, hlen, hpaths, htail, houtCap, hlim⟩ := h
  obtain ⟨r, hr⟩ := inBits_of_unspecified hbits hlen hk hnone
  have hwalk := walkBits_unspecified (limit := if s.bounded then some s.symCount.toNat else none)
    (f := .uninitRead .inBuf k) (r := r) (walkRoot_isNode s.tree) hpaths htail houtCap
    (fun n hn => by
      split at hn
      · cases hn; exact hlim ‹_›
      · cases hn)
  unfold execUnpack
  rw [if_neg (by omega), if_neg (fun hlt => absurd (hsymCount hlt.1) (by omega))]
  simp only [hr, hwalk]

theorem execUnpack_faultsExactlyAt (s : State) : FaultsExactlyAt (execUnpack s) .inBuf (UnpackStopsAt s) := by
  refine fun f => ⟨fun hf => ?_, by rintro ⟨k, rfl, hk⟩; exact execUnpack_of_stopsAt hk⟩
  rcases execUnpack_cases s with ⟨_, _, -, h⟩ |
    ⟨hcap, hsymCount, k, paths, tail, hk, hnone, hbits, hlen, hpaths, htail, houtCap, hlim, h⟩ | ⟨_, _, -, h⟩ <;>
    cases h.symm.trans hf
  exact ⟨k, rfl, hcap, hk, hnone, hsymCount, paths, tail, hbits, hlen, hpaths, htail, houtCap, hlim⟩

/-! ### The statements -/

/-- Settles O60: the four exact conditions side by side. -/
theorem uninitReadAtFirstConsumedByte : Obligations.UninitReadAtFirstConsumedByte := by
  intro s k
  exact ⟨(execCount_faultsExactlyAt s).uninitRead_iff k, (execPack_faultsExactlyAt s).uninitRead_iff k,
    (execDeserialize_faultsExactlyAt s).uninitRead_iff k, (execUnpack_faultsExactlyAt s).uninitRead_iff k⟩

/-- RECONSTRUCT reads no buffer. -/
theorem execReconstruct_ne_uninitRead (s : State) (b : Buffer) (k : Nat) :
    execReconstruct s ≠ .fault (.uninitRead b k) := by
  intro hf
  rcases execReconstruct_cases s with ⟨_, h⟩ | ⟨_, h⟩ <;> cases h.symm.trans hf

/-- Settles O54: the exact conditions of the four reading commands, and that the other commands read no buffer. -/
theorem uninitReadOnlyOfOperands : Obligations.UninitReadOnlyOfOperands := by
  refine ⟨fun i s b k hf => ?_, fun s k hcap hk hbefore hnone => execCount_of_stopsAt ⟨hcap, hk, hnone, hbefore⟩⟩
  cases i with
  | count =>
    obtain ⟨rfl, -, hk, hnone, -⟩ := (execCount_faultsExactlyAt s).of_uninitRead hf
    exact .inl ⟨rfl, by decide, hk, hnone⟩
  | pack =>
    obtain ⟨rfl, -, hk, hnone, -⟩ := (execPack_faultsExactlyAt s).of_uninitRead hf
    exact .inl ⟨rfl, by decide, hk, hnone⟩
  | unpack =>
    obtain ⟨rfl, -, hk, hnone, -⟩ := (execUnpack_faultsExactlyAt s).of_uninitRead hf
    exact .inl ⟨rfl, by decide, hk, hnone⟩
  | deserialize =>
    obtain ⟨rfl, -, hk, hnone, -⟩ := (execDeserialize_faultsExactlyAt s).of_uninitRead hf
    exact .inr ⟨rfl, rfl, hk, hnone⟩
  | reconstruct => exact absurd hf (execReconstruct_ne_uninitRead s b k)
  | build => rcases execBuild_cases s with ⟨-, h⟩ | ⟨_, -, -, -, h⟩ <;> cases h.symm.trans hf
  | nop => cases hf
  | gen => cases hf
  | serialize => cases hf
  | clear => cases hf

end Sys2Proof.Machine
end

section
/-! What the host reads and writes of the registers: the fields of STATUS (O7), reset's values (O13), the idle register
accesses (O14, O15) and a read while busy (O8). -/

namespace Sys2Proof.Machine

/-! ### STATUS and CTRL -/

theorem statusWord_busy_iff (s : State) : (statusWord s).getLsbD 0 = true ↔ s.seq ≠ .idle := by
  rw [statusWord_busy]
  unfold isBusy
  cases s.seq <;> simp

/-- Settles O7: STATUS is its fields side by side, so a field is reached by passing over the fields below it and cut off
from those above it. -/
theorem statusFields : Obligations.StatusFields := by
  intro s
  refine ⟨statusWord_busy_iff s, ?done, ?error, ?viol, ?zeros, ?lastCmd, ?top, ?errCode⟩
  all_goals unfold statusWord
  case done =>
    iterate 2 rw [BitVec.getLsbD_append]
    simp
  case error =>
    iterate 3 rw [BitVec.getLsbD_append]
    simp
  case viol =>
    iterate 4 rw [BitVec.getLsbD_append]
    simp
  case zeros =>
    iterate 4 rw [BitVec.extractLsb'_append_eq_of_le (by decide)]
    rw [BitVec.extractLsb'_append_eq_of_add_le (by decide), BitVec.extractLsb'_eq_self]
    rfl
  case lastCmd =>
    iterate 5 rw [BitVec.extractLsb'_append_eq_of_le (by decide)]
    rw [BitVec.extractLsb'_append_eq_of_add_le (by decide), BitVec.extractLsb'_eq_self]
  case top =>
    iterate 7 rw [BitVec.extractLsb'_append_eq_of_le (by decide)]
    rw [BitVec.extractLsb'_eq_self]
    rfl
  case errCode =>
    iterate 6 rw [BitVec.extractLsb'_append_eq_of_le (by decide)]
    rw [BitVec.extractLsb'_append_eq_of_add_le (by decide), BitVec.extractLsb'_eq_self]
    cases s.errCode <;> rfl

theorem ctrlWord_eq (s : State) : ctrlWord s = if s.bounded then 1 else 0 := by
  unfold ctrlWord
  cases s.bounded <;> rfl

/-! ### Reset -/

theorem statusWord_reset : statusWord State.reset = 0 := by decide

/-- Settles O13, field by field; the tables' entries are those of a filled table. -/
theorem resetValues : Obligations.ResetValues := by
  refine ⟨rfl, rfl, ctrlWord_eq _, rfl, statusWord_reset, rfl, rfl, rfl, rfl, rfl, rfl, rfl, rfl, entry_filled 0,
    entry_filled [], rfl, rfl, fun b i => ?_⟩
  cases b <;> rfl

/-! ### Idle -/

/-- An idle read at the offset of register `r` answers what `readReg` says of `r`. -/
theorem idleReads_reg (s : State) {a v : Word} {r : Reg} (hr : regAt (a.toNat / 4) = some r)
    (hv : readReg { s with seq := .idle } r = v) : IdleReads s a v := by
  have h := idleReads_of_place s a
  rwa [placeOf_reg s.caps rfl hr, show readIdle _ (.reg r) = v from hv] at h

/-- Settles O14, register by register. -/
theorem registerReads : Obligations.RegisterReads := fun s =>
  ⟨idleReads_reg s (r := .id) rfl rfl, idleReads_reg s (r := .version) rfl rfl,
    idleReads_reg s (r := .ctrl) rfl (ctrlWord_eq _), idleReads_reg s (r := .cmd) rfl rfl,
    idleReads_reg s (r := .status) rfl rfl, idleReads_reg s (r := .errInfo) rfl rfl,
    idleReads_reg s (r := .inLen) rfl rfl, idleReads_reg s (r := .outLen) rfl rfl,
    idleReads_reg s (r := .symCount) rfl rfl, idleReads_reg s (r := .bitCount) rfl rfl,
    idleReads_reg s (r := .txtLen) rfl rfl, idleReads_reg s (r := .distinct) rfl rfl,
    idleReads_reg s (r := .codeNsym) rfl rfl⟩

/-- An idle write at the offset of a register other than CMD does what `writeIdle` does to that register. -/
theorem idleWrites_reg {s t : State} {a v : Word} {r : Reg} (hr : regAt (a.toNat / 4) = some r) (hcmd : r ≠ .cmd)
    (h : ∀ rest, writeIdle { s with seq := .idle, host := rest } (.reg r) v = { t with seq := .idle, host := rest })
    (hd : t.draws = s.draws) : IdleWrites s a v t := by
  have hp : placeOf s.caps a = .reg r := placeOf_reg s.caps rfl hr
  refine idleWrites_of_place ?_ ?_ hd
  · rw [hp]
    exact fun he => hcmd (Place.reg.inj he)
  · rw [hp]
    exact h

/-- Settles O15: each of the four registers has its own case of `writeIdle`. -/
theorem registerWrites : Obligations.RegisterWrites := fun _ _ =>
  ⟨idleWrites_reg (r := .ctrl) rfl nofun (fun _ => rfl) rfl, idleWrites_reg (r := .inLen) rfl nofun (fun _ => rfl) rfl,
    idleWrites_reg (r := .symCount) rfl nofun (fun _ => rfl) rfl,
    idleWrites_reg (r := .txtLen) rfl nofun (fun _ => rfl) rfl⟩

/-! ### Busy -/

/-- A read while busy at word offset `k` answers what `readBusy` says of the register there. -/
theorem readValue_busy_reg {s : State} (hs : isBusy s = true) {a : Word} {k : Nat} {r : Reg} (ha : wordOffset a = 4 * k)
    (hr : regAt k = some r) : readValue s a = readBusy s (.reg r) := by
  have hk : a.toNat / 4 = k := by
    unfold wordOffset at ha
    omega
  rw [readValue, hs, if_pos rfl, placeOf_reg s.caps hk hr]

/-- Settles O8: the read is one access of the busy window, and its value is that of the register at the address. -/
theorem busyReadCountsDown : Obligations.BusyReadCountsDown := by
  intro s n p a rest hs hh
  have hb : isBusy s = true := isBusy_of_busy hs
  refine ⟨readValue s a, (step_of_read hh).trans (countDown_of_busy hs), fun ha => ?_, fun ha => ?_, fun ha => ?_,
    fun ha => ?_⟩
  · exact readValue_busy_reg hb (k := 0) ha rfl
  · exact readValue_busy_reg hb (k := 1) ha rfl
  · exact (readValue_busy_reg hb (k := 2) ha rfl).trans (ctrlWord_eq s)
  · rw [show readValue s a = statusWord s from readValue_busy_reg hb (k := 4) ha rfl]
    exact ⟨rfl, (statusWord_busy s).trans hb⟩

end Sys2Proof.Machine
end

section
/-! The memory map: which addresses are one access (O16), writes while busy (O9), the places that ignore a write (O17, O18),
the FREQ and CODE windows (O19, O20) and the buffer windows (O21, O22). -/

namespace Sys2Proof.Machine

/-! ### Addresses and the words they name -/

/-- R42: clearing bits [1:0] of an address keeps its word. -/
theorem toNat_and_mask_div (a : Word) : (a &&& 0xFFFFFFFC).toNat / 4 = a.toNat / 4 := by
  have hlt : a.toNat / 2 ^ 2 < 2 ^ 30 := by omega
  change (a.toNat &&& 0xFFFFFFFC) / 2 ^ 2 = a.toNat / 2 ^ 2
  rw [Nat.and_div_two_pow]
  exact (Nat.and_two_pow_sub_one_eq_mod _ 30).trans (Nat.mod_eq_of_lt hlt)

theorem wordOffset_ofNat {n : Nat} (h : n < 2 ^ 32) (h4 : n % 4 = 0) : wordOffset (BitVec.ofNat 32 n) = n := by
  rw [wordOffset, BitVec.toNat_ofNat, Nat.mod_eq_of_lt h]
  omega

theorem regAt_of_wordOffset {a : Word} {k : Nat} {r : Reg} (ha : wordOffset a = 4 * k) (hr : regAt k = some r) :
    regAt (a.toNat / 4) = some r := by
  rwa [show a.toNat / 4 = k from Nat.eq_of_mul_eq_mul_left (by decide) ha]

theorem step_of_cons (s : State) (op : HostOp) (rest : List HostOp) :
    step { s with host := op :: rest } = serve op { s with host := rest } := rfl

/-- Settles O16: an access goes through the place its address names, and the place does not depend on bits [1:0]. -/
theorem lowAddressBitsIgnored : Obligations.LowAddressBitsIgnored := by
  intro s a v rest
  have hp : placeOf s.caps (a &&& 0xFFFFFFFC) = placeOf s.caps a := placeOf_congr _ (toNat_and_mask_div a)
  refine ⟨?read, ?write⟩ <;> rw [step_of_cons, step_of_cons]
  case read => simp only [serve, hostRead, readValue, hp]
  case write => simp only [serve, hostWrite, hp]

/-- An idle read of an address that names the place `p` answers what `readIdle` says of `p`. -/
theorem idleReads_of_placeOf_eq {s : State} {a x : Word} {p : Place} (hp : placeOf s.caps a = p)
    (hx : readIdle { s with seq := .idle } p = x) : IdleReads s a x :=
  hx ▸ hp ▸ idleReads_of_place s a

/-! ### A write while busy -/

theorem writeBusy_viol_of_reserved {s : State} {a : Word} (h : IsReserved s.caps a) :
    (writeBusy s (placeOf s.caps a)).viol = s.viol := by
  rw [(placeOf_reserved_iff _ a).2 h]
  rfl

theorem writeBusy_viol_of_not_reserved {s : State} {a : Word} (h : ¬ IsReserved s.caps a) :
    (writeBusy s (placeOf s.caps a)).viol = true := by
  unfold writeBusy
  split
  next hp => exact absurd ((placeOf_reserved_iff _ a).1 hp) h
  next => rfl

/-- A write while busy is one access of the window, and VIOL is all it can change. -/
theorem step_of_write_busyNext {s : State} {n : Nat} {p : Pending} {a v : Word} {rest : List HostOp}
    (hs : s.seq = .busy n p) (hh : s.host = .write a v :: rest) :
    step s = busyNext n p { s with viol := (writeBusy s (placeOf s.caps a)).viol, host := rest } := by
  have hviol : (writeBusy { s with host := rest } (placeOf s.caps a)).viol = (writeBusy s (placeOf s.caps a)).viol := by
    cases placeOf s.caps a <;> rfl
  have hseq : (writeBusy { s with host := rest } (placeOf s.caps a)).seq = .busy n p := (writeBusy_seq _ _).trans hs
  rw [step_of_write_busy hh (isBusy_of_busy hs), countDown_of_busy hseq, writeBusy_eq, hviol]

/-- Settles O9: VIOL is what `writeBusy` makes of it at the place of the address. -/
theorem busyWriteIsDropped : Obligations.BusyWriteIsDropped := fun _ _ _ _ _ _ hs hh =>
  ⟨_, step_of_write_busyNext hs hh, writeBusy_viol_of_reserved, writeBusy_viol_of_not_reserved⟩

/-! ### Places that ignore a write while idle -/

/-- A place other than CMD that stores nothing of an idle write. -/
def IgnoresWrites (p : Place) : Prop := p ≠ .reg .cmd ∧ ∀ (s : State) (v : Word), writeIdle s p v = s

theorem idleWrites_of_ignoresWrites {s : State} {a : Word} (h : IgnoresWrites (placeOf s.caps a)) (v : Word) :
    IdleWrites s a v s :=
  idleWrites_of_place h.1 (fun _ => h.2 _ v) rfl

theorem ignoresWrites_reserved : IgnoresWrites .reserved := ⟨nofun, fun _ _ => rfl⟩

/-- Settles O17: the address map answers `reserved`, which reads 0 and ignores writes, and leaves VIOL alone. -/
theorem reservedWords : Obligations.ReservedWords := by
  intro s a v h
  have hp : placeOf s.caps a = .reserved := (placeOf_reserved_iff _ a).2 h
  refine ⟨?read, ?write, fun n p rest => ?busy⟩
  case read => exact idleReads_of_placeOf_eq hp rfl
  case write => exact idleWrites_of_ignoresWrites (hp ▸ ignoresWrites_reserved) v
  case busy =>
    obtain ⟨viol, hstep, hkept, -⟩ :=
      busyWriteIsDropped { s with seq := .busy n p, host := .write a v :: rest } n p a v rest rfl rfl
    rw [hstep, hkept h]

theorem placeOf_freq_range (c : Caps) {a : Word} (h : 0x400 ≤ wordOffset a ∧ wordOffset a < 0x800) :
    ∃ v, placeOf c a = .freq v := by
  refine ⟨_, placeOf_freq c (BitVec.ofNat 8 ((wordOffset a - 0x400) / 4)) ?_⟩
  rw [BitVec.toNat_ofNat]
  unfold wordOffset at *
  omega

theorem placeOf_code_range (c : Caps) {a : Word} (h : 0x4000 ≤ wordOffset a ∧ wordOffset a < 0x8000)
    (hw : (wordOffset a - 0x4000) / 4 % 16 ≤ 8) : ∃ v w, placeOf c a = .code v w := by
  refine ⟨BitVec.ofNat 8 ((wordOffset a - 0x4000) / 4 / 16), (wordOffset a - 0x4000) / 4 % 16, ?_⟩
  rw [placeOf_code c _ _ (Nat.mod_lt _ (by decide)) ?_, if_pos hw]
  rw [BitVec.toNat_ofNat]
  unfold wordOffset at *
  omega

theorem placeOf_out_range (c : Caps) {a : Word} (h : 0x80000000 ≤ wordOffset a ∧ wordOffset a < 0xA0000000)
    (hcap : wordOffset a - 0x80000000 < c.outCap) : ∃ i, placeOf c a = .buf .outBuf i := by
  refine ⟨wordOffset a - 0x80000000, ?_⟩
  rw [placeOf_out c (wordOffset a - 0x80000000) (by omega) (by omega)]
  exact if_pos hcap

/-- An address ignores writes when the register at its word does. -/
theorem ignoresWrites_placeOf_reg (c : Caps) {a : Word} {k : Nat} {r : Reg} (ha : wordOffset a = 4 * k)
    (hr : regAt k = some r) (h : IgnoresWrites (.reg r)) : IgnoresWrites (placeOf c a) := by
  rwa [placeOf_reg c rfl (regAt_of_wordOffset ha hr)]

theorem ignoresWrites_of_isReadOnly {c : Caps} {a : Word} (h : IsReadOnly c a) : IgnoresWrites (placeOf c a) := by
  rcases h with ha | ha | ha | ha | ha | ha | ha | ha | ⟨hlo, hhi⟩ | ⟨hlo, hhi, hw⟩ | ⟨hlo, hhi, hcap⟩
  · exact ignoresWrites_placeOf_reg c (k := 0) ha rfl ⟨nofun, fun _ _ => rfl⟩
  · exact ignoresWrites_placeOf_reg c (k := 1) ha rfl ⟨nofun, fun _ _ => rfl⟩
  · exact ignoresWrites_placeOf_reg c (k := 4) ha rfl ⟨nofun, fun _ _ => rfl⟩
  · exact ignoresWrites_placeOf_reg c (k := 5) ha rfl ⟨nofun, fun _ _ => rfl⟩
  · exact ignoresWrites_placeOf_reg c (k := 7) ha rfl ⟨nofun, fun _ _ => rfl⟩
  · exact ignoresWrites_placeOf_reg c (k := 9) ha rfl ⟨nofun, fun _ _ => rfl⟩
  · exact ignoresWrites_placeOf_reg c (k := 11) ha rfl ⟨nofun, fun _ _ => rfl⟩
  · exact ignoresWrites_placeOf_reg c (k := 12) ha rfl ⟨nofun, fun _ _ => rfl⟩
  · obtain ⟨v, hp⟩ := placeOf_freq_range c ⟨hlo, hhi⟩
    exact hp ▸ ⟨nofun, fun _ _ => rfl⟩
  · obtain ⟨v, w, hp⟩ := placeOf_code_range c ⟨hlo, hhi⟩ hw
    exact hp ▸ ⟨nofun, fun _ _ => rfl⟩
  · obtain ⟨i, hp⟩ := placeOf_out_range c ⟨hlo, hhi⟩ hcap
    exact hp ▸ ⟨nofun, fun _ _ => rfl⟩

/-- Settles O18: every read-only address names a place that ignores writes; CMD and CTRL are registers 3 and 2. -/
theorem readOnlyWritesIgnored : Obligations.ReadOnlyWritesIgnored := by
  intro s a v
  refine ⟨fun h => idleWrites_of_ignoresWrites (ignoresWrites_of_isReadOnly h) v, fun ha => ?cmd, fun ha => ?ctrl⟩
  case cmd => exact idleReads_reg s (r := .cmd) (regAt_of_wordOffset (k := 3) ha rfl) rfl
  case ctrl =>
    have hr : regAt (a.toNat / 4) = some .ctrl := regAt_of_wordOffset (k := 2) ha rfl
    exact ⟨idleWrites_reg hr nofun (fun _ => rfl) rfl, idleReads_reg s hr (ctrlWord_eq _)⟩

/-! ### The FREQ and CODE windows -/

/-- Settles O19: the address of entry `v` names that entry. -/
theorem freqWindow : Obligations.FreqWindow := by
  intro s v
  exact idleReads_of_placeOf_eq (placeOf_freq s.caps v (wordOffset_ofNat (by omega) (by omega))) rfl

/-- An idle read of word `w` of the CODE window entry of `v`: words 9 to 15 are unused. -/
theorem idleReads_code (s : State) (v : Sym) {w : Nat} (hw : w < 16) :
    IdleReads s (BitVec.ofNat 32 (0x4000 + 0x40 * v.toNat + 4 * w)) (if w ≤ 8 then codeWord (entry s.code v) w else 0) := by
  refine idleReads_of_placeOf_eq (placeOf_code s.caps v w hw (wordOffset_ofNat (by omega) (by omega))) ?_
  split <;> rfl

theorem codeWord_zero {c : Bits} (h : c.length ≤ 255) : codeWord c 0 = BitVec.ofNat 32 c.length := by
  apply BitVec.eq_of_toNat_eq
  simp only [codeWord, BitVec.toNat_setWidth, BitVec.toNat_ofNat]
  omega

/-- A code read with 0 beyond its end, as R47 writes it. -/
theorem getD_eq_if_getElem! (p : Bits) (i : Nat) : p.getD i false = if i < p.length then p[i]! else false := by
  split
  next h => rw [List.getD_eq_getElem _ _ h, getElem!_pos p i h]
  next h => rw [List.getD_eq_default _ _ (Nat.not_lt.1 h)]

/-- Settles O20: word 0 holds a length that fits eight bits, a word from 1 to 8 its 32 bits of the code, the others
nothing. -/
theorem codeWindow : Obligations.CodeWindow := by
  intro s v hlen
  refine ⟨?length, fun w hw => ⟨codeWord (entry s.code v) (w + 1), ?bits, fun i hi => ?bit⟩, fun w h9 h15 => ?unused⟩
  case length => simpa [codeWord_zero hlen] using idleReads_code s v (w := 0) (by decide)
  case bits =>
    rw [Nat.add_comm 1 w]
    simpa only [if_pos (Nat.succ_le_of_lt hw)] using idleReads_code s v (w := w + 1) (by omega)
  case bit => rw [codeWord_bit _ _ _ hi, getD_eq_if_getElem!]
  case unused => simpa only [if_neg (Nat.not_le.2 h9)] using idleReads_code s v (w := w) (by omega)

/-! ### The buffer windows: a word wholly beyond the capacity acts as one whose four lanes all are -/

theorem writeLanes_of_cap_le {cap i : Nat} (m : Memory) (v : Word) (h : cap ≤ i) : writeLanes cap m i v = m := by
  have hlane : ∀ l, ¬ i + l < cap := by omega
  simp only [writeLanes, hlane, if_false, List.foldl_cons, List.foldl_nil]

section
variable (c : Caps) {k : Nat}

theorem placeOf_inWord (hk : 4 * k < 0x20000000) :
    placeOf c (BitVec.ofNat 32 (0x40000000 + 4 * k)) = windowPlace c .inBuf (4 * k) :=
  placeOf_in c _ hk (wordOffset_ofNat (by omega) (by omega))

theorem placeOf_txtWord (hk : 4 * k < 0x20000) :
    placeOf c (BitVec.ofNat 32 (0x20000 + 4 * k)) = windowPlace c .txtBuf (4 * k) :=
  placeOf_txt c _ hk (wordOffset_ofNat (by omega) (by omega))

theorem placeOf_outWord (hk : 4 * k < 0x20000000) :
    placeOf c (BitVec.ofNat 32 (0x80000000 + 4 * k)) = windowPlace c .outBuf (4 * k) :=
  placeOf_out c _ hk (wordOffset_ofNat (by omega) (by omega))

end

theorem windowPlace_ne_cmd (c : Caps) (b : Buffer) (i : Nat) : windowPlace c b i ≠ .reg .cmd := by
  unfold windowPlace
  split <;> nofun

theorem writeIdle_inWindow (s : State) (i : Nat) (v : Word) :
    writeIdle s (windowPlace s.caps .inBuf i) v = { s with inBuf := writeLanes s.caps.inCap s.inBuf i v } := by
  unfold windowPlace
  split
  next => rfl
  next h =>
    rw [writeLanes_of_cap_le (cap := s.caps.inCap) _ _ (Nat.not_lt.1 h)]
    rfl

theorem writeIdle_txtWindow (s : State) (i : Nat) (v : Word) :
    writeIdle s (windowPlace s.caps .txtBuf i) v = { s with txtBuf := writeLanes s.caps.txtCap s.txtBuf i v } := by
  unfold windowPlace
  split
  next => rfl
  next h =>
    rw [writeLanes_of_cap_le (cap := s.caps.txtCap) _ _ (Nat.not_lt.1 h)]
    rfl

/-- Settles O21: the write stores its lanes below the capacity, and they are read back as `read_writeLanes` says. -/
theorem bufferWindowWrites : Obligations.BufferWindowWrites := by
  intro s k v
  refine ⟨fun hk => ⟨writeLanes s.caps.inCap s.inBuf (4 * k) v, ?inBuf, read_writeLanes _ _ _ v⟩,
    fun hk => ⟨writeLanes s.caps.txtCap s.txtBuf (4 * k) v, ?txtBuf, read_writeLanes _ _ _ v⟩⟩
  case inBuf =>
    have hp := placeOf_inWord s.caps hk
    refine idleWrites_of_place (hp ▸ windowPlace_ne_cmd _ _ _) (fun rest => ?_) rfl
    rw [hp]
    exact writeIdle_inWindow { s with seq := .idle, host := rest } (4 * k) v
  case txtBuf =>
    have hp := placeOf_txtWord s.caps hk
    refine idleWrites_of_place (hp ▸ windowPlace_ne_cmd _ _ _) (fun rest => ?_) rfl
    rw [hp]
    exact writeIdle_txtWindow { s with seq := .idle, host := rest } (4 * k) v

theorem readLane_of_cap_le {s : State} {b : Buffer} {i l : Nat} (h : capOf s.caps b ≤ i + l) : readLane s b i l = 0 :=
  if_neg (Nat.not_lt.2 h)

theorem readLane_of_specified {s : State} {b : Buffer} {i l : Nat} {v : Byte} (hcap : i + l < capOf s.caps b)
    (h : Memory.read (bufOf s b) (i + l) = some v) : readLane s b i l = v := by
  rw [readLane, if_pos hcap, h]

theorem readIdle_window (s : State) (b : Buffer) (i : Nat) : readIdle s (windowPlace s.caps b i) = readBuf s b i := by
  unfold windowPlace
  split
  next => rfl
  next h =>
    have hlane : ∀ l, readLane s b i l = 0 := fun l => readLane_of_cap_le (by omega)
    simp only [readIdle, readBuf, hlane]
    rfl

/-- An idle read of a window word answers four lanes, each the byte where it is specified and 0 beyond the capacity. -/
theorem idleReads_window {s : State} {a : Word} {b : Buffer} {k : Nat} (hp : placeOf s.caps a = windowPlace s.caps b k) :
    ∃ x : Word, IdleReads s a x ∧ ∀ i, i < 4 → (capOf s.caps b ≤ k + i → x.extractLsb' (8 * i) 8 = 0) ∧
      (∀ v, k + i < capOf s.caps b → Memory.read (bufOf s b) (k + i) = some v → x.extractLsb' (8 * i) 8 = v) := by
  refine ⟨readBuf { s with seq := .idle } b k, ?read, fun i hi => ?lanes⟩
  case read => exact idleReads_of_placeOf_eq hp (readIdle_window { s with seq := .idle } b k)
  case lanes =>
    rw [readBuf_lane _ _ _ _ hi]
    exact ⟨fun hcap => readLane_of_cap_le hcap, fun v hcap hv => readLane_of_specified hcap hv⟩

/-- Settles O22, window by window. -/
theorem bufferWindowReads : Obligations.BufferWindowReads := by
  intro s b base cap k hmem hk
  simp only [List.mem_cons, Prod.mk.injEq, List.not_mem_nil, or_false] at hmem
  obtain ⟨rfl, rfl, rfl⟩ | ⟨rfl, rfl, rfl⟩ | ⟨rfl, rfl, rfl⟩ := hmem
  · exact idleReads_window (placeOf_inWord s.caps hk)
  · exact idleReads_window (placeOf_txtWord s.caps hk)
  · exact idleReads_window (placeOf_outWord s.caps hk)

end Sys2Proof.Machine
end

section
/-! The command words: decoding and encoding are inverse (O1), the opcode map word by word (O2), the illegal words and their
completion (O3), and the step that accepts a word (O4). -/

namespace Sys2Proof

/-! ### The opcode map -/

theorem instrOfOpcode_opcodeOf (i : Instr) : instrOfOpcode (opcodeOf i) = some i := by
  cases i <;> rfl

/-- No second opcode of the map names the command. -/
theorem eq_opcodeOf_of_instrOfOpcode {o : BitVec 8} {i : Instr} (h : instrOfOpcode o = some i) : o = opcodeOf i := by
  apply BitVec.eq_of_toNat_eq
  unfold instrOfOpcode at h
  split at h <;> cases h <;> assumption

/-- The assigned opcodes of R60. -/
theorem exists_instrOfOpcode_iff (o : BitVec 8) :
    (∃ i, instrOfOpcode o = some i) ↔ o.toNat ≤ 0x08 ∨ o.toNat = 0x0F := by
  constructor
  · rintro ⟨i, h⟩
    rw [eq_opcodeOf_of_instrOfOpcode h]
    cases i <;> decide
  · unfold instrOfOpcode
    generalize o.toNat = n
    rintro (hn | rfl)
    · interval_cases n <;> exact ⟨_, rfl⟩
    · exact ⟨_, rfl⟩

/-! ### Decoding -/

theorem decode_eq_ok_iff (w : Word) (i : Instr) :
    decode w = .ok i ↔ reservedField w = 0 ∧ instrOfOpcode (opcodeField w) = some i := by
  unfold decode
  split
  next hr => cases instrOfOpcode (opcodeField w) <;> simp [hr]
  next hr => exact ⟨nofun, fun h => absurd h.1 hr⟩

/-- A word is its two fields side by side, so one with RSV = 0 is its opcode widened. -/
theorem eq_setWidth_opcodeField {w : Word} (h : reservedField w = 0) : w = (opcodeField w).setWidth 32 := by
  have happend : reservedField w ++ opcodeField w = w :=
    (BitVec.extractLsb'_append_extractLsb'_eq_extractLsb' rfl).trans BitVec.extractLsb'_eq_self
  rw [BitVec.setWidth_eq_append (by decide), ← BitVec.ofNat_eq_ofNat, ← h]
  exact happend.symm

theorem decode_encode (i : Instr) : decode (encode i) = .ok i := by
  refine (decode_eq_ok_iff _ i).2 ⟨?rsv, ?opcode⟩
  case rsv => cases i <;> rfl
  case opcode =>
    rw [show opcodeField (encode i) = opcodeOf i by cases i <;> rfl]
    exact instrOfOpcode_opcodeOf i

theorem eq_encode_of_decode {w : Word} {i : Instr} (h : decode w = .ok i) : w = encode i := by
  obtain ⟨hrsv, hopcode⟩ := (decode_eq_ok_iff w i).1 h
  rw [encode, ← eq_opcodeOf_of_instrOfOpcode hopcode]
  exact eq_setWidth_opcodeField hrsv

/-- Settles O1: the two fields of a word decide both what it decodes to and which word it is. -/
theorem decodeMatchesEncode : Obligations.DecodeMatchesEncode := by
  intro w i
  refine ⟨eq_encode_of_decode, ?_⟩
  rintro rfl
  exact decode_encode i

theorem exists_decode_ok_iff (w : Word) :
    (∃ i, decode w = .ok i) ↔
      reservedField w = 0 ∧ ((opcodeField w).toNat ≤ 0x08 ∨ (opcodeField w).toNat = 0x0F) := by
  simp only [decode_eq_ok_iff, exists_and_left, exists_instrOfOpcode_iff]

/-- A word that no command has is refused. -/
theorem exists_decode_error {w : Word} (h : ¬ ∃ i, decode w = .ok i) : ∃ r, decode w = .error r := by
  cases hw : decode w with
  | ok i => exact absurd ⟨i, hw⟩ h
  | error r => exact ⟨r, rfl⟩

/-- Settles O2: the ten words are the encodings of the ten commands, and a word that decodes is one of them. -/
theorem decodesTheOpcodeTable : Obligations.DecodesTheOpcodeTable := by
  refine ⟨decode_encode .nop, decode_encode .count, decode_encode .build, decode_encode .gen, decode_encode .pack,
    decode_encode .serialize, decode_encode .deserialize, decode_encode .reconstruct, decode_encode .unpack,
    decode_encode .clear, fun w hlt hne => exists_decode_error ?_⟩
  rintro ⟨i, hi⟩
  obtain rfl := eq_encode_of_decode hi
  cases i with
  | clear => exact hne rfl
  | _ => exact absurd hlt (by decide)

end Sys2Proof

namespace Sys2Proof.Machine

/-! ### Running a word -/

theorem runWord_of_decode_ok {w : Word} {i : Instr} (h : decode w = .ok i) (s : State) : runWord w s = exec i s := by
  rw [runWord, h]

theorem runWord_of_decode_error {w : Word} {r : Illegal} (h : decode w = .error r) (s : State) :
    runWord w s = execIllegal w s := by
  rw [runWord, h]

theorem acceptCommand_of_decode_ok {w : Word} {i : Instr} (h : decode w = .ok i) (k : Nat) (s : State) :
    acceptCommand k w s = publish k (accept w s) (exec i (accept w s)) := by
  rw [acceptCommand, runWord_of_decode_ok h]

/-- Settles O3: the words of R62 are the complement of those whose fields the opcode map knows, and `ILLEGAL` completes
from the accepted state. -/
theorem illegalWordsComplete : Obligations.IllegalWordsComplete := by
  intro w
  have hlegal : (∃ i, decode w = .ok i) ↔ w.extractLsb' 8 24 = 0 ∧
      ((w.extractLsb' 0 8).toNat ≤ 0x08 ∨ (w.extractLsb' 0 8).toNat = 0x0F) := exists_decode_ok_iff w
  refine ⟨fun hw k s => ?illegal, fun hw => ?legal⟩
  case illegal =>
    obtain ⟨r, hr⟩ : ∃ r, decode w = .error r := by
      refine exists_decode_error fun hok => ?_
      obtain ⟨hrsv, hopcode⟩ := hlegal.1 hok
      rcases hw with hne | hrange | hhigh
      · exact hne hrsv
      · omega
      · omega
    rw [acceptCommand, runWord_of_decode_error hr]
    rfl
  case legal =>
    obtain ⟨hrsv, hopcode⟩ := not_or.1 hw
    exact hlegal.2 ⟨not_not.1 hrsv, by omega⟩

/-- Settles O4: every address of the word of CMD names CMD, and acceptance runs what the word decodes to. -/
theorem stepRunsDecodedCommand : Obligations.StepRunsDecodedCommand := by
  intro s a w rest hs hh ha
  have hstep := step_of_write_cmd hh hs (placeOf_reg s.caps ha rfl)
  exact ⟨hstep, fun i hi => hstep.trans (acceptCommand_of_decode_ok hi _ _)⟩

end Sys2Proof.Machine
end

section
/-! The `wait` loop: one turn (O10), and a whole loop over a busy window (O11). -/

namespace Sys2Proof.Machine

/-! ### Runs -/

theorem run_succ_of_next {M : Host.Core} {s u : M.State} (h : M.step s = .next u) (n : Nat) :
    M.run (n + 1) s = M.run n u := by
  rw [Host.Core.run, h]

theorem run_succ_of_fault {M : Host.Core} {s : M.State} {f : M.Fault} (h : M.step s = .fault f) (n : Nat) :
    M.run (n + 1) s = .fault f := by
  rw [Host.Core.run, h]

theorem run_add_of_next {M : Host.Core} {n : Nat} {s u : M.State} (h : M.run n s = .next u) (m : Nat) :
    M.run (n + m) s = M.run m u := by
  induction n generalizing s with
  | zero =>
    cases h
    rw [Nat.zero_add]
  | succ n ih =>
    rw [Host.Core.run] at h
    split at h
    next t hstep => rw [Nat.add_right_comm, run_succ_of_next hstep, ih h]
    next => cases h
    next => cases h

/-- `n` steps of the machine from `s` end in `o`. -/
def RunsTo (n : Nat) (s : State) (o : Host.Outcome State Fault Refusal) : Prop := Sys2Proof.core.run n s = o

theorem RunsTo.zero (s : State) : RunsTo 0 s (.next s) := rfl

theorem RunsTo.head {n : Nat} {s u : State} {o : Host.Outcome State Fault Refusal} (hstep : step s = .next u)
    (hrun : RunsTo n u o) : RunsTo (n + 1) s o :=
  (run_succ_of_next (M := Sys2Proof.core) hstep n).trans hrun

theorem RunsTo.of_fault (n : Nat) {s : State} {f : Fault} (hstep : step s = .fault f) :
    RunsTo (n + 1) s (.fault f) :=
  run_succ_of_fault (M := Sys2Proof.core) hstep n

theorem RunsTo.trans {n m : Nat} {s u : State} {o : Host.Outcome State Fault Refusal} (h : RunsTo n s (.next u))
    (h' : RunsTo m u o) : RunsTo (n + m) s o :=
  (run_add_of_next (M := Sys2Proof.core) h m).trans h'

/-! ### One turn -/

/-- A turn of `wait` while busy is one access of the window. -/
theorem step_of_wait_busyNext {s : State} {n : Nat} {p : Pending} {rest : List HostOp} (hh : s.host = .wait :: rest)
    (hs : s.seq = .busy n p) : step s = busyNext n p { s with reads := s.reads ++ [statusWord s] } :=
  (step_of_wait_busy hh (isBusy_of_busy hs)).trans (countDown_of_busy hs)

/-- Settles O10: while busy, by what one access does to each kind of window. -/
theorem waitReadsStatus : Obligations.WaitReadsStatus := by
  intro s rest hh
  exact ⟨step_of_wait_idle hh, fun _ => step_of_wait_busyNext hh, fun _ => step_of_wait_busyNext hh,
    fun _ _ => step_of_wait_busyNext hh⟩

/-! ### The whole loop -/

/-- The loop over a window with a result pending: each turn is one access, the last one reveals the result, and one more
read sees BUSY clear. -/
theorem runsTo_of_wait_block {n : Nat} {s : State} {rest : List HostOp} {r : Block} (hh : s.host = .wait :: rest)
    (hs : s.seq = .busy n (.block r)) : ∃ rs d, rs.length = s.reads.length + (n + 2) ∧ RunsTo (n + 2) s (.next { s with
      toBlock := r, seq := .idle, host := rest, reads := rs, draws := d, resetLast := false }) := by
  have hturn := step_of_wait_busyNext hh hs
  induction n generalizing s with
  | zero => exact ⟨_, _, by simp, .head hturn (.head (step_of_wait_idle hh rfl) (.zero _))⟩
  | succ n ih =>
    obtain ⟨rs, d, hlen, hrun⟩ := ih (s := { s with
      seq := .busy n (.block r), reads := s.reads ++ [statusWord s], draws := s.draws + 1, resetLast := false })
      hh rfl (step_of_wait_busyNext hh rfl)
    simp only [List.length_append, List.length_singleton] at hlen
    exact ⟨rs, d, by omega, .head hturn hrun⟩

/-- The loop over a window with a fault pending. -/
theorem runsTo_of_wait_fault {n : Nat} {s : State} {rest : List HostOp} {f : Fault} (hh : s.host = .wait :: rest)
    (hs : s.seq = .busy n (.fault f)) : RunsTo (n + 1) s (.fault f) := by
  have hturn := step_of_wait_busyNext hh hs
  induction n generalizing s with
  | zero => exact .of_fault 0 hturn
  | succ n ih => exact .head hturn (ih hh rfl (step_of_wait_busyNext hh rfl))

/-- Settles O11, by the two loops. -/
theorem waitSeesCompletion : Obligations.WaitSeesCompletion := by
  intro n s rest hh
  refine ⟨fun r hs => ?_, fun f hs => runsTo_of_wait_fault hh hs⟩
  obtain ⟨rs, d, hlen, hrun⟩ := runsTo_of_wait_block hh hs
  exact ⟨_, hrun, rfl, rfl, rfl, rfl, rfl, rfl, hlen⟩

end Sys2Proof.Machine
end

section
/-! A program of `cmd` and `wait` (O58). A command does not depend on the host's own fields, so the commands run by the host,
with the waits between them, leave what they leave when run one after another. -/

namespace Sys2Proof.Machine

/-! ### Commands and the host's own fields -/

/-- `s` with other values of the host's and the model's own fields. -/
def withHost (h : List HostOp) (rs : List Word) (d : Nat) (l : Bool) (s : State) : State :=
  { s with host := h, reads := rs, draws := d, resetLast := l }

/-- The next state of an outcome changed by `f`; a fault or a refusal is kept. -/
def mapNext (f : State → State) : Host.Outcome State Fault Refusal → Host.Outcome State Fault Refusal
  | .next t => .next (f t)
  | .fault e => .fault e
  | .refused r => .refused r

section
variable {h : List HostOp} {rs : List Word} {d : Nat} {l : Bool} {s u : State} (hu : u = withHost h rs d l s)
include hu

theorem toBlock_of_eq_withHost : u.toBlock = s.toBlock := hu ▸ rfl

theorem caps_of_eq_withHost : u.caps = s.caps := hu ▸ rfl

theorem execCount_withHost : execCount u = mapNext (withHost h rs d l) (execCount s) := by
  unfold execCount inOperands
  rw [toBlock_of_eq_withHost hu, caps_of_eq_withHost hu, hu]
  split
  · rfl
  split
  · rfl
  split <;> rfl

theorem execBuild_withHost : execBuild u = mapNext (withHost h rs d l) (execBuild s) := by
  unfold execBuild
  rw [toBlock_of_eq_withHost hu, hu]
  split <;> rfl

theorem writePacked_withHost (n : Word) (bits : Bits) :
    writePacked n bits u = withHost h rs d l (writePacked n bits s) := by
  unfold writePacked
  rw [caps_of_eq_withHost hu, hu]
  simp only []
  split <;> rfl

theorem execPack_withHost : execPack u = mapNext (withHost h rs d l) (execPack s) := by
  unfold execPack inOperands
  rw [toBlock_of_eq_withHost hu, caps_of_eq_withHost hu, hu]
  split
  · rfl
  split
  · rfl
  split
  · exact congrArg Host.Outcome.next (writePacked_withHost rfl _ _)
  · rfl
  · rfl

theorem execDeserialize_withHost : execDeserialize u = mapNext (withHost h rs d l) (execDeserialize s) := by
  unfold execDeserialize txtOperands
  rw [toBlock_of_eq_withHost hu, caps_of_eq_withHost hu, hu]
  split
  · rfl
  split
  · rfl
  · rfl
  split <;> rfl

theorem execReconstruct_withHost : execReconstruct u = mapNext (withHost h rs d l) (execReconstruct s) := by
  unfold execReconstruct
  rw [toBlock_of_eq_withHost hu, hu]
  split <;> rfl

theorem execUnpack_withHost : execUnpack u = mapNext (withHost h rs d l) (execUnpack s) := by
  unfold execUnpack inBits inOperands
  rw [toBlock_of_eq_withHost hu, caps_of_eq_withHost hu, hu]
  split
  · rfl
  split
  · rfl
  simp only []
  split <;> rfl

/-- No command reads or writes the fields of the host. -/
theorem exec_withHost (i : Instr) : exec i u = mapNext (withHost h rs d l) (exec i s) := by
  cases i with
  | nop => exact hu ▸ rfl
  | count => exact execCount_withHost hu
  | build => exact execBuild_withHost hu
  | gen => exact hu ▸ rfl
  | pack => exact execPack_withHost hu
  | serialize => exact hu ▸ rfl
  | deserialize => exact execDeserialize_withHost hu
  | reconstruct => exact execReconstruct_withHost hu
  | unpack => exact execUnpack_withHost hu
  | clear => exact hu ▸ rfl

end

section
variable {h : List HostOp} {rs : List Word} {d : Nat} {l : Bool}

theorem exec_withHost_next {i : Instr} {s t : State} (ht : exec i s = .next t) :
    exec i (withHost h rs d l s) = .next (withHost h rs d l t) := by
  rw [exec_withHost rfl, ht]
  rfl

theorem runCommands_cons_eq_some {i : Instr} {is : List Instr} {s t : State} :
    runCommands (i :: is) s = some t ↔ ∃ u, exec i (accept (encode i) s) = .next u ∧ runCommands is u = some t := by
  rw [runCommands]
  cases exec i (accept (encode i) s) <;> simp

theorem runCommands_withHost {is : List Instr} {s t : State} (ht : runCommands is s = some t) :
    runCommands is (withHost h rs d l s) = some (withHost h rs d l t) := by
  induction is generalizing s with
  | nil =>
    cases ht
    rfl
  | cons i is ih =>
    obtain ⟨u, hu, hrest⟩ := runCommands_cons_eq_some.1 ht
    exact runCommands_cons_eq_some.2 ⟨_, exec_withHost_next hu, ih hrest⟩

end

theorem seq_of_exec_next {i : Instr} {s t : State} (ht : exec i s = .next t) : t.seq = .idle :=
  (commandsWriteOnlyTheirResults i s t ht).1

theorem caps_of_exec_next {i : Instr} {s t : State} (ht : exec i s = .next t) : t.caps = s.caps := by
  obtain ⟨-, -, -, -, -, -, hcaps, -⟩ := commandsWriteOnlyTheirResults i s t ht
  exact hcaps

/-- A command that completes is known by the block it leaves. -/
theorem eq_of_exec_next {i : Instr} {s t : State} (ht : exec i s = .next t) :
    { s with toBlock := t.toBlock, seq := .idle } = t := by
  obtain ⟨hseq, -, -, -, hviol, hlastCmd, hcaps, hhost, hreads, hdraws, hresetLast, -⟩ :=
    commandsWriteOnlyTheirResults i s t ht
  rw [← hseq, ← hviol, ← hlastCmd, ← hcaps, ← hhost, ← hreads, ← hdraws, ← hresetLast]

theorem runCommands_idle_caps {is : List Instr} {s t : State} (hs : s.seq = .idle) (ht : runCommands is s = some t) :
    t.seq = .idle ∧ t.caps = s.caps := by
  induction is generalizing s with
  | nil =>
    cases ht
    exact ⟨hs, rfl⟩
  | cons i is ih =>
    obtain ⟨u, hu, hrest⟩ := runCommands_cons_eq_some.1 ht
    have hucaps := caps_of_exec_next hu
    obtain ⟨hidle, hcaps⟩ := ih (seq_of_exec_next hu) hrest
    exact ⟨hidle, hcaps.trans hucaps⟩

/-! ### The host's program -/

/-- Whatever BUSY_LEN is drawn, `cmd i; wait` ends with the result of command `i` visible and the host past the wait: at once
for a draw of 0, after the busy window otherwise. -/
theorem runsTo_of_cmd_wait {i : Instr} {s t : State} {rest : List HostOp} (hs : s.seq = .idle)
    (hh : s.host = .write cmdAddr (encode i) :: .wait :: rest) (ht : exec i (accept (encode i) s) = .next t) :
    ∃ n rs d, RunsTo n s (.next (withHost rest rs d false t)) := by
  let u := withHost (.wait :: rest) s.reads (s.draws + 1) false (accept (encode i) s)
  have hexec : exec i u = .next (withHost (.wait :: rest) s.reads (s.draws + 1) false t) := exec_withHost_next ht
  have hstep : step s = publish (Config.busyLen s.draws) u (exec i u) :=
    (stepRunsDecodedCommand s cmdAddr (encode i) (.wait :: rest) hs hh rfl).2 i (decode_encode i)
  rw [hexec] at hstep
  cases hk : Config.busyLen s.draws with
  | zero =>
    rw [hk] at hstep
    have hidle : t.seq = .idle := seq_of_exec_next ht
    exact ⟨_, _, _, .head hstep (.head (step_of_wait_idle rfl hidle) (.zero _))⟩
  | succ n =>
    rw [hk] at hstep
    obtain ⟨rs, d, -, hwait⟩ := runsTo_of_wait_block (n := n)
      (s := { u with seq := .busy n (.block t.toBlock) }) rfl rfl
    rw [← eq_of_exec_next ht]
    exact ⟨_, rs, d, .head hstep hwait⟩

/-- Command by command; the note of a last reset is gone after the first one. -/
theorem runsTo_of_runAll {is : List Instr} {s t : State} {rest : List HostOp} (hs : s.seq = .idle)
    (hh : s.host = runAll is ++ rest) (ht : runCommands is s = some t) :
    ∃ n rs d l, RunsTo n s (.next (withHost rest rs d l t)) ∧ (is ≠ [] ∨ s.resetLast = false → l = false) := by
  induction is generalizing s t with
  | nil =>
    obtain rfl : s = t := Option.some.inj ht
    obtain rfl : s.host = rest := hh
    exact ⟨0, s.reads, s.draws, s.resetLast, .zero s, fun hl => hl.resolve_left (not_not.2 rfl)⟩
  | cons i is ih =>
    obtain ⟨u, hu, hrest⟩ := runCommands_cons_eq_some.1 ht
    obtain ⟨n, rs, d, hn⟩ := runsTo_of_cmd_wait hs hh hu
    have hidle : u.seq = .idle := seq_of_exec_next hu
    obtain ⟨m, rs', d', l, hm, hl⟩ := ih (s := withHost (runAll is ++ rest) rs d false u) hidle rfl
      (runCommands_withHost hrest)
    exact ⟨n + m, rs', d', l, hn.trans hm, fun _ => hl (.inr rfl)⟩

/-- Settles O58: the host's run ends in the commands' own result but for the host's fields. -/
theorem commandSequencesRun : Obligations.CommandSequencesRun := by
  intro is s t rest hs hh ht
  obtain ⟨hidle, hcaps⟩ := runCommands_idle_caps hs ht
  obtain ⟨n, rs, d, l, hrun, hl⟩ := runsTo_of_runAll hs hh ht
  exact ⟨n, _, hrun, rfl, hidle, rfl, rfl, hcaps, rfl, fun hrest hlast => ⟨hrest, hidle, hl hlast⟩⟩

end Sys2Proof.Machine
end

section
/-! COUNT: what it answers for specified bytes (O25) and its two errors (O26). -/

namespace Sys2Proof.Machine

/-- The bytes below an index are determined by the buffer. -/
theorem BytesAt.eq_of_length_eq {m : Memory} {bs cs : List Byte} (hb : BytesAt m bs) (hc : BytesAt m cs)
    (h : bs.length = cs.length) : bs = cs :=
  List.ext_getElem? fun i => by
    by_cases hi : i < bs.length
    · rw [← hb i hi, ← hc i (h ▸ hi)]
    · rw [List.getElem?_eq_none (by omega), List.getElem?_eq_none (by omega)]

theorem execCount_of_bytesAt {s : State} {bs : List Byte} (hlen : bs.length = s.inLen.toNat) (hpos : 0 < bs.length)
    (hcap : bs.length ≤ s.caps.inCap) (hbs : BytesAt s.inBuf bs) :
    execCount s = .next (finish (setFreq (tally bs) s)) := by
  rcases execCount_cases s with ⟨hlong, -⟩ | ⟨hzero, -⟩ | ⟨-, -, ⟨cs, hcs, hat, h⟩ | ⟨k, hk, hnone, -⟩⟩
  · omega
  · omega
  · rw [h, hbs.eq_of_length_eq hat (hlen.trans hcs.symm)]
  · have := hbs.length_le hnone
    omega

/-- DISTINCT counts each byte that occurs once (10_state R28). -/
theorem countEntries_tally {bs : List Byte} (h : bs.length < 2 ^ 32) :
    countEntries (· != 0) (tally bs) = bs.dedup.length := by
  rw [← length_present]
  refine List.Perm.length_eq ((List.perm_ext_iff_of_nodup (allSyms_nodup.sublist List.filter_sublist)
    bs.nodup_dedup).2 fun v => ?_)
  simp only [List.mem_filter, mem_allSyms, true_and, decide_eq_true_eq, List.mem_dedup]
  exact entry_tally_ne_zero bs h v

/-- Settles O25: the tally's entries and the number of its present symbols are those of the bytes. -/
theorem countTallies : Obligations.CountTallies := by
  intro s bs hlen hpos hcap hbs
  have hlt : bs.length < 2 ^ 32 := hcap.trans_lt (caps_lt s.caps).1
  refine ⟨_, _, execCount_of_bytesAt hlen hpos hcap hbs, entry_tally bs hlt, ?_⟩
  rw [toNat_ofNat_countEntries, countEntries_tally hlt]

/-- Settles O26: both errors end with the cleared table, and a length of 0 is not above IN_CAP. -/
theorem countErrors : Obligations.CountErrors := by
  refine fun s => ⟨filled 0, entry_filled 0, fun hlong => ?_, fun hzero => ?_⟩
  · rcases execCount_cases s with ⟨-, h⟩ | ⟨hzero, -⟩ | ⟨-, hcap, -⟩
    · exact h
    · omega
    · omega
  · rcases execCount_cases s with ⟨hlong, -⟩ | ⟨-, h⟩ | ⟨hpos, -⟩
    · omega
    · exact h
    · omega

end Sys2Proof.Machine
end

section
/-! GEN: the codes are the paths of the tree (O34), so that none begins another (O35). -/

namespace Sys2Proof.Machine

theorem exec_gen (s : State) : exec .gen s = .next (finish (setCode (genTable s.tree) s)) := rfl

/-- The degenerate tree gives its only symbol the code [0] (R70). -/
theorem entry_genTable_leaf (v x : Sym) : entry (genTable (.leaf v)) x = if x = v then [false] else [] :=
  (entry_setEntry (filled []) v x [false]).trans (by rw [entry_filled])

/-- Settles O34: GEN's table, entry by entry, and its number of codes. -/
theorem genAssignsPaths : Obligations.GenAssignsPaths := by
  intro s h
  refine ⟨_, _, exec_gen s, fun v p => entry_genTable h v p, ?_⟩
  rw [toNat_ofNat_countEntries, countEntries_genTable h]

/-- Settles O35: the codes are paths to distinct leaves. -/
theorem genGivesPrefixCode : Obligations.GenGivesPrefixCode := by
  intro s t h ht
  cases (exec_gen s).symm.trans ht
  exact prefixFree_genTable h

end Sys2Proof.Machine
end

section
/-! BUILD: the shape of its tree under every tie policy (O27), the queue order (O28, O29), the empty and the one-symbol
table (O30, O31), and what the least weighted depth gives (O32, O33). -/

namespace Sys2Proof.Machine

/-! ### The shape of a tree over the present symbols -/

/-- What R69 (a) and (b) say of BUILD's tree: it is full, and its leaves are the present symbols, each once. -/
structure IsTreeOver (f : Table Word) (t : PTree) : Prop where
  full : isFull t = true
  leaves : (leafSyms t).Perm (allSyms.filter fun v => entry f v ≠ 0)

section
variable {f : Table Word} {t : PTree}

theorem IsTreeOver.nodup (h : IsTreeOver f t) : (leafSyms t).Nodup :=
  h.leaves.nodup_iff.2 (allSyms_nodup.sublist List.filter_sublist)

theorem IsTreeOver.mem_leafSyms (h : IsTreeOver f t) (v : Sym) : v ∈ leafSyms t ↔ entry f v ≠ 0 := by
  simp [h.leaves.mem_iff, mem_allSyms]

theorem IsTreeOver.length_leafSyms (h : IsTreeOver f t) : (leafSyms t).length = countEntries (· != 0) f :=
  h.leaves.length_eq.trans (length_present f)

theorem IsTreeOver.exists_present (h : IsTreeOver f t) : ∃ v, entry f v ≠ 0 := by
  obtain ⟨v, hv⟩ := List.exists_mem_of_ne_nil _ (leafSyms_ne_nil_of_full h.full)
  exact ⟨v, (h.mem_leafSyms v).1 hv⟩

end

/-- A path to a leaf of a full tree is shorter than the number of leaves (R69 (d)). -/
theorem length_path_lt_of_full {t : PTree} (hfull : isFull t = true) {p : Bits} {v : Sym}
    (hp : subtreeAt t p = .leaf v) : p.length + 1 ≤ (leafSyms t).length := by
  have hle := length_le_height hp
  have hlt := height_lt_of_full hfull
  omega

/-- Only the root leaf has an empty path, so a tree of two or more leaves has none. -/
theorem length_path_pos {t : PTree} (hn : 2 ≤ (leafSyms t).length) {p : Bits} {v : Sym} (hp : subtreeAt t p = .leaf v) :
    1 ≤ p.length := by
  cases p with
  | nil =>
    rw [subtreeAt_nil] at hp
    simp [hp, leafSyms] at hn
  | cons b p => simp

/-- A full tree with a single leaf is that leaf: below a Node there are at least two. -/
theorem eq_leaf_of_full {t : PTree} {v : Sym} (hfull : isFull t = true) (h : leafSyms t = [v]) : t = .leaf v := by
  cases t with
  | empty => simp [leafSyms] at h
  | leaf u => simpa [leafSyms] using h
  | node l r =>
    have hcount := nodeCount_of_full hfull
    simp [h, nodeCount] at hcount

/-- The leaves of the first queue are the present symbols. -/
theorem startQueue_flatMap_leafSyms (f : Table Word) :
    ((startQueue f).flatMap fun x => leafSyms x.t) = allSyms.filter fun v => entry f v ≠ 0 := by
  rw [← List.flatMap_map (f := fun x : QElem => x.t) (g := leafSyms), startQueue_leaves, List.flatMap_map]
  exact List.flatMap_singleton' _

theorem isFull_of_mem_startQueue {f : Table Word} {x : QElem} (hx : x ∈ startQueue f) : isFull x.t = true := by
  obtain ⟨e, -, rfl⟩ := List.mem_map.1 hx
  rfl

theorem isTreeOver_of_mergesAnyPolicy {f : Table Word} {t : PTree} (h : MergesAnyPolicy (startQueue f) t) :
    IsTreeOver f t := by
  obtain ⟨hfull, hleaves⟩ := mergesAnyPolicy_full h fun x hx => isFull_of_mem_startQueue hx
  exact ⟨hfull, startQueue_flatMap_leafSyms f ▸ hleaves⟩

/-! ### What BUILD answers -/

theorem execBuild_of_absent {s : State} (h : ∀ v, entry s.freq v = 0) :
    execBuild s = .next (raiseErr .emptyInput 0 { s with tree := .empty }) := by
  rcases execBuild_cases s with ⟨-, hs⟩ | ⟨t, hfull, hleaves, -, -⟩
  · exact hs
  · obtain ⟨v, hv⟩ := IsTreeOver.exists_present ⟨hfull, hleaves⟩
    exact absurd (h v) hv

theorem execBuild_of_present {s : State} (h : ∃ v, entry s.freq v ≠ 0) :
    ∃ t, execBuild s = .next (finish { s with tree := t }) ∧
      Merges (startQueue s.freq) (startQueue s.freq).length t := by
  rcases execBuild_cases s with ⟨habsent, -⟩ | ⟨t, -, -, hmerges, hs⟩
  · obtain ⟨v, hv⟩ := h
    exact absurd (habsent v) hv
  · exact ⟨t, hs, hmerges⟩

theorem mergesAnyPolicy_of_build {s t : State} (h : exec .build s = .next t) (he : t.error = false) :
    MergesAnyPolicy (startQueue s.freq) t.tree := by
  rcases execBuild_cases s with ⟨-, hs⟩ | ⟨u, -, -, hmerges, hs⟩
  · cases hs.symm.trans h
    cases he
  · cases hs.symm.trans h
    exact mergesAnyPolicy_of_merges hmerges

/-- Settles O27: BUILD's policy is one of the policies, and the tree of each is full over the present symbols. -/
theorem buildGivesFullTree : Obligations.BuildGivesFullTree := by
  intro s n hn hpos good
  have hgood : ∀ t, MergesAnyPolicy (startQueue s.freq) t → good t := by
    intro t h
    have ht := isTreeOver_of_mergesAnyPolicy h
    have hlen : (leafSyms t).length = n := ht.length_leafSyms.trans hn.symm
    have hnodes := nodeCount_of_full ht.full
    have h256 := countEntries_le (· != 0) s.freq
    refine ⟨ht.full, ht.nodup, ht.mem_leafSyms, hlen, by omega, by omega, fun p v hp => ?_⟩
    have hdepth := length_path_lt_of_full ht.full hp
    exact ⟨by omega, by omega, fun h2 => length_path_pos (hlen ▸ h2) hp⟩
  have hpresent : ∃ v, entry s.freq v ≠ 0 := by
    rw [hn, ← length_present] at hpos
    obtain ⟨v, hv⟩ := List.exists_mem_of_length_pos hpos
    exact ⟨v, by simpa using (List.mem_filter.1 hv).2⟩
  obtain ⟨t, hs, hmerges⟩ := execBuild_of_present hpresent
  exact ⟨⟨t, hs, hgood t (mergesAnyPolicy_of_merges hmerges)⟩, hgood⟩

/-- Settles O28: the merge loop follows R67. -/
theorem buildFollowsQueueOrder : Obligations.BuildFollowsQueueOrder := fun _ => execBuild_of_present

/-- Settles O30: a tree over the present symbols has a leaf, so with none present BUILD has no tree to answer. -/
theorem buildEmptyTable : Obligations.BuildEmptyTable := fun _ => execBuild_of_absent

/-! ### The queue order determines the tree -/

theorem QElem.before_asymm {x y : QElem} (h : x.before y = true) : ¬ y.before x = true := by
  simp only [QElem.before, Bool.or_eq_true, Bool.and_eq_true, decide_eq_true_eq, beq_iff_eq] at h ⊢
  omega

/-- The element that precedes all others is determined by the queue, and so are the others. -/
theorem eq_and_perm_of_before {a b : QElem} {R S : List QElem} (h : (a :: R).Perm (b :: S))
    (ha : ∀ x ∈ R, a.before x = true) (hb : ∀ x ∈ S, b.before x = true) : a = b ∧ R.Perm S := by
  obtain rfl : a = b := by
    by_contra hne
    have haS : a ∈ S := List.mem_of_ne_of_mem hne (h.mem_iff.1 List.mem_cons_self)
    have hbR : b ∈ R := List.mem_of_ne_of_mem (Ne.symm hne) (h.mem_iff.2 List.mem_cons_self)
    exact QElem.before_asymm (ha b hbR) (hb a haS)
  exact ⟨rfl, h.cons_inv⟩

/-- Queues with the same elements merge to the same tree: each merge removes the same two. -/
theorem Merges.unique {Q : List QElem} {q : Nat} {t : PTree} (h : Merges Q q t) {Q' : List QElem} {u : PTree}
    (hQ : Q.Perm Q') (h' : Merges Q' q u) : t = u := by
  induction h generalizing Q' u with
  | done e q =>
    cases h' with
    | done e' => rw [List.singleton_perm_singleton.1 hQ]
    | merge _ a b R _ _ hp =>
      have := (hQ.trans hp).length_eq
      simp at this
  | merge Q a b R q t hp ha hb _ ih =>
    cases h' with
    | done e =>
      have := (hp.symm.trans hQ).length_eq
      simp at this
    | merge _ a' b' R' _ _ hp' ha' hb' ht' =>
      obtain ⟨rfl, htail⟩ := eq_and_perm_of_before (hp.symm.trans (hQ.trans hp')) ha ha'
      obtain ⟨rfl, hrest⟩ := eq_and_perm_of_before htail hb hb'
      exact ih (hrest.cons _) ht'

/-- Settles O29: the same queue merges to the same tree. -/
theorem queueOrderIsDeterministic : Obligations.QueueOrderIsDeterministic :=
  fun _ _ _ _ _ _ h h' => h.unique (.refl _) h'

/-! ### One present symbol -/

theorem eq_leaf_of_isTreeOver {f : Table Word} {t : PTree} {v : Sym} (h : IsTreeOver f t) (hv : entry f v ≠ 0)
    (honly : ∀ u, u ≠ v → entry f u = 0) : t = .leaf v := by
  refine eq_leaf_of_full h.full (List.perm_singleton.1 ?_)
  refine (List.perm_ext_iff_of_nodup h.nodup (List.nodup_singleton v)).2 fun u => ?_
  rw [h.mem_leafSyms, List.mem_singleton]
  exact ⟨fun hu => by_contra fun hne => hu (honly u hne), fun hu => hu ▸ hv⟩

/-- Settles O31: the tree over one symbol is a root leaf, whose code is [0]. -/
theorem degenerateTree : Obligations.DegenerateTree := by
  intro s v hv honly
  obtain ⟨t, hs, hmerges⟩ := execBuild_of_present ⟨v, hv⟩
  obtain rfl := eq_leaf_of_isTreeOver (isTreeOver_of_mergesAnyPolicy (mergesAnyPolicy_of_merges hmerges)) hv honly
  refine ⟨_, _, hs, rfl, exec_gen _, ?_, fun x hx => ?_⟩
  · exact (entry_genTable_leaf v v).trans (if_pos rfl)
  · exact (entry_genTable_leaf v x).trans (if_neg hx)

/-! ### Least weighted depth -/

/-- The counts of a tree's leaves with their depths. -/
def weightedLeaves (f : Table Word) (t : PTree) : List (Nat × Nat) :=
  (leafDepths t 0).map fun e => ((entry f e.1).toNat, e.2)

theorem weightedLeaves_map_fst (f : Table Word) (t : PTree) :
    (weightedLeaves f t).map Prod.fst = (leafSyms t).map fun v => (entry f v).toNat := by
  rw [← leafDepths_map_fst t 0, weightedLeaves, List.map_map, List.map_map]
  rfl

theorem weightedLeaves_map_snd (f : Table Word) (t : PTree) :
    (weightedLeaves f t).map Prod.snd = (leafDepths t 0).map (·.2) := by
  rw [weightedLeaves, List.map_map]
  rfl

theorem mem_weightedLeaves (f : Table Word) {t : PTree} {p : Bits} {v : Sym} (h : subtreeAt t p = .leaf v) :
    ((entry f v).toNat, p.length) ∈ weightedLeaves f t :=
  List.mem_map.2 ⟨(v, p.length), by simpa using mem_leafDepths h 0, rfl⟩

/-- No full tree over the present symbols costs less than a merge loop's, under any tie policy (R71). -/
theorem weightedDepth_le_of_isTreeOver {f : Table Word} {t u : PTree} (h : MergesAnyPolicy (startQueue f) t)
    (hu : IsTreeOver f u) : weightedDepth f t 0 ≤ weightedDepth f u 0 := by
  rw [weightedDepth_eq_cost f u]
  refine weightedDepth_le_cost h (weightedLeaves f u) ?_ ?_
  · exact (weightedLeaves_map_fst f u).symm ▸ hu.leaves.map _
  · exact (weightedLeaves_map_snd f u).symm ▸ depths_of_full hu.full

/-- Settles O32: a full tree with the leaves of BUILD's is one over the present symbols. -/
theorem buildIsOptimal : Obligations.BuildIsOptimal := by
  intro s t h he
  have ht := mergesAnyPolicy_of_build h he
  refine ⟨ht, fun tr htr u hfull hleaves => ?_, fun v hv => ⟨?_, _, exec_gen t, ?_⟩⟩
  · exact weightedDepth_le_of_isTreeOver htr ⟨hfull, hleaves.trans (isTreeOver_of_mergesAnyPolicy ht).leaves⟩
  · rw [hv, weightedDepth, Nat.mul_zero]
  · rw [finish_code, setCode_code, hv, entry_genTable_leaf, if_pos rfl]
    rfl

/-- Two members of a list that differ come first in a permutation of it. -/
theorem exists_perm_cons_cons {α : Type} [DecidableEq α] {l : List α} {x y : α} (hx : x ∈ l) (hy : y ∈ l)
    (hne : y ≠ x) : ∃ rest, l.Perm (x :: y :: rest) :=
  ⟨(l.erase x).erase y,
    (List.perm_cons_erase hx).trans ((List.perm_cons_erase ((List.mem_erase_of_ne hne).2 hy)).cons x)⟩

/-- A more frequent symbol is not deeper: exchanging two leaves that are out of order would lower the weighted depth. -/
theorem depth_le_of_freq_lt {f : Table Word} {t : PTree} (h : MergesAnyPolicy (startQueue f) t) {a b : Sym} {p q : Bits}
    (hp : subtreeAt t p = .leaf a) (hq : subtreeAt t q = .leaf b) (hlt : (entry f b).toNat < (entry f a).toNat) :
    p.length ≤ q.length := by
  have ht := isTreeOver_of_mergesAnyPolicy h
  obtain ⟨rest, hperm⟩ := exists_perm_cons_cons (mem_weightedLeaves f hp) (mem_weightedLeaves f hq)
    (by simp only [ne_eq, Prod.mk.injEq]; omega)
  have hweights : ((entry f b).toNat :: (entry f a).toNat :: rest.map Prod.fst).Perm
      ((allSyms.filter fun v => entry f v ≠ 0).map fun v => (entry f v).toNat) :=
    (List.Perm.swap ..).trans ((hperm.map Prod.fst).symm.trans (weightedLeaves_map_fst f t ▸ ht.leaves.map _))
  have hdepths : Depths (p.length :: q.length :: rest.map Prod.snd) :=
    .perm _ _ (depths_of_full ht.full) (weightedLeaves_map_snd f t ▸ hperm.map Prod.snd)
  have hle := weightedDepth_le_cost h (((entry f b).toNat, p.length) :: ((entry f a).toNat, q.length) :: rest)
    hweights hdepths
  rw [weightedDepth_eq_cost f t, ← weightedLeaves, cost_perm hperm] at hle
  simp only [cost_cons] at hle
  by_contra! hgt
  have hexchange := mul_add_mul_lt_mul_add_mul hlt hgt
  omega

/-- Settles O33: the code of a present symbol is its path, because two symbols are present and the root is a Node. -/
theorem codeLengthsFollowFrequency : Obligations.CodeLengthsFollowFrequency := by
  intro s t u h he hu a b hlt hb
  cases (exec_gen t).symm.trans hu
  have hmerges := mergesAnyPolicy_of_build h he
  have ht := isTreeOver_of_mergesAnyPolicy hmerges
  have ha : a ∈ leafSyms t.tree := (ht.mem_leafSyms a).2 (word_ne_zero.2 (by omega))
  have hb : b ∈ leafSyms t.tree := (ht.mem_leafSyms b).2 (word_ne_zero.2 hb)
  have hroot : walkRoot t.tree = t.tree := by
    cases htree : t.tree with
    | empty => simp [htree, leafSyms] at ha
    | leaf v =>
      rw [htree, leafSyms, List.mem_singleton] at ha hb
      simp [ha, hb] at hlt
    | node l r => rfl
  have hpath : ∀ v ∈ leafSyms t.tree, subtreeAt t.tree (entry (genTable t.tree) v) = .leaf v := fun v hv => by
    have := (entry_genTable ht.nodup v _).1 ⟨rfl, (entry_genTable_ne_nil ht.nodup v).2 hv⟩
    rwa [hroot] at this
  exact depth_le_of_freq_lt hmerges (hpath a ha) (hpath b hb) hlt

end Sys2Proof.Machine
end

section
/-! PACK: what it answers for each kind of operand bytes (O36, O37), that the answer depends on these bytes and CODE only
(O39), and the accumulator formulation (O38). -/

namespace Sys2Proof.Machine

/-! ### What PACK answers -/

section
variable {s : State} {bs : List Byte}

theorem execPack_of_long (h : s.caps.inCap < s.inLen.toNat) :
    execPack s = .next (raiseErr .lengthOutOfRange s.inLen (failPack s)) := by
  rcases execPack_cases s with ⟨-, hs⟩ | ⟨hzero, -⟩ | ⟨-, hcap, -⟩
  · exact hs
  · omega
  · omega

theorem execPack_of_empty (h : s.inLen.toNat = 0) : execPack s = .next (raiseErr .emptyInput 0 (failPack s)) := by
  rcases execPack_cases s with ⟨hlong, -⟩ | ⟨-, hs⟩ | ⟨hpos, -⟩
  · omega
  · exact hs
  · omega

/-- All bytes have a code: their codes are packed. -/
theorem execPack_of_coded (hlen : bs.length = s.inLen.toNat) (hpos : 0 < s.inLen.toNat)
    (hcap : s.inLen.toNat ≤ s.caps.inCap) (hbs : BytesAt s.inBuf bs) (hcode : ∀ b ∈ bs, entry s.code b ≠ []) :
    execPack s = .next (writePacked s.inLen (bs.flatMap (entry s.code)) s) := by
  unfold execPack
  rw [if_neg (by omega), if_neg (word_ne_zero.2 hpos), inOperands, ← hlen, operands_of_bytesAt _ _ _ hbs,
    encodeBits_ok _ _ _ hcode]

/-- The byte `b` after the coded bytes `bs` has no code: it is reported, whatever stands after it. -/
theorem execPack_of_missing {b : Byte} (hlt : bs.length < s.inLen.toNat) (hcap : s.inLen.toNat ≤ s.caps.inCap)
    (hbs : BytesAt s.inBuf (bs ++ [b])) (hcode : ∀ b ∈ bs, entry s.code b ≠ []) (hb : entry s.code b = []) :
    execPack s = .next (raiseErr .missingCode (BitVec.ofNat 32 bs.length) (failPack s)) := by
  obtain ⟨rest, hops, -⟩ := operands_of_prefix (b := .inBuf) (n := s.inLen.toNat) hbs (by simpa using hlt)
  rw [List.map_append, List.append_assoc] at hops
  unfold execPack
  rw [if_neg (by omega), if_neg (word_ne_zero.2 (by omega)), inOperands, hops]
  simp only [List.map_cons, List.map_nil, List.singleton_append, encodeBits_missing _ 0 bs b rest hcode hb, Nat.zero_add]

theorem writePacked_of_fits {n : Word} {bits : Bits} (h : bytesFor bits.length ≤ s.caps.outCap) :
    writePacked n bits s = finish { s with
      outBuf := Memory.writeAll s.outBuf 0 (packBits bits), outLen := BitVec.ofNat 32 (bytesFor bits.length)
      symCount := n, bitCount := BitVec.ofNat 32 bits.length } :=
  if_neg (by omega)

theorem writePacked_of_overflow {n : Word} {bits : Bits} (h : s.caps.outCap < bytesFor bits.length) :
    writePacked n bits s =
      raiseErr .outputOverflow (BitVec.ofNat 32 (min (bytesFor bits.length) 0xFFFFFFFF)) (failPack s) :=
  if_pos h

end

/-- Settles O36: the packed bytes stand in OUT_BUF, padded with zeros, and no other byte is written. -/
theorem packEmitsCodes : Obligations.PackEmitsCodes := by
  rintro s bs S hlen hpos hcap hbs hcode rfl hfits
  have hs := execPack_of_coded hlen (hlen ▸ hpos) (hlen ▸ hcap) hbs hcode
  rw [writePacked_of_fits hfits] at hs
  refine ⟨_, hs, fun j hj => ?_, fun j hge hlt => ?_, fun k hk => ?_⟩
  · rw [bitAt_packed _ _ _ (by unfold bytesFor; omega), List.getElem?_eq_getElem hj, List.getD_eq_getElem _ _ hj]
  · rw [bitAt_packed _ _ _ hlt, List.getD_eq_default _ _ hge]
  · rw [read_writeAll_zero, length_packBits]
    exact if_neg (Nat.not_lt.2 hk)

/-- Settles O37: each error is the answer for its kind of operand bytes. -/
theorem packErrors : Obligations.PackErrors := by
  refine fun s => ⟨execPack_of_long, execPack_of_empty, fun bs hpos hcap hbs =>
    ⟨fun i hi hlt hcode hmissing => ?_, ?_⟩⟩
  · have hget : bs[i]? = some bs[i] := List.getElem?_eq_getElem (by omega)
    have hsplit : bs = bs.take i ++ [bs[i]] := by
      rw [← List.take_succ_eq_append_getElem, ← hi, List.take_length]
    have htake : (bs.take i).length = i := List.length_take_of_le (by omega)
    rw [hsplit] at hbs
    have hs := execPack_of_missing (htake.trans_lt hlt) hcap hbs hcode (hmissing _ hget)
    rwa [htake] at hs
  · rintro hlen hcode m rfl hover
    have hs := execPack_of_coded hlen hpos hcap hbs hcode
    rwa [writePacked_of_overflow hover] at hs

/-! ### PACK is a function of its operands -/

/-- The results of PACK that R78 speaks of are those of `t` in `t'` as well. -/
def SamePacked (t t' : State) : Prop :=
  t'.outLen = t.outLen ∧ t'.symCount = t.symCount ∧ t'.bitCount = t.bitCount ∧ t'.errCode = t.errCode ∧
    t'.errInfo = t.errInfo ∧ ∀ k, k < t.outLen.toNat → Memory.read t'.outBuf k = Memory.read t.outBuf k

theorem samePacked_failed (code : ErrCode) (info : Word) (s u : State) :
    SamePacked (raiseErr code info (failPack s)) (raiseErr code info (failPack u)) :=
  ⟨rfl, rfl, rfl, rfl, rfl, fun _ _ => rfl⟩

theorem samePacked_writePacked (n : Word) (bits : Bits) {s u : State} (hcaps : s.caps = u.caps) :
    SamePacked (writePacked n bits s) (writePacked n bits u) := by
  rcases Nat.lt_or_ge s.caps.outCap (bytesFor bits.length) with hover | hfits
  · rw [writePacked_of_overflow hover, writePacked_of_overflow (hcaps ▸ hover)]
    exact samePacked_failed ..
  · rw [writePacked_of_fits hfits, writePacked_of_fits (hcaps ▸ hfits)]
    refine ⟨rfl, rfl, rfl, rfl, rfl, fun k hk => ?_⟩
    have hk' : k < (packBits bits).length := by
      rw [length_packBits]
      exact hk.trans_le (Nat.mod_le _ _)
    simp only [finish_outBuf, read_writeAll_zero, if_pos hk']

/-- What stands in a buffer stands in another that agrees with it below its end. -/
theorem BytesAt.congr {m m' : Memory} {bs : List Byte} {n : Nat} (h : BytesAt m bs) (hn : bs.length ≤ n)
    (hm : ∀ i, i < n → Memory.read m i = Memory.read m' i) : BytesAt m' bs :=
  fun i hi => (hm i (by omega)).symm.trans (h i hi)

section
variable {s u : State} (hlen : s.inLen = u.inLen) (hcode : s.code = u.code) (hcaps : s.caps = u.caps)
  (hin : ∀ i, i < s.inLen.toNat → Memory.read s.inBuf i = Memory.read u.inBuf i)
include hlen hcode hcaps hin

theorem PackStopsAt.congr {k : Nat} (h : PackStopsAt s k) : PackStopsAt u k := by
  obtain ⟨hcap, hk, hnone, hbefore⟩ := h
  refine ⟨hlen ▸ hcaps ▸ hcap, hlen ▸ hk, hin k hk ▸ hnone, fun j hj => ?_⟩
  rw [← hin j (by omega), ← hcode]
  exact hbefore j hj

theorem execPack_samePacked {t : State} (ht : execPack s = .next t) : ∃ t', execPack u = .next t' ∧ SamePacked t t' := by
  rcases execPack_cases s with ⟨hlong, hs⟩ | ⟨hzero, hs⟩ | ⟨hpos, hcap, ⟨bs, b, hlt, hbs, hcoded, hb, hs⟩ |
    ⟨_, -, -, -, -, hs⟩ | ⟨bs, hbl, hbs, hcoded, hs⟩⟩ <;> cases hs.symm.trans ht
  · exact ⟨_, execPack_of_long (hlen ▸ hcaps ▸ hlong), hlen ▸ samePacked_failed ..⟩
  · exact ⟨_, execPack_of_empty (hlen ▸ hzero), samePacked_failed ..⟩
  · exact ⟨_, execPack_of_missing (hlen ▸ hlt) (hlen ▸ hcaps ▸ hcap) (hbs.congr (by simpa using hlt) hin)
      (hcode ▸ hcoded) (hcode ▸ hb), samePacked_failed ..⟩
  · refine ⟨_, execPack_of_coded (hlen ▸ hbl) (hlen ▸ hpos) (hlen ▸ hcaps ▸ hcap) (hbs.congr hbl.le hin)
      (hcode ▸ hcoded), ?_⟩
    rw [← hlen, ← hcode]
    exact samePacked_writePacked _ _ hcaps

end

/-- Settles O39: a completion is transferred by its cases, a fault by the byte it stops at. -/
theorem packIsAFunctionOfItsOperands : Obligations.PackIsAFunctionOfItsOperands := by
  refine fun s u hlen hcode hcaps hin => ⟨fun t ht => execPack_samePacked hlen hcode hcaps hin ht, fun f hf => ?_⟩
  obtain ⟨k, rfl, hk⟩ := (execPack_faultsExactlyAt s f).1 hf
  exact execPack_of_stopsAt (hk.congr hlen hcode hcaps hin)

/-! ### The accumulator formulation -/

theorem bitsValue_append_singleton (l : Bits) (b : Bool) : bitsValue (l ++ [b]) = Nat.bit b (bitsValue l) := by
  rw [bitsValue, List.foldl_append, Nat.bit_val]
  cases b <;> rfl

/-- The last bit of the list is the least significant one. -/
theorem testBit_bitsValue (l : Bits) (i : Nat) : (bitsValue l).testBit i = l.reverse.getD i false := by
  induction l using List.reverseRecOn generalizing i with
  | nil => simp [bitsValue]
  | append_singleton l b ih =>
    rw [bitsValue_append_singleton, List.reverse_concat]
    cases i with
    | zero => exact Nat.testBit_bit_zero b _
    | succ i => rw [Nat.testBit_bit_succ, ih, List.getD_cons_succ]

/-- At most eight bits, shifted left to fill a byte, are the first packed byte. -/
theorem packedByte_zero {l : Bits} (h : l.length ≤ 8) :
    packedByte l 0 = BitVec.ofNat 8 (bitsValue l) <<< (8 - l.length) := by
  apply BitVec.eq_of_getLsbD_eq
  intro i hi
  have hbyte : (packedByte l 0).getLsbD i = l.getD (7 - i) false := by
    simpa [show 7 - (7 - i) = i by omega] using packedByte_bit l 0 (7 - i) (by omega)
  rw [hbyte, BitVec.getLsbD_shiftLeft, BitVec.getLsbD_ofNat, testBit_bitsValue]
  rcases Nat.lt_or_ge i (8 - l.length) with hpad | hbit
  · rw [List.getD_eq_default l false (by omega)]
    simp [hpad]
  · simp only [List.getD_eq_getElem?_getD]
    rw [List.getElem?_reverse (by omega), show l.length - 1 - (i - (8 - l.length)) = 7 - i by omega]
    simp [hi, hbit, show i - (8 - l.length) < 8 by omega]

theorem packedByte_append_zeros (p : Bits) (n k : Nat) :
    packedByte (p ++ List.replicate n false) k = packedByte p k := by
  refine congrArg (wordOf 8) (funext fun i => ?_)
  rcases Nat.lt_or_ge (8 * k + (7 - i)) p.length with hlt | hge
  · exact List.getD_append _ _ _ _ hlt
  · rw [List.getD_append_right _ _ _ _ hge, List.getD_eq_default p false hge]
    exact List.getElem?_getD_replicate_default_eq ..

/-- The padding of R75 adds nothing to what is read beyond the end of the bits. -/
theorem packBits_eq_map (bits : Bits) : packBits bits = (List.range (bytesFor bits.length)).map (packedByte bits) :=
  List.map_congr_left fun k _ => packedByte_append_zeros bits _ k

/-- Eight bits are packed as a byte of their own before the rest. -/
theorem packBits_append {l : Bits} (h : l.length = 8) (rest : Bits) :
    packBits (l ++ rest) = BitVec.ofNat 8 (bitsValue l) :: packBits rest := by
  have hfirst : packedByte (l ++ rest) 0 = packedByte l 0 :=
    congrArg (wordOf 8) (funext fun i => List.getD_append _ _ _ _ (by omega))
  have hlater : ∀ k, packedByte (l ++ rest) (k + 1) = packedByte rest k := fun k =>
    congrArg (wordOf 8) (funext fun i => by
      rw [List.getD_append_right _ _ _ _ (by omega), show 8 * (k + 1) + (7 - i) - l.length = 8 * k + (7 - i) by omega])
  have hbytes : bytesFor (l ++ rest).length = bytesFor rest.length + 1 := by
    rw [List.length_append, h, bytesFor, bytesFor]
    omega
  have hvalue : packedByte l 0 = BitVec.ofNat 8 (bitsValue l) := by
    rw [packedByte_zero h.le, h, Nat.sub_self, BitVec.shiftLeft_zero]
  rw [packBits_eq_map, hbytes, List.range_succ_eq_map, List.map_cons, List.map_map, hfirst, hvalue, packBits_eq_map]
  exact congrArg _ (List.map_congr_left fun k _ => hlater k)

/-- Fewer than eight bits are packed as one byte, if there are any. -/
theorem packBits_of_lt {l : Bits} (hne : l ≠ []) (h : l.length < 8) :
    packBits l = [BitVec.ofNat 8 (bitsValue l) <<< (8 - l.length)] := by
  have hpos := List.length_pos_of_ne_nil hne
  have hbytes : bytesFor l.length = 1 := by
    rw [bytesFor]
    omega
  rw [packBits_eq_map, hbytes, ← packedByte_zero h.le]
  rfl

/-- Feeding bits keeps the accumulator below a byte, and the bytes emitted with the bits left pack as all the bits do. -/
theorem feedBits_packBits {acc : Bits} (h : acc.length < 8) (bits rest : Bits) :
    (feedBits acc bits).2.length < 8 ∧
      (feedBits acc bits).1 ++ packBits ((feedBits acc bits).2 ++ rest) = packBits (acc ++ bits ++ rest) := by
  induction bits generalizing acc with
  | nil => exact ⟨h, by simp [feedBits]⟩
  | cons b bits ih =>
    unfold feedBits
    split
    next h7 =>
      obtain ⟨hlt, hpack⟩ := ih (acc := []) (by simp)
      refine ⟨hlt, ?_⟩
      rw [List.cons_append, hpack, ← packBits_append (by simpa using h7)]
      simp
    next h7 =>
      obtain ⟨hlt, hpack⟩ := ih (acc := acc ++ [b]) (by simp; omega)
      exact ⟨hlt, by simpa using hpack⟩

theorem accumulate_eq_packBits (c : Table Bits) {acc : Bits} (h : acc.length < 8) (bs : List Byte) :
    accumulate c acc bs = packBits (acc ++ bs.flatMap (entry c)) := by
  induction bs generalizing acc with
  | nil =>
    rw [accumulate, List.flatMap_nil, List.append_nil]
    split
    next hnil => rw [hnil]; rfl
    next hne => exact (packBits_of_lt hne h).symm
  | cons b bs ih =>
    obtain ⟨hlt, hpack⟩ := feedBits_packBits h (entry c b) (bs.flatMap (entry c))
    rw [accumulate, ih hlt, hpack, List.flatMap_cons, List.append_assoc]

/-- A PACK that succeeds has packed the codes of the operand bytes. -/
theorem packed_of_success {s t : State} {bs : List Byte} (h : exec .pack s = .next t) (he : t.error = false)
    (hlen : bs.length = s.inLen.toNat) (hbs : BytesAt s.inBuf bs) :
    bytesFor (bs.flatMap (entry s.code)).length ≤ s.caps.outCap ∧
      t.outLen = BitVec.ofNat 32 (bytesFor (bs.flatMap (entry s.code)).length) ∧
      t.outBuf = Memory.writeAll s.outBuf 0 (packBits (bs.flatMap (entry s.code))) := by
  rcases execPack_cases s with ⟨-, hs⟩ | ⟨-, hs⟩ | ⟨-, -, ⟨_, _, -, -, -, -, hs⟩ | ⟨_, -, -, -, -, hs⟩ |
    ⟨cs, hcl, hcs, -, hs⟩⟩ <;> cases hs.symm.trans h
  · cases he
  · cases he
  · cases he
  · obtain rfl := hbs.eq_of_length_eq hcs (hlen.trans hcl.symm)
    rcases writePacked_cases s.inLen (bs.flatMap (entry s.code)) s with ⟨-, hw⟩ | ⟨hfits, hw⟩ <;> rw [hw] at he ⊢
    · cases he
    · exact ⟨hfits, rfl, rfl⟩

/-- Settles O38: both formulations pack the same bits. -/
theorem packMatchesAccumulator : Obligations.PackMatchesAccumulator := by
  intro s t bs h he hlen hbs
  obtain ⟨hfits, hout, hbuf⟩ := packed_of_success h he hlen hbs
  rw [accumulate_eq_packBits s.code (by simp) bs, List.nil_append, length_packBits, hout, hbuf]
  exact ⟨Nat.mod_eq_of_lt (hfits.trans_lt (caps_lt s.caps).2.1), bytesAt_writeAll _ _⟩

end Sys2Proof.Machine
end

section
/-! The table that a text of lines stands for: DESERIALIZE of lines with distinct symbols (O41, O42) and its errors before
the prefix check (O43). -/

namespace Sys2Proof.Machine

/-! ### What is rejected before the prefix check -/

theorem execDeserialize_of_long {s : State} (h : s.caps.txtCap < s.txtLen.toNat) :
    execDeserialize s = .next (raiseErr .lengthOutOfRange s.txtLen (clearCode s)) :=
  if_pos h

/-- What R82 answers with MALFORMED_ENTRY after the lines `lines`: no line, or one of their symbols again. -/
def Rejected (lines : List (Sym × Bits)) (rest : List Operand) : Prop :=
  parseLine rest = .bad ∨ ∃ v c r, parseLine rest = .ok (v, c) r ∧ v ∈ lines.map (·.1)

/-- A line of specified bytes only does not fault, so what is no line of a new symbol is rejected. -/
theorem rejected_of_bytes {lines : List (Sym × Bits)} {bad : List Byte}
    (h : ∀ v c rest, 1 ≤ c.length → c.length ≤ 255 → bad = tableLine v c ++ rest → v ∈ lines.map (·.1)) :
    Rejected lines (bad.map Except.ok) := by
  cases hp : parseLine (bad.map Except.ok) with
  | bad => exact .inl hp
  | fault f =>
    obtain ⟨seen, r, heq, -⟩ := parseLine_fault hp
    have hmem : Except.error f ∈ bad.map (Except.ok (ε := Fault)) := by simp [heq]
    simp at hmem
  | ok a r =>
    obtain ⟨v, c⟩ := a
    obtain ⟨heq, hpos, hle⟩ := parseLine_ok hp
    obtain ⟨_, rest, hbad, hline, -⟩ := List.map_eq_append_iff.1 heq
    rw [List.map_injective_iff.2 (fun _ _ => Except.ok.inj) hline] at hbad
    exact .inr ⟨v, c, r, hp, h v c rest hpos hle hbad⟩

/-- The byte that decides a line rejects it, whatever stands after it, unless it ends the line of a new symbol. -/
theorem rejected_of_decided {lines : List (Sym × Bits)} {seen : List Byte} {x : Byte} {r : List Operand} {room : Nat}
    (hroom : (seen.map Except.ok ++ Except.ok x :: r : List Operand).length = room) (hu : Unfinished room seen)
    (hx : ¬ Unfinished room (seen ++ [x]))
    (h : ∀ v c, 1 ≤ c.length → c.length ≤ 255 → seen ++ [x] = tableLine v c → v ∈ lines.map (·.1)) :
    Rejected lines (seen.map Except.ok ++ .ok x :: r) := by
  subst hroom
  rcases parseLine_decided hu hx with hbad | ⟨v, c, hline, hpos, hle⟩
  · exact .inl hbad
  · have hp := parseLine_tableLine v c r hpos hle
    rw [← hline, List.map_append, List.append_assoc] at hp
    exact .inr ⟨v, c, r, hp, h v c hpos hle hline⟩

/-! ### The table of a list of lines -/

/-- The table that the loop of R82 has built after `lines`. -/
abbrev linesTable (lines : List (Sym × Bits)) : Table Bits := lines.foldl (fun c e => setEntry c e.1 e.2) (filled [])

section
variable {lines : List (Sym × Bits)} {s : State} (hn : (lines.map (·.1)).Nodup)

include hn in
theorem entry_linesTable_of_mem {l : Sym × Bits} (h : l ∈ lines) : entry (linesTable lines) l.1 = l.2 :=
  (entry_lines hn l.1).1 l.2 h

variable (hl : ∀ l ∈ lines, 1 ≤ l.2.length ∧ l.2.length ≤ 255)
include hn hl

/-- The lines are the symbols with a code. -/
theorem mem_lines_iff (l : Sym × Bits) : l ∈ lines ↔ entry (linesTable lines) l.1 = l.2 ∧ l.2 ≠ [] := by
  constructor
  · intro h
    exact ⟨entry_linesTable_of_mem hn h, List.ne_nil_of_length_pos (hl l h).1⟩
  · rintro ⟨he, hne⟩
    by_cases hv : l.1 ∈ lines.map (·.1)
    · obtain ⟨l', hmem, hsym⟩ := List.mem_map.1 hv
      have hcode := entry_linesTable_of_mem hn hmem
      rw [hsym, he] at hcode
      rwa [Prod.ext hsym.symm hcode]
    · exact absurd (he.symm.trans ((entry_lines hn l.1).2 hv)) hne

/-- A conflict in the table is a conflict of two lines. -/
theorem conflicts_linesTable_iff (v : Sym) : Conflicts (linesTable lines) v ↔
    ∃ l ∈ lines, ∃ l' ∈ lines, l.1 = v ∧ l'.1 ≠ v ∧ (l.2 <+: l'.2 ∨ l'.2 <+: l.2) := by
  constructor
  · rintro ⟨hv, u, hne, hu, hp⟩
    exact ⟨(v, _), (mem_lines_iff hn hl _).2 ⟨rfl, hv⟩, (u, _), (mem_lines_iff hn hl _).2 ⟨rfl, hu⟩, rfl, hne, hp⟩
  · rintro ⟨l, hmem, l', hmem', rfl, hne, hp⟩
    obtain ⟨he, hcode⟩ := (mem_lines_iff hn hl l).1 hmem
    obtain ⟨he', hcode'⟩ := (mem_lines_iff hn hl l').1 hmem'
    rw [← he] at hcode hp
    rw [← he'] at hcode' hp
    exact ⟨hcode, l'.1, hne, hcode', hp⟩

/-! ### Texts of whole lines -/

/-- The loop of R82 enters the lines at the start of the text and goes on after them. -/
theorem parseLines_of_operands {n : Nat} {rest : List Operand}
    (hops : txtOperands s n = (linesText lines).map Except.ok ++ rest) :
    ∃ fuel, rest.length ≤ fuel ∧ parseLines n 0 (filled []) (txtOperands s n) =
      parseLines fuel lines.length (linesTable lines) rest := by
  have hlen := congrArg List.length hops
  simp only [txtOperands, List.length_append, List.length_map, List.length_range] at hlen
  rw [hops]
  simpa using parseLines_linesText lines n 0 (filled []) rest hn hl (fun l _ => entry_filled [] l.1) (by omega)

theorem parseLines_of_lines (hlen : s.txtLen.toNat = (linesText lines).length)
    (hbs : BytesAt s.txtBuf (linesText lines)) :
    parseLines s.txtLen.toNat 0 (filled []) (txtOperands s s.txtLen.toNat) = .ok (linesTable lines, lines.length) := by
  have hops : txtOperands s s.txtLen.toNat = (linesText lines).map Except.ok ++ [] := by
    rw [txtOperands, hlen, operands_of_bytesAt _ _ _ hbs, List.append_nil]
  obtain ⟨fuel, -, hparse⟩ := parseLines_of_operands hn hl hops
  rw [hparse, parseLines]

/-- Lines that form a prefix code give their table. -/
theorem execDeserialize_of_prefixFree (hp : PrefixFree (linesTable lines))
    (hlen : s.txtLen.toNat = (linesText lines).length) (hcap : s.txtLen.toNat ≤ s.caps.txtCap)
    (hbs : BytesAt s.txtBuf (linesText lines)) : execDeserialize s =
      .next (finish { s with code := linesTable lines, codeNsym := BitVec.ofNat 32 lines.length }) := by
  unfold execDeserialize
  rw [if_neg (by omega), parseLines_of_lines hn hl hlen hbs]
  simp only [(prefixConflict_none_iff _).2 hp]

/-- Lines with a conflict give the least symbol in one. -/
theorem execDeserialize_of_conflict {v : Sym} (hv : Conflicts (linesTable lines) v)
    (hleast : ∀ u : Sym, u.toNat < v.toNat → ¬ Conflicts (linesTable lines) u)
    (hlen : s.txtLen.toNat = (linesText lines).length) (hcap : s.txtLen.toNat ≤ s.caps.txtCap)
    (hbs : BytesAt s.txtBuf (linesText lines)) :
    execDeserialize s = .next (raiseErr .prefixConflict (v.setWidth 32) (clearCode s)) := by
  unfold execDeserialize
  rw [if_neg (by omega), parseLines_of_lines hn hl hlen hbs]
  simp only [(prefixConflict_some_iff _ v).2 ⟨hv, hleast⟩]

/-! ### Texts that end in no line -/

theorem parseLines_of_rejected {rest : List Operand} (hne : rest ≠ []) (h : Rejected lines rest)
    {fuel : Nat} (line : Nat) (hf : rest.length ≤ fuel) :
    parseLines fuel line (linesTable lines) rest = .error (.err .malformedEntry (BitVec.ofNat 32 line)) := by
  cases rest with
  | nil => exact absurd rfl hne
  | cons o rest =>
    cases fuel with
    | zero => cases hf
    | succ fuel =>
      rw [parseLines]
      rcases h with hbad | ⟨v, c, r, hok, hv⟩
      · rw [hbad]
      · obtain ⟨l, hmem, rfl⟩ := List.mem_map.1 hv
        obtain ⟨he, hcode⟩ := (mem_lines_iff hn hl l).1 hmem
        rw [← he] at hcode
        simp only [hok, if_neg hcode]

theorem execDeserialize_of_rejected {rest : List Operand} (hcap : s.txtLen.toNat ≤ s.caps.txtCap)
    (hops : txtOperands s s.txtLen.toNat = (linesText lines).map Except.ok ++ rest) (hne : rest ≠ [])
    (h : Rejected lines rest) :
    execDeserialize s = .next (raiseErr .malformedEntry (BitVec.ofNat 32 lines.length) (clearCode s)) := by
  obtain ⟨fuel, hf, hparse⟩ := parseLines_of_operands hn hl hops
  unfold execDeserialize
  rw [if_neg (by omega), hparse, parseLines_of_rejected hn hl hne h _ hf]

end

/-! ### The statements -/

/-- Settles O41: the table of the lines has no conflict, because a conflict would be one of two lines. -/
theorem deserializeReadsLines : Obligations.DeserializeReadsLines := by
  intro s lines hn hl hprefix hlen hcap hbs
  have hp : PrefixFree (linesTable lines) := by
    rw [prefixFree_iff]
    intro v hv
    obtain ⟨l, hmem, l', hmem', rfl, hne, h | h⟩ := (conflicts_linesTable_iff hn hl v).1 hv
    · exact hprefix l hmem l' hmem' hne.symm h
    · exact hprefix l' hmem' l hmem hne h
  exact ⟨_, execDeserialize_of_prefixFree hn hl hp hlen hcap hbs, fun l => entry_linesTable_of_mem hn,
    fun v => (entry_lines hn v).2⟩

/-- Settles O42: the least conflict of two lines is the least conflict in their table. -/
theorem deserializePrefixConflict : Obligations.DeserializePrefixConflict := by
  intro s lines v hn hl hlen hcap hbs conflicts hv hleast
  have hiff : ∀ u, Conflicts (linesTable lines) u ↔ conflicts u := conflicts_linesTable_iff hn hl
  exact ⟨filled [], execDeserialize_of_conflict hn hl ((hiff v).2 hv) (fun u hu => (hiff u).not.2 (hleast u hu)) hlen hcap
    hbs, entry_filled []⟩

/-- Settles O43: after the lines the text is rejected, by all its bytes or by the one that decides. -/
theorem deserializeErrors : Obligations.DeserializeErrors := by
  refine fun s => ⟨filled [], entry_filled [], execDeserialize_of_long, fun lines hn hl hcap =>
    ⟨fun bad hlen hbs hne h => ?_, fun seen x hlen hbs hu hx h => ?_⟩⟩
  · have hops := operands_of_bytesAt .txtBuf _ _ hbs
    rw [List.length_append, hlen, List.map_append] at hops
    exact execDeserialize_of_rejected hn hl hcap hops (by simpa using hne) (rejected_of_bytes h)
  · obtain ⟨r, hops, hr⟩ := operands_of_prefix (b := .txtBuf) (n := s.txtLen.toNat) hbs
      (by rw [List.length_append, List.length_append]; exact hlen)
    simp only [List.map_append, List.append_assoc, List.map_cons, List.map_nil, List.cons_append, List.nil_append] at hops
    refine execDeserialize_of_rejected hn hl hcap hops (by simp) (rejected_of_decided ?_ hu hx h)
    simp only [List.length_append, List.length_map, List.length_cons, List.length_nil] at hr ⊢
    omega

end Sys2Proof.Machine
end

section
/-! SERIALIZE: the text it writes (O40), and that it and DESERIALIZE are inverse up to the order of the lines (O44). -/

namespace Sys2Proof.Machine

/-! ### The text -/

theorem isLiteral_iff (v : Byte) : isLiteral v = true ↔ 0x21 ≤ v.toNat ∧ v.toNat ≤ 0x7E ∧ v.toNat ≠ 0x5C := by
  have hv : v = 0x5C ↔ v.toNat = 0x5C := BitVec.toNat_eq
  simp only [isLiteral, Bool.and_eq_true, decide_eq_true_eq, bne_iff_ne, ne_eq, hv, and_assoc]

theorem hexDigit_eq (d : Nat) :
    hexDigit d = if d ≤ 9 then BitVec.ofNat 8 (0x30 + d) else BitVec.ofNat 8 (0x41 + (d - 10)) :=
  apply_ite (BitVec.ofNat 8) _ _ _

/-- The lines of the symbols with a code, ascending. -/
def codedLines (c : Table Bits) : List (Sym × Bits) :=
  (allSyms.filter fun v => entry c v ≠ []).map fun v => (v, entry c v)

theorem tableText_eq_linesText (c : Table Bits) : tableText c = linesText (codedLines c) := tableText_eq c

theorem exec_serialize (s : State) : exec .serialize s = .next (finish { s with
    txtBuf := Memory.writeAll s.txtBuf 0 (tableText s.code)
    txtLen := BitVec.ofNat 32 (tableText s.code).length }) := rfl

theorem linesText_codedLines (c : Table Bits) : linesText (codedLines c) =
    (allSyms.filter fun v => entry c v ≠ []).flatMap fun v => tableLine v (entry c v) := by
  rw [linesText, codedLines, List.flatMap_map]

/-- Settles O40: the format written out in the statement is that of `tableLine`. -/
theorem serializeWritesText : Obligations.SerializeWritesText := by
  intro s hlen field text
  have hfield : ∀ v, field v = symField v := fun v => by
    simp only [field, symField, isLiteral_iff, hexDigit_eq]
  have htext : text = tableText s.code := by
    simp only [text, hfield, tableText_eq_linesText, linesText_codedLines]
    rfl
  rw [htext]
  refine ⟨_, exec_serialize s, length_tableText_le s.code hlen, bytesAt_writeAll _ _, fun k hk => ?_⟩
  rw [read_writeAll_zero, if_neg (Nat.not_lt.2 hk)]

/-! ### The lines of a table, and the table of lines -/

theorem mem_codedLines (c : Table Bits) (l : Sym × Bits) : l ∈ codedLines c ↔ entry c l.1 = l.2 ∧ l.2 ≠ [] := by
  simp only [codedLines, List.mem_map, List.mem_filter, mem_allSyms, true_and, decide_eq_true_eq]
  constructor
  · rintro ⟨v, hv, rfl⟩
    exact ⟨rfl, hv⟩
  · rintro ⟨he, hne⟩
    exact ⟨l.1, he ▸ hne, Prod.ext rfl he⟩

/-- Lines are in ascending order of their symbols. -/
def Ascending (lines : List (Sym × Bits)) : Prop := lines.Pairwise fun a b => a.1.toNat < b.1.toNat

theorem codedLines_ascending (c : Table Bits) : Ascending (codedLines c) := by
  rw [Ascending, codedLines, List.pairwise_map]
  exact allSyms_sorted.filter _

theorem Ascending.nodup_map_fst {lines : List (Sym × Bits)} (h : Ascending lines) : (lines.map (·.1)).Nodup :=
  List.pairwise_map.2 (h.imp fun hlt heq => by rw [heq] at hlt; exact lt_irrefl _ hlt)

theorem Ascending.eq_of_perm {lines lines' : List (Sym × Bits)} (h : Ascending lines) (h' : Ascending lines')
    (hp : lines.Perm lines') : lines = lines' :=
  hp.eq_of_pairwise (fun _ _ _ _ hlt hgt => absurd hlt hgt.asymm) h h'

theorem length_code_of_mem_codedLines {c : Table Bits} (h : ∀ v, (entry c v).length ≤ 255) (l : Sym × Bits)
    (hl : l ∈ codedLines c) : 1 ≤ l.2.length ∧ l.2.length ≤ 255 := by
  obtain ⟨he, hne⟩ := (mem_codedLines c l).1 hl
  exact ⟨List.length_pos_of_ne_nil hne, he ▸ h l.1⟩

/-- The table of the lines of a table is that table. -/
theorem linesTable_codedLines (c : Table Bits) : linesTable (codedLines c) = c := by
  have hn := (codedLines_ascending c).nodup_map_fst
  apply table_ext
  intro v
  by_cases hv : entry c v = []
  · rw [hv]
    refine (entry_lines hn v).2 fun hmem => ?_
    obtain ⟨l, hl, rfl⟩ := List.mem_map.1 hmem
    obtain ⟨he, hne⟩ := (mem_codedLines c l).1 hl
    exact hne (he ▸ hv)
  · exact (entry_lines hn v).1 _ ((mem_codedLines c _).2 ⟨rfl, hv⟩)

theorem length_codedLines (c : Table Bits) : (codedLines c).length = countEntries (!·.isEmpty) c := by
  rw [codedLines, List.length_map, countEntries_eq, List.countP_eq_length_filter]
  congr 2
  funext v
  cases entry c v <;> rfl

/-- The lines of the table of lines are these lines, sorted. -/
theorem codedLines_linesTable_perm {lines : List (Sym × Bits)} (hn : (lines.map (·.1)).Nodup)
    (hl : ∀ l ∈ lines, 1 ≤ l.2.length ∧ l.2.length ≤ 255) : (codedLines (linesTable lines)).Perm lines :=
  (List.perm_ext_iff_of_nodup (codedLines_ascending _).nodup_map_fst.of_map hn.of_map).2 fun l =>
    (mem_codedLines _ l).trans (mem_lines_iff hn hl l).symm

/-! ### The lines of a text -/

theorem tableLine_append_inj {v v' : Sym} {c c' : Bits} {r r' : List Byte} (h : 1 ≤ c.length ∧ c.length ≤ 255)
    (h' : 1 ≤ c'.length ∧ c'.length ≤ 255) (heq : tableLine v c ++ r = tableLine v' c' ++ r') :
    (v, c) = (v', c') ∧ r = r' := by
  have hp := parseLine_tableLine v c (r.map Except.ok) h.1 h.2
  have hp' := parseLine_tableLine v' c' (r'.map Except.ok) h'.1 h'.2
  rw [← List.map_append, heq, List.map_append, hp'] at hp
  obtain ⟨hline, hrest⟩ := Parse.ok.inj hp
  exact ⟨hline.symm, List.map_injective_iff.2 (fun _ _ => Except.ok.inj) hrest.symm⟩

theorem linesText_cons_ne_nil (l : Sym × Bits) (ls : List (Sym × Bits)) : linesText (l :: ls) ≠ [] :=
  List.append_ne_nil_of_left_ne_nil (List.ne_nil_of_length_pos (length_tableLine_pos l.1 l.2)) _

/-- A text has one list of lines. -/
theorem linesText_inj {lines lines' : List (Sym × Bits)} (hl : ∀ l ∈ lines, 1 ≤ l.2.length ∧ l.2.length ≤ 255)
    (hl' : ∀ l ∈ lines', 1 ≤ l.2.length ∧ l.2.length ≤ 255) (h : linesText lines = linesText lines') :
    lines = lines' := by
  induction lines generalizing lines' with
  | nil =>
    cases lines' with
    | nil => rfl
    | cons l' ls' => exact absurd h.symm (linesText_cons_ne_nil l' ls')
  | cons l ls ih =>
    cases lines' with
    | nil => exact absurd h (linesText_cons_ne_nil l ls)
    | cons l' ls' =>
      obtain ⟨hhead, htail⟩ := List.forall_mem_cons.1 hl
      obtain ⟨hhead', htail'⟩ := List.forall_mem_cons.1 hl'
      obtain ⟨heq, hrest⟩ := tableLine_append_inj hhead hhead' h
      rw [show l = l' from heq, ih htail htail' hrest]

/-! ### The two round trips -/

/-- What stands in TXT_BUF after SERIALIZE of codes that R31 allows. -/
theorem text_of_serialize {s t : State} (hlen : ∀ v, (entry s.code v).length ≤ 255)
    (ht : exec .serialize s = .next t) : t.txtLen.toNat = (linesText (codedLines s.code)).length ∧
      t.txtLen.toNat ≤ 66816 ∧ BytesAt t.txtBuf (linesText (codedLines s.code)) := by
  have hle := length_tableText_le s.code hlen
  have htoNat : (BitVec.ofNat 32 (tableText s.code).length).toNat = (tableText s.code).length :=
    Nat.mod_eq_of_lt (hle.trans_lt (by decide))
  cases (exec_serialize s).symm.trans ht
  rw [← tableText_eq_linesText]
  exact ⟨htoNat, htoNat.trans_le hle, bytesAt_writeAll _ _⟩

/-- DESERIALIZE of what SERIALIZE wrote restores the table. -/
theorem deserialize_of_serialize {s t : State} (hp : PrefixFree s.code) (hlen : ∀ v, (entry s.code v).length ≤ 255)
    (ht : exec .serialize s = .next t) : exec .deserialize t =
      .next (finish { t with code := s.code, codeNsym := BitVec.ofNat 32 (countEntries (!·.isEmpty) s.code) }) := by
  obtain ⟨htxtLen, hle, hbs⟩ := text_of_serialize hlen ht
  have htable := linesTable_codedLines s.code
  have hs := execDeserialize_of_prefixFree (codedLines_ascending s.code).nodup_map_fst (length_code_of_mem_codedLines hlen)
    (htable.symm ▸ hp) htxtLen (hle.trans t.caps.txtCap_bounds.1) hbs
  rwa [htable, length_codedLines s.code] at hs

/-- What a DESERIALIZE that succeeds has read. -/
theorem deserialized_of_success {s t : State} (h : exec .deserialize s = .next t) (he : t.error = false) :
    ∃ lines : List (Sym × Bits), (lines.map (·.1)).Nodup ∧ (∀ l ∈ lines, 1 ≤ l.2.length ∧ l.2.length ≤ 255) ∧
      s.txtLen.toNat = (linesText lines).length ∧ BytesAt s.txtBuf (linesText lines) ∧ t.code = linesTable lines := by
  rcases execDeserialize_cases s with ⟨-, hs⟩ |
    ⟨-, ⟨_, hs⟩ | ⟨_, _, -, -, -, -, -, -, hs⟩ | ⟨lines, hn, hl, hlen, hbs, ⟨_, -, hs⟩ | ⟨-, hs⟩⟩⟩ <;>
    cases hs.symm.trans h
  · cases he
  · cases he
  · cases he
  · exact ⟨lines, hn, hl, hlen, hbs, rfl⟩

/-- Two buffers with texts of one length agree below it exactly when the texts are the same. -/
theorem reads_eq_iff_of_bytesAt {m m' : Memory} {bs cs : List Byte} {n : Nat} (hb : BytesAt m bs) (hc : BytesAt m' cs)
    (hbn : bs.length = n) (hcn : cs.length = n) : (∀ k, k < n → Memory.read m k = Memory.read m' k) ↔ bs = cs := by
  constructor
  · intro h
    refine hb.eq_of_length_eq (m := m) (fun i hi => ?_) (hbn.trans hcn.symm)
    rw [h i (hcn ▸ hi), hc i hi]
  · rintro rfl k hk
    rw [hb k (hbn ▸ hk), hc k (hbn ▸ hk)]

/-- Settles O44: SERIALIZE writes the lines of CODE sorted, and a text has only one list of lines. -/
theorem serializeRoundTrip : Obligations.SerializeRoundTrip := by
  constructor
  · intro s t hp hlen ht
    exact ⟨_, deserialize_of_serialize hp hlen ht, rfl, rfl, toNat_ofNat_countEntries _ _⟩
  · intro s t u ht he hu
    obtain ⟨lines, hn, hl, htxtLen, hbs, hcode⟩ := deserialized_of_success ht he
    have hcodeLen : ∀ v, (entry t.code v).length ≤ 255 := by
      rw [hcode]
      exact length_entry_lines_le hn hl
    have hperm : (codedLines t.code).Perm lines := by
      rw [hcode]
      exact codedLines_linesTable_perm hn hl
    have hsorted := codedLines_ascending t.code
    have htextLen : (linesText (codedLines t.code)).length = s.txtLen.toNat :=
      (hperm.flatMap_right _).length_eq.trans htxtLen.symm
    obtain ⟨hutxtLen, -, hubs⟩ := text_of_serialize hcodeLen hu
    refine ⟨lines, codedLines t.code, htxtLen, hbs, hperm, hsorted, hutxtLen, hubs, ?_⟩
    rw [reads_eq_iff_of_bytesAt hubs hbs htextLen htxtLen.symm]
    constructor
    · intro h
      rw [← linesText_inj (length_code_of_mem_codedLines hcodeLen) hl h]
      exact hsorted
    · intro h
      rw [hsorted.eq_of_perm h hperm]

end Sys2Proof.Machine
end

section
/-! RECONSTRUCT: the trie of a prefix-free CODE (O45), and that GEN and RECONSTRUCT are inverse where R86 says so (O46,
O47). -/

namespace Sys2Proof.Machine

/-- Settles O45: the insertions of R85 give the trie. -/
theorem reconstructBuildsTrie : Obligations.ReconstructBuildsTrie := by
  intro s hp
  obtain ⟨t, hs, hleaf, hnode, -, -⟩ := execReconstruct_of_prefixFree hp
  exact ⟨t, hs, hleaf, hnode⟩

/-! ### GEN after RECONSTRUCT -/

/-- The walk's root has the leaves of the tree at the same paths, unless the tree is a leaf itself. -/
theorem subtreeAt_walkRoot_eq_leaf_iff {t : PTree} (h : ∀ u, t ≠ .leaf u) (p : Bits) (v : Sym) :
    subtreeAt (walkRoot t) p = .leaf v ↔ subtreeAt t p = .leaf v := by
  cases t with
  | empty => rcases p with _ | ⟨b, p⟩ <;> simp [walkRoot]
  | leaf u => exact absurd rfl (h u)
  | node l r => rfl

/-- The tree `t` has its leaves at the codes of `c`, as RECONSTRUCT leaves them (R85). -/
def LeavesAreCodes (t : PTree) (c : Table Bits) : Prop := ∀ p v, subtreeAt t p = .leaf v ↔ entry c v = p ∧ p ≠ []

/-- A walk in such a tree emits a symbol at the end of its code. -/
theorem LeavesAreCodes.walkRoot {t : PTree} {c : Table Bits} (h : LeavesAreCodes t c) :
    LeavesAreCodes (walkRoot t) c := by
  have hroot : ∀ u, t ≠ .leaf u := by
    rintro u rfl
    exact ((h [] u).1 rfl).2 rfl
  exact fun p v => (subtreeAt_walkRoot_eq_leaf_iff hroot p v).trans (h p v)

/-- The leaves of a tree determine GEN's table. -/
theorem genTable_eq_of_leavesAreCodes {t : PTree} {c : Table Bits} (hn : (leafSyms t).Nodup)
    (h : LeavesAreCodes t c) : genTable t = c := by
  have hiff : ∀ p v, entry (genTable t) v = p ∧ p ≠ [] ↔ entry c v = p ∧ p ≠ [] := fun p v =>
    (entry_genTable hn v p).trans (h.walkRoot p v)
  refine table_ext fun v => ?_
  by_cases hv : entry c v = []
  · rw [hv]
    by_contra hne
    exact hne (((hiff _ v).1 ⟨rfl, hne⟩).1.symm.trans hv)
  · exact ((hiff _ v).2 ⟨rfl, hv⟩).1

/-- Settles O46: RECONSTRUCT's tree has its leaves at the codes. -/
theorem genInvertsReconstruct : Obligations.GenInvertsReconstruct := by
  intro s t u hp ht hu
  obtain ⟨tree, hs, hleaf, -, hnodup, -⟩ := execReconstruct_of_prefixFree hp
  cases hs.symm.trans ht
  cases (exec_gen _).symm.trans hu
  exact genTable_eq_of_leavesAreCodes hnodup hleaf

/-! ### RECONSTRUCT after GEN -/

theorem isTrimmed_node {l r : PTree} (h : isTrimmed (.node l r) = true) : isTrimmed l = true ∧ isTrimmed r = true := by
  simp only [isTrimmed, Bool.and_eq_true] at h
  exact h.1

/-- Every Node of a trimmed tree has a leaf below it (10_state R35). -/
theorem exists_leaf_of_trimmed {t : PTree} (h : isTrimmed t = true) (hne : t ≠ .empty) :
    ∃ p v, subtreeAt t p = .leaf v := by
  obtain ⟨v, hv⟩ : ∃ v, v ∈ leafSyms t := List.exists_mem_of_ne_nil _ (by
    cases t with
    | empty => exact absurd rfl hne
    | leaf u => exact List.cons_ne_nil u []
    | node l r =>
      simp only [isTrimmed, Bool.and_eq_true] at h
      simpa [leafSyms] using h.2)
  obtain ⟨p, hp⟩ := (mem_leafSyms_iff t v).1 hv
  exact ⟨p, v, hp⟩

/-- A trimmed tree is determined by its leaves and their paths. -/
theorem eq_of_trimmed {t u : PTree} (ht : isTrimmed t = true) (hu : isTrimmed u = true)
    (h : ∀ p v, subtreeAt t p = .leaf v ↔ subtreeAt u p = .leaf v) : t = u := by
  induction t generalizing u with
  | empty =>
    by_contra hne
    obtain ⟨p, v, hp⟩ := exists_leaf_of_trimmed hu (Ne.symm hne)
    simpa using (h p v).2 hp
  | leaf v => simpa using ((h [] v).1 rfl).symm
  | node l r ihl ihr =>
    cases u with
    | empty =>
      obtain ⟨p, v, hp⟩ := exists_leaf_of_trimmed ht (by simp)
      simpa using (h p v).1 hp
    | leaf v => simpa using (h [] v).2 rfl
    | node l' r' =>
      obtain ⟨hl, hr⟩ := isTrimmed_node ht
      obtain ⟨hl', hr'⟩ := isTrimmed_node hu
      rw [ihl hl hl' fun p => h (false :: p), ihr hr hr' fun p => h (true :: p)]

/-- Settles O47: the tree that GEN walked and RECONSTRUCT's tree have the same leaves, and both are trimmed. -/
theorem reconstructInvertsGen : Obligations.ReconstructInvertsGen := by
  intro s t hfull hn ht
  cases (exec_gen s).symm.trans ht
  obtain ⟨tree, hs, hleaf, -, -, htrimmed⟩ := execReconstruct_of_prefixFree
    (s := finish (setCode (genTable s.tree) s)) (prefixFree_genTable hn)
  have hsame : ∀ p v, subtreeAt tree p = .leaf v ↔ subtreeAt (walkRoot s.tree) p = .leaf v := fun p v =>
    (hleaf p v).trans (entry_genTable hn v p)
  refine ⟨_, hs, ?_⟩
  rw [finish_tree]
  cases htree : s.tree with
  | empty => simp [htree, isFull] at hfull
  | leaf v =>
    rw [htree] at hsame
    exact eq_of_trimmed htrimmed rfl hsame
  | node l r =>
    rw [htree] at hsame hfull
    exact eq_of_trimmed htrimmed (isTrimmed_of_full hfull) hsame

end Sys2Proof.Machine
end

section
/-! UNPACK: what it answers for bits that begin with the paths of symbols, in bounded mode (O48) and in legacy mode (O49),
and its errors (O50). -/

namespace Sys2Proof.Machine

/-! ### The walk over symbols and then to a Node -/

/-- The answer of a walk that emits the symbols `syms` before it goes on. -/
def emitting (syms : List Sym) (o : Except Stop (List Sym × Nat)) : Except Stop (List Sym × Nat) :=
  o.map fun r => (syms ++ r.1, r.2)

@[simp] theorem emitting_ok (syms more : List Sym) (last : Nat) :
    emitting syms (.ok (more, last)) = .ok (syms ++ more, last) := rfl

@[simp] theorem emitting_error (syms : List Sym) (e : Stop) : emitting syms (.error e) = .error e := rfl

theorem walkBits_limit (n cap : Nat) (root pos : PTree) (j last : Nat) (bits : List (Except Fault Bool)) :
    walkBits (some n) cap root pos j n last bits = .ok ([], last) := by
  cases bits <;> simp [walkBits]

section
variable {limit : Option Nat} {cap : Nat} {root : PTree} {path : Sym → Bits} {syms : List Sym}
  {rest : List (Except Fault Bool)}
  (hroot : ∃ l r, root = .node l r) (hcap : syms.length ≤ cap) (hpath : ∀ v ∈ syms, subtreeAt root (path v) = .leaf v)
include hroot hcap hpath

/-- The walk from the start over the paths of symbols emits them, and their end is the end of the last symbol. -/
theorem walkBits_paths (hlim : ∀ n, limit = some n → syms.length ≤ n) :
    walkBits limit cap root root 0 0 0 ((syms.flatMap path).map Except.ok ++ rest) =
      emitting syms (walkBits limit cap root root (syms.flatMap path).length syms.length (syms.flatMap path).length
        rest) := by
  have hlast : (if syms = [] then 0 else 0 + (syms.flatMap path).length) = (syms.flatMap path).length := by
    cases syms <;> simp
  rw [walkBits_symbols limit cap root path syms 0 0 0 rest hroot (by simpa using hlim) (by simpa using hcap) hpath, hlast,
    Nat.zero_add, Nat.zero_add]
  rcases walkBits limit cap root root _ _ _ rest with e | ⟨more, last⟩ <;> rfl

/-- ... and over a path to a Node after them it emits nothing more. -/
theorem walkBits_paths_tail {tail : Bits} (hlim : ∀ n, limit = some n → syms.length < n)
    (htail : ∃ l r, subtreeAt root tail = .node l r) :
    walkBits limit cap root root 0 0 0 ((syms.flatMap path ++ tail).map Except.ok ++ rest) =
      emitting syms (walkBits limit cap root (subtreeAt root tail) (syms.flatMap path ++ tail).length syms.length
        (syms.flatMap path).length rest) := by
  have hgo : limit ≠ some syms.length := fun h => lt_irrefl _ (hlim _ h)
  have hpartial := walkBits_partial limit cap root [] tail (syms.flatMap path).length syms.length
    (syms.flatMap path).length rest hgo (by simpa using htail)
  rw [subtreeAt_nil, List.nil_append] at hpartial
  rw [List.map_append, List.append_assoc,
    walkBits_paths hroot hcap hpath fun n hn => (hlim n hn).le, hpartial, List.length_append]

end

/-! ### What UNPACK answers -/

/-- The number of symbols after which UNPACK stops, in bounded mode (R88, R89). -/
abbrev symLimit (s : State) : Option Nat := if s.bounded then some s.symCount.toNat else none

theorem symLimit_bounded {s : State} (h : s.bounded = true) : symLimit s = some s.symCount.toNat := if_pos h

theorem symLimit_legacy {s : State} (h : s.bounded = false) : symLimit s = none := by simp [h]

/-- The walk of UNPACK over the bits of IN_BUF (R88). -/
abbrev unpackWalk (s : State) : Except Stop (List Sym × Nat) :=
  walkBits (symLimit s) s.caps.outCap (walkRoot s.tree) (walkRoot s.tree) 0 0 0 (inBits s s.inLen.toNat)

theorem execUnpack_of_long {s : State} (h : s.caps.inCap < s.inLen.toNat) :
    execUnpack s = .next (raiseErr .lengthOutOfRange s.inLen (failUnpack s)) :=
  if_pos h

section
variable {s : State} (hin : s.inLen.toNat ≤ s.caps.inCap)
include hin

theorem execUnpack_of_symCount_large (hb : s.bounded = true) (h : s.caps.outCap < s.symCount.toNat) :
    execUnpack s = .next (raiseErr .outputOverflow s.symCount (failUnpack s)) :=
  (if_neg (by omega)).trans (if_pos ⟨hb, h⟩)

variable (hout : s.bounded = true → s.symCount.toNat ≤ s.caps.outCap)
include hout

theorem execUnpack_of_walk_ok {syms : List Sym} {last : Nat} (h : unpackWalk s = .ok (syms, last)) :
    execUnpack s = .next (writeUnpacked syms last s) := by
  unfold execUnpack
  rw [if_neg (by omega), if_neg fun hlt => absurd (hout hlt.1) (by omega)]
  simp only [h]

theorem execUnpack_of_walk_err {code : ErrCode} {info : Word} (h : unpackWalk s = .error (.err code info)) :
    execUnpack s = .next (raiseErr code info (failUnpack s)) := by
  unfold execUnpack
  rw [if_neg (by omega), if_neg fun hlt => absurd (hout hlt.1) (by omega)]
  simp only [h]

end

/-- The symbols of a successful UNPACK stand in OUT_BUF, and no other byte is written. -/
theorem bytesAt_writeAll_and_rest (m : Memory) (bs : List Byte) : BytesAt (Memory.writeAll m 0 bs) bs ∧
    ∀ k, bs.length ≤ k → Memory.read (Memory.writeAll m 0 bs) k = Memory.read m k :=
  ⟨bytesAt_writeAll m bs, fun k hk => (read_writeAll_zero m bs k).trans (if_neg (Nat.not_lt.2 hk))⟩

/-- Settles O48: after SYM_COUNT symbols the walk ends, whatever bits follow. -/
theorem unpackBounded : Obligations.UnpackBounded := by
  intro s syms path hb hin hlen hcap hpath hbits hfit
  obtain ⟨rest, hrest, -⟩ := inBits_of_bitsAt s s.inLen.toNat _ hbits hfit
  have hwalk : unpackWalk s = .ok (syms, (syms.flatMap path).length) := by
    rw [unpackWalk, symLimit_bounded hb, ← hlen, hrest,
      walkBits_paths (walkRoot_isNode _) hcap hpath (by rintro n ⟨⟩; exact le_rfl), walkBits_limit, emitting_ok,
      List.append_nil]
  have hs := execUnpack_of_walk_ok hin (fun _ => hlen ▸ hcap) hwalk
  rw [writeUnpacked, hlen, BitVec.ofNat_toNat, BitVec.setWidth_eq] at hs
  exact ⟨_, hs, bytesAt_writeAll_and_rest _ _⟩

/-- Settles O49: with no limit the walk ends with the bits, at a Node. -/
theorem unpackLegacy : Obligations.UnpackLegacy := by
  intro s syms path tail hb hin hcap hpath htail hbits hlen
  have hwalk : unpackWalk s = .ok (syms, (syms.flatMap path).length) := by
    rw [unpackWalk, symLimit_legacy hb, inBits_of_bitsAt_all s _ _ hbits hlen, ← List.append_nil (List.map _ _),
      walkBits_paths_tail (walkRoot_isNode _) hcap hpath (by simp) htail]
    simp [walkBits]
  have hs := execUnpack_of_walk_ok hin (by simp [hb]) hwalk
  exact ⟨_, hs, bytesAt_writeAll_and_rest _ _⟩

/-! ### The errors after some symbols and a path to a Node -/

section
variable {s : State} {syms : List Sym} {path : Sym → Bits} {tail : Bits}
  (hin : s.inLen.toNat ≤ s.caps.inCap)
  (hsym : s.bounded = true → s.symCount.toNat ≤ s.caps.outCap ∧ syms.length < s.symCount.toNat)

include hsym in
theorem length_lt_of_symLimit (n : Nat) (hn : symLimit s = some n) : syms.length < n := by
  cases hb : s.bounded with
  | false => cases (symLimit_legacy hb).symm.trans hn
  | true =>
    cases (symLimit_bounded hb).symm.trans hn
    exact (hsym hb).2

include hsym in
theorem symLimit_ne_length : symLimit s ≠ some syms.length := fun h => lt_irrefl _ (length_lt_of_symLimit hsym _ h)

variable (hcap : syms.length ≤ s.caps.outCap)
  (hpath : ∀ v ∈ syms, subtreeAt (walkRoot s.tree) (path v) = .leaf v)
  (htail : ∃ l r, subtreeAt (walkRoot s.tree) tail = .node l r)
include hin hsym hcap hpath htail

/-- UNPACK answers the error with which the walk ends at the Node that the tail reaches. -/
theorem execUnpack_of_tail_err {rest : List (Except Fault Bool)} {code : ErrCode} {info : Word}
    (hbits : inBits s s.inLen.toNat = (syms.flatMap path ++ tail).map Except.ok ++ rest)
    (h : walkBits (symLimit s) s.caps.outCap (walkRoot s.tree) (subtreeAt (walkRoot s.tree) tail)
      (syms.flatMap path ++ tail).length syms.length (syms.flatMap path).length rest = .error (.err code info)) :
    execUnpack s = .next (raiseErr code info (failUnpack s)) := by
  refine execUnpack_of_walk_err hin (fun hb => (hsym hb).1) ?_
  rw [unpackWalk, hbits,
    walkBits_paths_tail (walkRoot_isNode _) hcap hpath (length_lt_of_symLimit hsym) htail, h, emitting_error]

/-- ... and that is the answer to the next bit `b` when `b` leads to no Node. -/
theorem execUnpack_of_tail_bit {b : Bool} {code : ErrCode}
    (hbits : BitsAt s.inBuf (syms.flatMap path ++ tail ++ [b]))
    (hfit : (syms.flatMap path ++ tail).length < 8 * s.inLen.toNat)
    (hend : subtreeAt (walkRoot s.tree) (tail ++ [b]) = .empty ∧ code = .invalidCodePath ∨
      (∃ v, subtreeAt (walkRoot s.tree) (tail ++ [b]) = .leaf v) ∧ syms.length = s.caps.outCap ∧
        code = .outputOverflow) :
    execUnpack s = .next (raiseErr code (BitVec.ofNat 32 (syms.flatMap path ++ tail).length) (failUnpack s)) := by
  obtain ⟨rest, hrest, -⟩ := inBits_of_bitsAt s s.inLen.toNat _ hbits
    (by rw [List.length_append, List.length_singleton]; exact hfit)
  rw [List.map_append, List.append_assoc] at hrest
  refine execUnpack_of_tail_err hin hsym hcap hpath htail hrest ?_
  rw [List.map_singleton, List.singleton_append, walkBits, if_neg (symLimit_ne_length hsym)]
  rcases hend with ⟨hempty, rfl⟩ | ⟨⟨v, hleaf⟩, hfull, rfl⟩
  · simp only [child_subtreeAt, hempty]
  · simp only [child_subtreeAt, hleaf, if_pos hfull]

/-- ... and to the end of the bits before SYM_COUNT symbols. -/
theorem execUnpack_of_tail_end (hb : s.bounded = true) (hbits : BitsAt s.inBuf (syms.flatMap path ++ tail))
    (hlen : (syms.flatMap path ++ tail).length = 8 * s.inLen.toNat) :
    execUnpack s = .next (raiseErr .truncatedBitstream (BitVec.ofNat 32 (8 * s.inLen.toNat)) (failUnpack s)) := by
  have hrest := inBits_of_bitsAt_all s _ _ hbits hlen
  rw [← List.append_nil (List.map _ _)] at hrest
  refine execUnpack_of_tail_err hin hsym hcap hpath htail hrest ?_
  rw [walkBits, if_neg (symLimit_ne_length hsym), symLimit_bounded hb, Option.isSome_some, if_pos rfl, hlen]

end

/-- Settles O50: the two checks before the walk, and the three ways in which the walk ends with an error. -/
theorem unpackErrors : Obligations.UnpackErrors := by
  refine fun s => ⟨execUnpack_of_long, execUnpack_of_symCount_large, fun syms path tail hin hsym hcap hpath htail =>
    ⟨fun b hbits hfit => ⟨fun hempty => ?_, fun v _ hfull hleaf => ?_⟩, ?_⟩⟩
  · exact execUnpack_of_tail_bit hin hsym hcap hpath htail hbits hfit (.inl ⟨hempty, rfl⟩)
  · exact execUnpack_of_tail_bit hin hsym hcap hpath htail hbits hfit (.inr ⟨⟨v, hleaf⟩, hfull, rfl⟩)
  · exact execUnpack_of_tail_end hin hsym hcap hpath htail

end Sys2Proof.Machine
end

section
/-! The round trip of R90 (O59): how long the packed form is, what COUNT, BUILD, GEN and PACK leave of a buffer, and what
RECONSTRUCT and UNPACK make of it, directly or after the text form. -/

namespace Sys2Proof.Machine

/-! ### The length of the packed form -/

/-- A sum over the bytes of a list, taken symbol by symbol. -/
theorem sum_map_eq_sum_count {bs : List Byte} {syms : List Sym} (hn : syms.Nodup) (h : ∀ v, v ∈ syms ↔ v ∈ bs)
    (g : Sym → Nat) : (bs.map g).sum = (syms.map fun v => bs.count v * g v).sum := by
  have hset : bs.toFinset = syms.toFinset := by
    ext v
    simp [h]
  rw [Finset.sum_list_map_count, hset, List.sum_toFinset _ hn]
  simp only [smul_eq_mul]

/-- The weighted depth of a tree, taken leaf by leaf. -/
theorem weightedDepth_eq_sum_leafPaths (f : Table Word) (t : PTree) (q : Bits) :
    weightedDepth f t q.length = ((leafPaths t q).map fun e => (entry f e.1).toNat * e.2.length).sum := by
  induction t generalizing q with
  | empty => rfl
  | leaf v => simp [weightedDepth, leafPaths]
  | node l r ihl ihr =>
    have hl := ihl (q ++ [false])
    have hr := ihr (q ++ [true])
    rw [List.length_append, List.length_singleton] at hl hr
    rw [weightedDepth, hl, hr, leafPaths, List.map_append, List.sum_append]

theorem entry_genTable_of_mem {t : PTree} (hn : (leafSyms t).Nodup) {e : Sym × Bits} (he : e ∈ assignedCodes t) :
    entry (genTable t) e.1 = e.2 :=
  ((entry_genTable hn e.1 e.2).2 ((mem_assignedCodes_iff t e.1 e.2).1 he)).1

section
variable {bs : List Byte} {t : PTree} (hlen : bs.length < 2 ^ 32) (ht : IsTreeOver (tally bs) t)
include hlen ht

/-- The leaves of BUILD's tree are the bytes that occur. -/
theorem mem_leafSyms_iff_mem_bytes (v : Sym) : v ∈ leafSyms t ↔ v ∈ bs :=
  (ht.mem_leafSyms v).trans (entry_tally_ne_zero bs hlen v)

/-- The packed form has, for each leaf, its code as often as COUNT counted it. -/
theorem length_flatMap_genTable : (bs.flatMap (entry (genTable t))).length =
    ((assignedCodes t).map fun e => (entry (tally bs) e.1).toNat * e.2.length).sum := by
  rw [List.length_flatMap, sum_map_eq_sum_count ht.nodup (mem_leafSyms_iff_mem_bytes hlen ht), ← assignedCodes_map_fst,
    List.map_map]
  refine congrArg List.sum (List.map_congr_left fun e he => ?_)
  rw [Function.comp_apply, entry_genTable_of_mem ht.nodup he, entry_tally bs hlen]

/-- The counts of all leaves add up to the number of bytes. -/
theorem sum_present_tally :
    ((allSyms.filter fun v => entry (tally bs) v ≠ 0).map fun v => (entry (tally bs) v).toNat).sum = bs.length := by
  have hsum := sum_map_eq_sum_count ht.nodup (mem_leafSyms_iff_mem_bytes hlen ht) fun _ => 1
  simp only [List.map_const', List.sum_replicate, smul_eq_mul, mul_one] at hsum
  rw [hsum, ← (ht.leaves.map _).sum_eq]
  simp only [entry_tally bs hlen]

end

/-- The packed form takes at most eight bits for each byte: a root leaf's code has one bit, and the weighted depth of a
tree with a Node for its root is the number of bits (R71). -/
theorem length_flatMap_genTable_le {bs : List Byte} {t : PTree} (hlen : bs.length < 2 ^ 32)
    (h : MergesAnyPolicy (startQueue (tally bs)) t) :
    (bs.flatMap (entry (genTable t))).length ≤ 8 * bs.length := by
  have ht := isTreeOver_of_mergesAnyPolicy h
  rw [length_flatMap_genTable hlen ht]
  cases t with
  | empty => cases ht.full
  | leaf v =>
    have hcount : bs.count v ≤ bs.length := List.count_le_length
    simp only [assignedCodes, List.map_singleton, List.sum_singleton, List.length_singleton, entry_tally bs hlen]
    omega
  | node l r =>
    have hdepth := weightedDepth_le_eight h ht.exists_present
    rw [sum_present_tally hlen ht] at hdepth
    exact (weightedDepth_eq_sum_leafPaths _ (.node l r) []).symm.trans_le hdepth

/-! ### What compression leaves -/

/-- The table `c` is a prefix code within the bound of R31 that packs the bytes `bs` without making them longer. -/
structure CodeFor (c : Table Bits) (bs : List Byte) : Prop where
  prefixFree : PrefixFree c
  code_len : ∀ v, (entry c v).length ≤ 255
  coded : ∀ b ∈ bs, entry c b ≠ []
  short : (bs.flatMap (entry c)).length ≤ 8 * bs.length

/-- BUILD's tree has at most 256 leaves, so it meets the bound of R35. -/
theorem IsTreeOver.height_le {f : Table Word} {t : PTree} (h : IsTreeOver f t) : height t ≤ 255 := by
  have hheight := height_lt_of_full h.full
  have hleaves := h.length_leafSyms.trans_le (countEntries_le _ f)
  omega

theorem codeFor_genTable {bs : List Byte} {t : PTree} (hlen : bs.length < 2 ^ 32)
    (h : MergesAnyPolicy (startQueue (tally bs)) t) : CodeFor (genTable t) bs := by
  have ht := isTreeOver_of_mergesAnyPolicy h
  exact {
    prefixFree := prefixFree_genTable ht.nodup
    code_len := length_entry_genTable_le ht.nodup ht.height_le
    coded := fun b hb => (entry_genTable_ne_nil ht.nodup b).2 ((mem_leafSyms_iff_mem_bytes hlen ht b).2 hb)
    short := length_flatMap_genTable_le hlen h }

theorem le_bytesFor (n : Nat) : n ≤ 8 * bytesFor n := by
  unfold bytesFor
  omega

theorem bytesFor_le {n k : Nat} (h : n ≤ 8 * k) : bytesFor n ≤ k := by
  unfold bytesFor
  omega

/-- OUT_BUF, the lengths and CODE are those of the packed form of `bs`. -/
structure HoldsPacked (s : State) (bs : List Byte) : Prop where
  code : CodeFor s.code bs
  outLen : s.outLen.toNat = bytesFor (bs.flatMap (entry s.code)).length
  symCount : s.symCount.toNat = bs.length
  bitCount : s.bitCount = BitVec.ofNat 32 (bs.flatMap (entry s.code)).length
  bits : BitsAt s.outBuf (bs.flatMap (entry s.code))

theorem HoldsPacked.outLen_le {s : State} {bs : List Byte} (h : HoldsPacked s bs) : s.outLen.toNat ≤ bs.length :=
  h.outLen.trans_le (bytesFor_le h.code.short)

section
variable {s : State} {bs : List Byte} (hlen : bs.length = s.inLen.toNat) (hpos : 0 < bs.length)
  (hin : bs.length ≤ s.caps.inCap) (hbs : BytesAt s.inBuf bs)
include hlen hpos hin hbs

/-- COUNT, BUILD and GEN of a buffer succeed and leave a code for it. -/
theorem exists_codeFor : ∃ s1 s2 s3, exec .count s = .next s1 ∧ s1.error = false ∧ exec .build s1 = .next s2 ∧
    s2.error = false ∧ exec .gen s2 = .next s3 ∧ s3.error = false ∧ CodeFor s3.code bs ∧ s3.inBuf = s.inBuf ∧
    s3.inLen = s.inLen ∧ s3.caps = s.caps ∧ s3.bounded = s.bounded := by
  have hlt : bs.length < 2 ^ 32 := hin.trans_lt (caps_lt s.caps).1
  obtain ⟨b, hb⟩ := List.exists_mem_of_length_pos hpos
  obtain ⟨t, hbuild, hmerges⟩ := execBuild_of_present (s := finish (setFreq (tally bs) s))
    ⟨b, (entry_tally_ne_zero bs hlt b).2 hb⟩
  exact ⟨_, _, _, execCount_of_bytesAt hlen hpos hin hbs, rfl, hbuild, rfl, exec_gen _, rfl,
    codeFor_genTable hlt (mergesAnyPolicy_of_merges hmerges), rfl, rfl, rfl, rfl⟩

/-- PACK with a code for the buffer succeeds. -/
theorem exists_holdsPacked (hout : bs.length ≤ s.caps.outCap) (hcode : CodeFor s.code bs) :
    ∃ t, exec .pack s = .next t ∧ t.error = false ∧ HoldsPacked t bs ∧ t.caps = s.caps ∧ t.bounded = s.bounded := by
  have hfits : bytesFor (bs.flatMap (entry s.code)).length ≤ bs.length := bytesFor_le hcode.short
  obtain ⟨m, hpack, hbits, -⟩ := packEmitsCodes s bs _ hlen hpos hin hbs hcode.coded rfl (hfits.trans hout)
  refine ⟨_, hpack, rfl, ?_, rfl, rfl⟩
  exact {
    code := hcode
    outLen := Nat.mod_eq_of_lt (hfits.trans_lt (hin.trans_lt (caps_lt s.caps).1))
    symCount := hlen.symm
    bitCount := rfl
    bits := hbits }

end

/-! ### What decompression makes of it -/

/-- RECONSTRUCT and UNPACK succeed and give back `bs`, and BIT_COUNT is `n`. -/
def UnpacksTo (bs : List Byte) (n : Word) (s : State) : Prop :=
  ∃ t u, exec .reconstruct s = .next t ∧ t.error = false ∧ exec .unpack t = .next u ∧ u.error = false ∧
    u.outLen.toNat = bs.length ∧ BytesAt u.outBuf bs ∧ u.bitCount = n

theorem BitsAt.congr {m m' : Memory} {p : Bits} {n : Nat} (h : BitsAt m p) (hp : p.length ≤ 8 * n)
    (hm : ∀ k, k < n → Memory.read m' k = Memory.read m k) : BitsAt m' p := by
  intro j hj
  rw [← h j hj, bitAt, bitAt, hm (j / 8) (by omega)]

/-- The host has brought the packed form that `s4` holds back into IN_BUF, and CODE is as it was. -/
structure BroughtBack (s4 : State) (m : Memory) (s : State) : Prop where
  bounded : s.bounded = true
  caps : s.caps = s4.caps
  code : s.code = s4.code
  inBuf : s.inBuf = m
  inLen : s.inLen = s4.outLen
  symCount : s.symCount = s4.symCount

section
variable {s4 s : State} {bs : List Byte} {m : Memory} (h : HoldsPacked s4 bs)
include h

/-- The walk in RECONSTRUCT's tree emits each byte at the end of its code. -/
theorem unpacksTo_of_broughtBack (hfit : s4.outLen.toNat ≤ s4.caps.inCap) (hout : bs.length ≤ s4.caps.outCap)
    (hm : ∀ k, k < s4.outLen.toNat → Memory.read m k = Memory.read s4.outBuf k) (hs : BroughtBack s4 m s) :
    UnpacksTo bs s4.bitCount s := by
  obtain ⟨hbounded, hcaps, hcode, hinBuf, hinLen, hsymCount⟩ := hs
  obtain ⟨t, hrec, hleaf, -⟩ := execReconstruct_of_prefixFree (hcode ▸ h.code.prefixFree)
  have hwalk : LeavesAreCodes (walkRoot t) s4.code := LeavesAreCodes.walkRoot (hcode ▸ hleaf)
  have hlen : (bs.flatMap (entry s4.code)).length ≤ 8 * s4.outLen.toNat := h.outLen ▸ le_bytesFor _
  obtain ⟨out, hunpack, hbytes, -⟩ := unpackBounded (finish { s with tree := t }) bs (entry s4.code) hbounded
    (by rw [finish_inLen, finish_caps, hinLen, hcaps]; exact hfit)
    (by rw [finish_symCount, hsymCount, h.symCount])
    (by rw [finish_caps, hcaps]; exact hout)
    (fun b hb => (hwalk _ b).2 ⟨rfl, h.code.coded b hb⟩)
    (by rw [finish_inBuf, hinBuf]; exact h.bits.congr hlen hm)
    (by rw [finish_inLen, hinLen]; exact hlen)
  refine ⟨_, _, hrec, rfl, hunpack, rfl, ?_, hbytes, h.bitCount.symm⟩
  rw [finish_outLen, finish_symCount, hsymCount, h.symCount]

/-- The text that SERIALIZE wrote into `t1` restores CODE in a state that has kept it. -/
theorem exec_deserialize_of_holdsPacked {t1 u : State} (ht1 : exec .serialize s4 = .next t1)
    (htxtBuf : u.txtBuf = t1.txtBuf) (htxtLen : u.txtLen = t1.txtLen) : ∃ n, exec .deserialize u =
      .next (finish { u with code := s4.code, codeNsym := n }) := by
  obtain ⟨hlen, hle, hbs⟩ := text_of_serialize h.code.code_len ht1
  rw [← htxtLen] at hlen hle
  rw [← htxtBuf] at hbs
  have htable := linesTable_codedLines s4.code
  have hs := execDeserialize_of_prefixFree (codedLines_ascending s4.code).nodup_map_fst
    (length_code_of_mem_codedLines h.code.code_len) (htable.symm ▸ h.code.prefixFree) hlen
    (hle.trans u.caps.txtCap_bounds.1) hbs
  rw [htable] at hs
  exact ⟨_, hs⟩

end

/-- Settles O59: all three ways bring the packed form and CODE back. -/
theorem compressDecompressRoundTrip : Obligations.CompressDecompressRoundTrip := by
  intro s bs hbounded hlen hpos hin hout hbs
  obtain ⟨s1, s2, s3, hcount, he1, hbuild, he2, hgen, he3, hcode, hinBuf, hinLen, hcaps3, hbounded3⟩ :=
    exists_codeFor hlen hpos hin hbs
  obtain ⟨s4, hpack, he4, hpacked, hcaps4, hbounded4⟩ := exists_holdsPacked (hinLen ▸ hlen) hpos (hcaps3 ▸ hin)
    (hinBuf ▸ hbs) (hcaps3 ▸ hout) hcode
  have hcaps : s4.caps = s.caps := hcaps4.trans hcaps3
  have hb : s4.bounded = true := hbounded4.trans (hbounded3.trans hbounded)
  refine ⟨s1, s2, s3, s4, hcount, he1, hbuild, he2, hgen, he3, hpack, he4, hpacked.outLen_le, fun m hm => ?_⟩
  have hback : ∀ u, BroughtBack s4 m u → UnpacksTo bs s4.bitCount u := fun u =>
    unpacksTo_of_broughtBack hpacked (hcaps ▸ hpacked.outLen_le.trans hin) (hcaps ▸ hout) hm
  obtain ⟨s5, hserialize, he5, hb5, hcaps5, hsym5⟩ : ∃ s5, exec .serialize s4 = .next s5 ∧ s5.error = false ∧
      s5.bounded = true ∧ s5.caps = s4.caps ∧ s5.symCount = s4.symCount := ⟨_, exec_serialize s4, rfl, hb, rfl, rfl⟩
  obtain ⟨s6, hclear, he6, hb6, hcaps6, htxt6⟩ : ∃ s6, exec .clear s5 = .next s6 ∧ s6.error = false ∧
      s6.bounded = true ∧ s6.caps = s4.caps ∧ s6.txtBuf = s5.txtBuf := ⟨_, rfl, rfl, hb5, hcaps5, rfl⟩
  obtain ⟨n, hdirect⟩ := exec_deserialize_of_holdsPacked hpacked hserialize
    (u := { s5 with inBuf := m, inLen := s4.outLen }) rfl rfl
  obtain ⟨n', hcleared⟩ := exec_deserialize_of_holdsPacked hpacked hserialize
    (u := { s6 with inBuf := m, inLen := s4.outLen, txtLen := s5.txtLen, symCount := s4.symCount }) htxt6 rfl
  exact ⟨hback _ ⟨hb, rfl, rfl, rfl, rfl, rfl⟩, s5, _, s6, _, hserialize, he5,
    hdirect, rfl, hback _ ⟨hb5, hcaps5, rfl, rfl, rfl, hsym5⟩, hclear, he6,
    hcleared, rfl, hback _ ⟨hb6, hcaps6, rfl, rfl, rfl, rfl⟩⟩

end Sys2Proof.Machine
end

section
/-! The control commands: NOP completes and does nothing else (O23); CLEAR empties the working set, and what the commands
that read it answer then (O24). -/

namespace Sys2Proof.Machine

/-- With BUSY_LEN 0, acceptance of a command that completes is its completion from the accepted state (R36, R96). -/
theorem acceptCommand_zero_encode {i : Instr} {s t : State} (h : exec i (accept (encode i) s) = .next t) :
    acceptCommand 0 (encode i) s = .next t := by
  rw [acceptCommand_of_decode_ok (decode_encode i), h]
  rfl

/-! ### NOP -/

theorem exec_nop (s : State) : exec .nop s = .next (finish s) := rfl

/-- Settles O23: NOP is completion alone, and the word 0 encodes it. -/
theorem nopCompletes : Obligations.NopCompletes :=
  fun s => ⟨exec_nop s, acceptCommand_zero_encode (i := .nop) (exec_nop _)⟩

/-! ### CLEAR -/

/-- What CLEAR writes before it completes (R92). -/
def cleared (s : State) : State :=
  { s with
    freq := filled 0, code := filled [], tree := .empty, inLen := 0, outLen := 0, symCount := 0, bitCount := 0
    txtLen := 0, distinct := 0, codeNsym := 0 }

theorem exec_clear (s : State) : exec .clear s = .next (finish (cleared s)) := rfl

/-! ### The other commands where their operands are empty -/

/-- A table with no code in it makes CODE_NSYM 0 (R29). -/
theorem setCode_filled_nil (s : State) : setCode (filled []) s = clearCode s := by
  rw [setCode, countEntries_filled _ [] rfl]
  rfl

/-- With no tree, GEN assigns no code (R72). -/
theorem exec_gen_of_empty {s : State} (h : s.tree = .empty) : exec .gen s = .next (finish (clearCode s)) := by
  rw [exec_gen, h, ← setCode_filled_nil]
  rfl

/-- Asked for no symbol, UNPACK stops before its first bit (R88). -/
theorem execUnpack_of_symCount_zero {s : State} (hin : s.inLen.toNat ≤ s.caps.inCap) (hb : s.bounded = true)
    (h : s.symCount = 0) : execUnpack s = .next (finish { s with outLen := 0, bitCount := 0 }) := by
  have hzero : s.symCount.toNat = 0 := congrArg BitVec.toNat h
  have hwalk : unpackWalk s = .ok ([], 0) := by
    rw [unpackWalk, symLimit_bounded hb, hzero]
    exact walkBits_limit ..
  exact execUnpack_of_walk_ok hin (fun _ => by omega) hwalk

/-- Settles O24: the cleared state has the operands on which BUILD and PACK find no input, GEN no tree and UNPACK no
symbol to emit. -/
theorem clearEmptiesTheWorkingSet : Obligations.ClearEmptiesTheWorkingSet := fun s =>
  ⟨filled 0, filled [], entry_filled 0, entry_filled [], exec_clear s,
    acceptCommand_zero_encode (i := .clear) (exec_clear _),
    execBuild_of_absent (s := finish (cleared s)) (entry_filled 0),
    execPack_of_empty (s := finish (cleared s)) rfl,
    ⟨filled [], exec_gen_of_empty (s := finish (cleared s)) rfl, entry_filled []⟩,
    fun hb => execUnpack_of_symCount_zero (s := finish (cleared s)) (Nat.zero_le _) hb rfl⟩

end Sys2Proof.Machine
end

section
/-! Errors and completion: what acceptance and the two completions write (O5, O6), and by which command and after which
clearing step each error is raised (O52, O53). -/

namespace Sys2Proof.Machine

/-! ### Acceptance and completion -/

/-- Acceptance publishes what the word answers from the accepted state (R96). -/
theorem acceptCommand_of_runWord {w : Word} {s : State} {o : Host.Outcome State Fault Refusal}
    (h : runWord w (accept w s) = o) (k : Nat) : acceptCommand k w s = publish k (accept w s) o := by
  rw [acceptCommand, h]

/-- Settles O5: the cleared state is the accepted one, and `publish` computes on each outcome and each BUSY_LEN. -/
theorem acceptanceWritesStatus : Obligations.AcceptanceWritesStatus := fun k _ _ =>
  ⟨fun _ h => ⟨acceptCommand_of_runWord h 0, acceptCommand_of_runWord h (k + 1)⟩,
    fun _ h => ⟨acceptCommand_of_runWord h 0, acceptCommand_of_runWord h (k + 1)⟩⟩

/-- Settles O6: the two completions are the updates that R97 and R98 give. -/
theorem completionWritesStatus : Obligations.CompletionWritesStatus := fun _ _ _ => ⟨rfl, rfl⟩

/-! ### How a command ends -/

/-- The commands that report an error code: the last column of the table of R94. -/
def raisedBy : ErrCode → List Instr
  | .none => []
  | .emptyInput => [.count, .build, .pack]
  | .missingCode => [.pack]
  | .malformedEntry => [.deserialize]
  | .truncatedBitstream => [.unpack]
  | .invalidCodePath => [.unpack]
  | .prefixConflict => [.deserialize]
  | .outputOverflow => [.pack, .unpack]
  | .lengthOutOfRange => [.count, .pack, .unpack, .deserialize]
  | .illegalCommand => []

/-- The clearing step of a command that fails (R99); a command that never fails has none. -/
def clearResult : Instr → State → State
  | .count, s => clearFreq s
  | .build, s => { s with tree := .empty }
  | .pack, s => failPack s
  | .deserialize, s => clearCode s
  | .unpack, s => failUnpack s
  | .nop, s => s
  | .gen, s => s
  | .serialize, s => s
  | .reconstruct, s => s
  | .clear, s => s

/-- The ways command `i`, run on `s`, can end: success, an error of its own after its clearing step, or a fault. -/
inductive Ends (i : Instr) (s : State) : Host.Outcome State Fault Refusal → Prop where
  | finished (u : State) : Ends i s (.next (finish u))
  | raised {code : ErrCode} (info : Word) (h : i ∈ raisedBy code) : Ends i s (.next (raiseErr code info (clearResult i s)))
  | faulted (f : Fault) : Ends i s (.fault f)

theorem execCount_ends (s : State) : Ends .count s (execCount s) := by
  rcases execCount_cases s with ⟨-, h⟩ | ⟨-, h⟩ | ⟨-, -, ⟨_, -, -, h⟩ | ⟨_, -, -, -, h⟩⟩ <;> rw [h]
  · exact .raised (code := .lengthOutOfRange) _ (by decide)
  · exact .raised (code := .emptyInput) _ (by decide)
  · exact .finished _
  · exact .faulted _

theorem execBuild_ends (s : State) : Ends .build s (execBuild s) := by
  rcases execBuild_cases s with ⟨-, h⟩ | ⟨_, -, -, -, h⟩ <;> rw [h]
  · exact .raised (code := .emptyInput) _ (by decide)
  · exact .finished _

theorem writePacked_ends (n : Word) (bits : Bits) (s : State) : Ends .pack s (.next (writePacked n bits s)) := by
  rcases writePacked_cases n bits s with ⟨-, h⟩ | ⟨-, h⟩ <;> rw [h]
  · exact .raised (code := .outputOverflow) _ (by decide)
  · exact .finished _

theorem execPack_ends (s : State) : Ends .pack s (execPack s) := by
  rcases execPack_cases s with ⟨-, h⟩ | ⟨-, h⟩ |
    ⟨-, -, ⟨_, _, -, -, -, -, h⟩ | ⟨_, -, -, -, -, h⟩ | ⟨_, -, -, -, h⟩⟩ <;> rw [h]
  · exact .raised (code := .lengthOutOfRange) _ (by decide)
  · exact .raised (code := .emptyInput) _ (by decide)
  · exact .raised (code := .missingCode) _ (by decide)
  · exact .faulted _
  · exact writePacked_ends _ _ s

theorem execDeserialize_ends (s : State) : Ends .deserialize s (execDeserialize s) := by
  rcases execDeserialize_cases s with ⟨-, h⟩ |
    ⟨-, ⟨_, h⟩ | ⟨_, _, -, -, -, -, -, -, h⟩ | ⟨_, -, -, -, -, ⟨_, -, h⟩ | ⟨-, h⟩⟩⟩ <;> rw [h]
  · exact .raised (code := .lengthOutOfRange) _ (by decide)
  · exact .raised (code := .malformedEntry) _ (by decide)
  · exact .faulted _
  · exact .raised (code := .prefixConflict) _ (by decide)
  · exact .finished _

theorem execReconstruct_ends (s : State) : Ends .reconstruct s (execReconstruct s) := by
  rcases execReconstruct_cases s with ⟨_, h⟩ | ⟨_, h⟩ <;> rw [h]
  · exact .finished _
  · exact .faulted _

theorem execUnpack_ends (s : State) : Ends .unpack s (execUnpack s) := by
  rcases execUnpack_cases s with ⟨code, _, hcode, h⟩ | ⟨-, -, _, _, _, -, -, -, -, -, -, -, -, h⟩ | ⟨_, _, -, h⟩ <;> rw [h]
  · have hrow : .unpack ∈ raisedBy code := by rcases hcode with rfl | rfl | rfl | rfl <;> decide
    exact .raised _ hrow
  · exact .faulted _
  · exact .finished _

theorem exec_ends (i : Instr) (s : State) : Ends i s (exec i s) := by
  cases i with
  | nop => exact .finished _
  | count => exact execCount_ends s
  | build => exact execBuild_ends s
  | gen => exact .finished _
  | pack => exact execPack_ends s
  | serialize => exact .finished _
  | deserialize => exact execDeserialize_ends s
  | reconstruct => exact execReconstruct_ends s
  | unpack => exact execUnpack_ends s
  | clear => exact .finished _

/-! ### The two statements -/

/-- Settles O52: a success reports NONE with ERR_INFO 0, and an error has a code whose row names the command. -/
theorem errorCodesByCommand : Obligations.ErrorCodesByCommand := by
  intro i s t h
  have hend := exec_ends i s
  rw [h] at hend
  cases hend with
  | finished u => simp
  | @raised code info hrow =>
    cases code with
    | none | illegalCommand => exact absurd hrow List.not_mem_nil
    | _ => simpa [raisedBy] using hrow

/-- Settles O53: an error is raised of the state after the clearing step, which completion leaves as it is. -/
theorem failedCommandsLeaveNoResult : Obligations.FailedCommandsLeaveNoResult := by
  intro i s t h herr
  have hend := exec_ends i s
  rw [h] at hend
  cases hend with
  | finished u => exact absurd herr Bool.false_ne_true
  | raised info hrow =>
    refine ⟨?count, ?build, ?deserialize, ?pack, ?unpack⟩ <;> rintro rfl
    case count => exact ⟨entry_filled 0, rfl⟩
    case build => rfl
    case deserialize => exact ⟨entry_filled [], rfl⟩
    case pack => exact ⟨fun _ => rfl, rfl, rfl, rfl⟩
    case unpack => exact ⟨fun _ => rfl, rfl, rfl⟩

end Sys2Proof.Machine
end

section
/-! The reset event (O12): no field of the state before it reaches the block or the sequencer. -/

namespace Sys2Proof.Machine

/-- R106 against R40: of the state before, only the capacities and the model's own fields survive. -/
theorem resetEvent_eq_reset (s : State) :
    resetEvent s = { State.reset with
      caps := s.caps, host := s.host, reads := s.reads, draws := s.draws, resetLast := true } := rfl

/-- Settles O12: a pending reset is served as `resetEvent` whatever the sequencer holds. -/
theorem resetEventRestoresReset : Obligations.ResetEventRestoresReset := by
  intro s rest hhost
  rw [step_of_reset hhost, resetEvent_eq_reset]

end Sys2Proof.Machine
end
